-- ==== Sys2Proof/Word.lean ====
section
/-! DEFINITION. The two word types of the TFC: registers hold 32 bits (R20), buffers hold octets (R36). -/
namespace Sys2Proof

/-- The value of one register, 32 bits (R7, R20). -/
abbrev Word := BitVec 32

/-- One octet of a buffer (R16, R36). -/
abbrev Byte := BitVec 8

end Sys2Proof
end

