-- ==== Sys2Proof/Config.lean ====
section
/-! DEFINITION. What the spec fixes for every TFC (the parameter table R7) and the two values it leaves
free: the reset draw of a buffer octet (R41) and the FECF collaborator (R215). -/
namespace Sys2Proof.Config

/-- FRAME_SIZE, octets in the FRAME buffer (R7, R36). -/
def frameSize : Nat := 131072

/-- PAYLOAD_SIZE, octets in the PAYLOAD buffer (R7, R36). -/
def payloadSize : Nat := 131072

/-- IZ_SIZE, octets in the IZ buffer (R7, R36). -/
def izSize : Nat := 65536

/-- SPSH_SIZE, octets in the SPSH buffer (R7, R36). -/
def spshSize : Nat := 65536

/-- SECHDR size (R7, R36). -/
def sechdrSize : Nat := 6

/-- SECTRL size (R7, R36). -/
def sectrlSize : Nat := 16

/-- OCF size (R7, R36). -/
def ocfSize : Nat := 4

/-- FECF size (R7, R36). -/
def fecfSize : Nat := 4

/-- FREE VALUE (R41, I8; assumption log 1). `resetDraw k a` is the octet at block offset `a` drawn at the
`k`-th reset. It has no body, so no proof can lean on a drawn value. -/
opaque resetDraw : Nat → Nat → Byte

/-- FREE VALUE (R8, R215, I9; assumption log 6). The FECF collaborator: a total function from the frame
octets before the FECF to exactly four octets, of which nothing else is known. -/
opaque computeFECF : List Byte → Vector Byte 4

end Sys2Proof.Config
end

