-- ==== Sys2Proof/Syntax.lean ====
section
/-! DEFINITION. The commands of the TFC (one constructor per row of the opcode table, R102), the names of
its registers and buffers, and the host's accesses and program lines (R72, R73, R105, R106). -/
namespace Sys2Proof

/-- One constructor per row of the opcode map R102. No command word carries an operand (R103); the one
variable bit is H of TF_ENCODE (R100). -/
inductive Instr where
  | lockConfig
  | writeField
  | readField
  | phEncode
  | phDecode
  | dfEncode
  | dfDecode
  | tfEncode (h : Bool)
  | tfDecode
  | spEncode
  | spDecode
  deriving DecidableEq, Repr

/-- The registers of 10_state.md sections 2 to 8, in offset order (R23 to R35, R71). -/
inductive Reg where
  | cmd | status | frameLen | payloadLen | ocfValid | dfhFhpPresent
  | cfgVersion | cfgScid | cfgSrcDst | cfgMapId | cfgIzLen | cfgFecfEn | cfgFcMode | cfgStrictSpare | cfgSpShLen
  | hdrTfvn | hdrScid | hdrSrcDst | hdrVcid | hdrMapId | hdrEndFlag | hdrTfLength | hdrBypass | hdrProtoCmd
  | hdrSpare | hdrOcfFlag | hdrFcLen | hdrFcValueLo | hdrFcValueHi
  | dfhRule | dfhProtoId | dfhFhp
  | spVersion | spType | spShFlag | spApid | spSeqFlags | spSeqCount | spDataLen
  | fldOffset | fldWidth | fldValueLo | fldValueHi
  deriving DecidableEq, Repr

/-- Every register, in offset order. -/
def Reg.all : List Reg :=
  [.cmd, .status, .frameLen, .payloadLen, .ocfValid, .dfhFhpPresent,
   .cfgVersion, .cfgScid, .cfgSrcDst, .cfgMapId, .cfgIzLen, .cfgFecfEn, .cfgFcMode, .cfgStrictSpare, .cfgSpShLen] ++
  [.hdrTfvn, .hdrScid, .hdrSrcDst, .hdrVcid, .hdrMapId, .hdrEndFlag, .hdrTfLength, .hdrBypass, .hdrProtoCmd,
   .hdrSpare, .hdrOcfFlag, .hdrFcLen, .hdrFcValueLo, .hdrFcValueHi] ++
  [.dfhRule, .dfhProtoId, .dfhFhp,
   .spVersion, .spType, .spShFlag, .spApid, .spSeqFlags, .spSeqCount, .spDataLen,
   .fldOffset, .fldWidth, .fldValueLo, .fldValueHi]

/-- The eight octet buffers of R36. -/
inductive Buf where
  | sechdr | sectrl | ocf | fecf | frame | payload | iz | spsh
  deriving DecidableEq, Repr

/-- Every buffer, in the order of their windows (R71). -/
def Buf.all : List Buf := [.sechdr, .sectrl, .ocf, .fecf, .frame, .payload, .iz, .spsh]

/-- The two kinds of host access, as the fault HostHazard names them (R310). -/
inductive AccessKind where
  | read | write
  deriving DecidableEq, Repr

/-- One host access at a block offset, `width` bits wide (R72 to R74). A write supplies exactly `width` data
bits. Offsets and widths are not restricted here: the illegal ones end in BusError (R74). -/
inductive Access where
  | read (offset width : Nat)
  | write (offset width : Nat) (value : BitVec width)
  deriving DecidableEq, Repr

/-- The two 64-bit operands held in a LO/HI register pair (R106 `wr64`). -/
inductive RegPair where
  | hdrFcValue | fldValue
  deriving DecidableEq, Repr

/-- What a host program comes down to (R105, R106): single accesses, and the polling loop `wait`. -/
inductive HostOp where
  | access (a : Access)
  | wait
  deriving DecidableEq, Repr

/-- One line of a host program, pseudo-instructions included (R105, R106). -/
inductive HostLine where
  | wr (r : Reg) (v : Word)
  | rd (r : Reg)
  | wb (b : Buf) (i : Nat) (v : Byte)
  | rb (b : Buf) (i : Nat)
  | cmd (c : Instr)
  | wait
  | exec (c : Instr)
  | wr64 (p : RegPair) (v : BitVec 64)
  | wbs (b : Buf) (i : Nat) (vs : List Byte)
  | rbs (b : Buf) (i n : Nat)
  deriving DecidableEq, Repr

end Sys2Proof
end

