-- ==== Sys2Proof/WellFormed.lean ====
section
/-! DEFINITION. Well-formedness of commands and of host program lines. -/
namespace Sys2Proof

/-- The size of each buffer in octets (R36). -/
def Buf.size : Buf → Nat
  | .sechdr => Config.sechdrSize
  | .sectrl => Config.sectrlSize
  | .ocf => Config.ocfSize
  | .fecf => Config.fecfSize
  | .frame => Config.frameSize
  | .payload => Config.payloadSize
  | .iz => Config.izSize
  | .spsh => Config.spshSize

/-- Every term of `Instr` is a command: a command word carries no operand (R103), and H exists in
TF_ENCODE's constructor alone, so there is nothing left to check. One arm per constructor, so that a command
added later must say what it checks. -/
def Instr.wf : Instr → Bool
  | .lockConfig | .writeField | .readField => true
  | .phEncode | .phDecode => true
  | .dfEncode | .dfDecode => true
  | .tfEncode _ | .tfDecode => true
  | .spEncode | .spDecode => true

/-- A host line is well formed when every octet it names lies in its buffer (R73, R105, R106). An ill-formed
line still expands to accesses, which fall outside the buffer's window. -/
def HostLine.wf : HostLine → Bool
  | .wr _ _ | .rd _ | .cmd _ | .wait | .exec _ | .wr64 _ _ => true
  | .wb b i _ | .rb b i => decide (i < b.size)
  | .wbs b i vs => decide (i + vs.length ≤ b.size)
  | .rbs b i n => decide (i + n ≤ b.size)

end Sys2Proof
end

