-- ==== Sys2Proof/Decode.lean ====
section
/-! DEFINITION. The command word: decoding (R101), the opcode map with its match and mask values (R102), and
the encoder. -/
namespace Sys2Proof

/-- Why a command word is no command (R101, R104). Each raises IllegalCommandError. -/
inductive DecodeReject where
  | unknownOpcode
  | reservedBitsSet
  | hookOnOtherCommand
  deriving DecidableEq, Repr

/-- OPCODE, bits 7:0 of the command word (R100). -/
def opcodeField (w : Word) : BitVec 8 := w.extractLsb' 0 8

/-- H, bit 8 of the command word (R100). -/
def hookField (w : Word) : Bool := w.getLsbD 8

/-- RSV, bits 31:9 of the command word (R100). -/
def rsvField (w : Word) : BitVec 23 := w.extractLsb' 9 23

/-- The command an opcode selects, H going to TF_ENCODE (R102). -/
def commandOf (op : BitVec 8) (h : Bool) : Option Instr :=
  match op.toNat with
  | 0x01 => some .lockConfig
  | 0x02 => some .writeField
  | 0x03 => some .readField
  | 0x10 => some .phEncode
  | 0x11 => some .phDecode
  | 0x20 => some .dfEncode
  | 0x21 => some .dfDecode
  | 0x30 => some (.tfEncode h)
  | 0x31 => some .tfDecode
  | 0x40 => some .spEncode
  | 0x41 => some .spDecode
  | _ => none

/-- Command decoding, in the order of R101. Total: every 32-bit word selects one command or is rejected. -/
def decode (w : Word) : Except DecodeReject Instr :=
  match commandOf (opcodeField w) (hookField w) with
  | none => .error .unknownOpcode
  | some i =>
    if rsvField w ≠ 0 then .error .reservedBitsSet
    else if hookField w && opcodeField w != 0x30 then .error .hookOnOtherCommand
    else .ok i

/-- The OPCODE of each command (R102). -/
def opcodeOf : Instr → BitVec 8
  | .lockConfig => 0x01
  | .writeField => 0x02
  | .readField => 0x03
  | .phEncode => 0x10
  | .phDecode => 0x11
  | .dfEncode => 0x20
  | .dfDecode => 0x21
  | .tfEncode _ => 0x30
  | .tfDecode => 0x31
  | .spEncode => 0x40
  | .spDecode => 0x41

/-- The H bit of each command (R100). -/
def hookOf : Instr → Bool
  | .tfEncode h => h
  | .lockConfig | .writeField | .readField | .phEncode | .phDecode | .dfEncode | .dfDecode | .tfDecode
  | .spEncode | .spDecode => false

/-- The command word of a command: RSV = 0, then H, then OPCODE (R100). -/
def encode (i : Instr) : Word :=
  (0 : BitVec 23) ++ BitVec.ofBool (hookOf i) ++ opcodeOf i

/-- One row of the opcode map: a word belongs to the row when `w &&& mask = pattern` (R102). -/
structure OpcodeRow where
  pattern : Word
  mask : Word
  deriving DecidableEq, Repr

/-- The match and mask columns of R102, written out from the table. -/
def opcodeRow : Instr → OpcodeRow
  | .lockConfig => ⟨0x00000001, 0xFFFFFFFF⟩
  | .writeField => ⟨0x00000002, 0xFFFFFFFF⟩
  | .readField => ⟨0x00000003, 0xFFFFFFFF⟩
  | .phEncode => ⟨0x00000010, 0xFFFFFFFF⟩
  | .phDecode => ⟨0x00000011, 0xFFFFFFFF⟩
  | .dfEncode => ⟨0x00000020, 0xFFFFFFFF⟩
  | .dfDecode => ⟨0x00000021, 0xFFFFFFFF⟩
  | .tfEncode _ => ⟨0x00000030, 0xFFFFFEFF⟩
  | .tfDecode => ⟨0x00000031, 0xFFFFFFFF⟩
  | .spEncode => ⟨0x00000040, 0xFFFFFFFF⟩
  | .spDecode => ⟨0x00000041, 0xFFFFFFFF⟩

/-- Does a word belong to a row of the opcode map? -/
def OpcodeRow.accepts (r : OpcodeRow) (w : Word) : Bool := w &&& r.mask == r.pattern

/-- The opcode map R102, one row per mnemonic. -/
def opcodeTable : List OpcodeRow :=
  [opcodeRow .lockConfig, opcodeRow .writeField, opcodeRow .readField, opcodeRow .phEncode, opcodeRow .phDecode,
   opcodeRow .dfEncode, opcodeRow .dfDecode, opcodeRow (.tfEncode false), opcodeRow .tfDecode,
   opcodeRow .spEncode, opcodeRow .spDecode]

/-- A command word is well formed when some row of the opcode map accepts it (R102, R104). -/
def wfCommandWord (w : Word) : Bool := opcodeTable.any fun r => r.accepts w

/-- The host's table numbering: the bits of the one 32-bit command word, bit 0 least significant (R10, R100).
A row of the table is the whole word, so a number of more than 32 bits is none. -/
def decodeTableWord (nbits w : Nat) : Option Instr :=
  if nbits ≤ 32 && decide (w < 2 ^ 32) then (decode (BitVec.ofNat 32 w)).toOption else none

end Sys2Proof
end

