-- ==== Sys2Proof/Machine/AddressMap.lean ====
section
/-! DEFINITION. The block address map (R71): where each register and each buffer window lies. -/
namespace Sys2Proof.Machine

/-- The block offset of each register (R23 to R35, R71). -/
def regOffset : Reg → Nat
  | .cmd => 0x000
  | .status => 0x004
  | .frameLen => 0x008
  | .payloadLen => 0x00C
  | .ocfValid => 0x010
  | .dfhFhpPresent => 0x014
  | .cfgVersion => 0x020
  | .cfgScid => 0x024
  | .cfgSrcDst => 0x028
  | .cfgMapId => 0x02C
  | .cfgIzLen => 0x030
  | .cfgFecfEn => 0x034
  | .cfgFcMode => 0x038
  | .cfgStrictSpare => 0x03C
  | .cfgSpShLen => 0x040
  | .hdrTfvn => 0x060
  | .hdrScid => 0x064
  | .hdrSrcDst => 0x068
  | .hdrVcid => 0x06C
  | .hdrMapId => 0x070
  | .hdrEndFlag => 0x074
  | .hdrTfLength => 0x078
  | .hdrBypass => 0x07C
  | .hdrProtoCmd => 0x080
  | .hdrSpare => 0x084
  | .hdrOcfFlag => 0x088
  | .hdrFcLen => 0x08C
  | .hdrFcValueLo => 0x090
  | .hdrFcValueHi => 0x094
  | .dfhRule => 0x0A0
  | .dfhProtoId => 0x0A4
  | .dfhFhp => 0x0A8
  | .spVersion => 0x0C0
  | .spType => 0x0C4
  | .spShFlag => 0x0C8
  | .spApid => 0x0CC
  | .spSeqFlags => 0x0D0
  | .spSeqCount => 0x0D4
  | .spDataLen => 0x0D8
  | .fldOffset => 0x0E0
  | .fldWidth => 0x0E4
  | .fldValueLo => 0x0E8
  | .fldValueHi => 0x0EC

/-- The block offset of octet 0 of each buffer's window (R71). -/
def bufBase : Buf → Nat
  | .sechdr => 0x00100
  | .sectrl => 0x00110
  | .ocf => 0x00120
  | .fecf => 0x00124
  | .frame => 0x20000
  | .payload => 0x40000
  | .iz => 0x60000
  | .spsh => 0x70000

/-- Does the window of this buffer hold this block offset (R71)? -/
def inWindow (b : Buf) (offset : Nat) : Bool :=
  decide (bufBase b ≤ offset) && decide (offset < bufBase b + b.size)

/-- The register that occupies a block offset, if any (R71, R72). -/
def regAt (offset : Nat) : Option Reg := Reg.all.find? fun r => regOffset r == offset

/-- The buffer whose window holds a block offset, if any (R71, R73). -/
def bufAt (offset : Nat) : Option Buf := Buf.all.find? fun b => inWindow b offset

end Sys2Proof.Machine
end

