-- ==== Sys2Proof/Machine/State.lean ====
section
/-! DEFINITION. The state of the TFC (R20) as plain data, its value after reset (R40, R41), the reasons a
step can stop, and the outcome of one command before completion. -/
namespace Sys2Proof.Machine

/-- The nine configuration registers (R29). -/
structure CfgRegs where
  version : Word
  scid : Word
  srcDst : Word
  mapId : Word
  izLen : Word
  fecfEn : Word
  fcMode : Word
  strictSpare : Word
  spShLen : Word
  deriving DecidableEq, Repr

/-- The fourteen primary header registers (R31). -/
structure HdrRegs where
  tfvn : Word
  scid : Word
  srcDst : Word
  vcid : Word
  mapId : Word
  endFlag : Word
  tfLength : Word
  bypass : Word
  protoCmd : Word
  spare : Word
  ocfFlag : Word
  fcLen : Word
  fcValueLo : Word
  fcValueHi : Word
  deriving DecidableEq, Repr

/-- The three data-field header registers (R33). -/
structure DfhRegs where
  rule : Word
  protoId : Word
  fhp : Word
  deriving DecidableEq, Repr

/-- The seven space packet registers (R34). -/
structure SpRegs where
  version : Word
  ptype : Word
  shFlag : Word
  apid : Word
  seqFlags : Word
  seqCount : Word
  dataLen : Word
  deriving DecidableEq, Repr

/-- The four bit-field operand registers (R35). -/
structure FldRegs where
  offset : Word
  width : Word
  valueLo : Word
  valueHi : Word
  deriving DecidableEq, Repr

/-- The nine error kinds a command can end with (R300, codes 1 to 9). -/
inductive ErrorKind where
  | fieldOverflow
  | range
  | truncatedData
  | lengthMismatch
  | underflow
  | configuration
  | versionMismatch
  | spareNonzero
  | illegalCommand
  deriving DecidableEq, Repr

/-- STATUS.CODE: OK or an error (R300). The reserved codes 10 to 15 are no value of this type (I4). -/
inductive StatusCode where
  | ok
  | err (e : ErrorKind)
  deriving DecidableEq, Repr

/-- STATUS (R24). BUSY and LOCKED are the engine's own bits, stored here once (R38, R39); bits 31:8 read as 0
and are not stored (I5). -/
structure Status where
  code : StatusCode
  busy : Bool
  done : Bool
  locked : Bool
  spareNz : Bool
  deriving DecidableEq, Repr

/-- The agents that can move next (R3, R80, R340): the engine, the host, and the platform's reset. -/
inductive Agent where
  | engine
  | host
  | reset
  deriving DecidableEq, Repr

/-- What one read of the host returned (R72, R73). -/
inductive Observation where
  | word (offset : Nat) (value : Word)
  | octet (offset : Nat) (value : Byte)
  deriving DecidableEq, Repr

/-- The state of the TFC (R20): its registers, its buffers and the engine's state; and, after them, the
model's own fields (assumption log 1, 2 and 4), which are no state of the spec's.

`mem` holds all eight buffers by block offset (R71), in the canonical form `Memory.wf`. -/
structure State where
  frameLen : Word
  payloadLen : Word
  ocfValid : Word
  dfhFhpPresent : Word
  cfg : CfgRegs
  hdr : HdrRegs
  dfh : DfhRegs
  sp : SpRegs
  fld : FldRegs
  /-- LATCHED and the CMD readback, one 32-bit word (R23, R38). -/
  latched : Word
  status : Status
  mem : List Host.Cell
  /-- MODEL. How many resets have been taken: the index of the draws unlisted octets read as. -/
  draws : Nat
  /-- MODEL. The window of R350: from a command's accept until a STATUS read that sees BUSY = 0. -/
  hazardWindow : Bool
  /-- MODEL. The host's accesses still to come, in program order (R80, R105). -/
  program : List HostOp
  /-- MODEL. Which agent moves next; empty means: the engine while BUSY = 1, else the host (R80, R355). -/
  schedule : List Agent
  /-- MODEL. What the host's reads have returned, oldest first. -/
  observed : List Observation
  deriving DecidableEq, Repr

/-- The state right after reset: every register and engine bit 0 (R40), no buffer octet written (R41), no
command accepted, no host program placed. -/
def State.reset : State where
  frameLen := 0
  payloadLen := 0
  ocfValid := 0
  dfhFhpPresent := 0
  cfg := ⟨0, 0, 0, 0, 0, 0, 0, 0, 0⟩
  hdr := ⟨0, 0, 0, 0, 0, 0, 0, 0, 0, 0, 0, 0, 0, 0⟩
  dfh := ⟨0, 0, 0⟩
  sp := ⟨0, 0, 0, 0, 0, 0, 0⟩
  fld := ⟨0, 0, 0, 0⟩
  latched := 0
  status := ⟨.ok, false, false, false, false⟩
  mem := []
  draws := 0
  hazardWindow := false
  program := []
  schedule := []
  observed := []

/-- The two model faults (R310). No command raises one: the engine never faults. -/
inductive Fault where
  /-- A host access of the wrong width, misaligned, or to an unmapped offset (R74), raised by `hostAccess`.
  Safe: the run stops where the hardware answers with an error response. -/
  | busError (offset width : Nat)
  /-- A host access other than a STATUS read in the window of R350, raised by `hostAccess`. Safe: the run stops
  where the hardware gives no defined value. -/
  | hostHazard (offset : Nat) (kind : AccessKind)
  deriving DecidableEq, Repr

/-- The reasons a step can be refused. The TFC has no refusals (R312). -/
inductive Refusal where
  /-- A command without a meaning, raised by a refused arm of `exec`: no arm is one. Safe: the run stops. -/
  | notModelled (mnemonic : String)
  deriving DecidableEq, Repr

/-- How a command's checks and commit come out, before completion (R14, R301): the state with its writes made
and its SPARE_NZ, or the error raised, with nothing written. -/
inductive Effect where
  | commit (s : State) (spareNz : Bool)
  | raise (e : ErrorKind)
  deriving DecidableEq, Repr

end Sys2Proof.Machine
end

