-- ==== Sys2Proof/Machine/Flags.lean ====
section
/-! DEFINITION. The flags of the TFC are the STATUS fields (R43): their encoding in STATUS (R24, R300), and the
two events that write them, accept (R23) and completion (R302). -/
namespace Sys2Proof.Machine

/-- The codes 1 to 9 of R300. -/
def ErrorKind.number : ErrorKind → Nat
  | .fieldOverflow => 1
  | .range => 2
  | .truncatedData => 3
  | .lengthMismatch => 4
  | .underflow => 5
  | .configuration => 6
  | .versionMismatch => 7
  | .spareNonzero => 8
  | .illegalCommand => 9

/-- CODE as a number (R300). -/
def StatusCode.number : StatusCode → Nat
  | .ok => 0
  | .err e => e.number

/-- STATUS as the host reads it: CODE in bits 3:0, BUSY 4, DONE 5, LOCKED 6, SPARE_NZ 7, the rest 0 (R24). -/
def Status.word (st : Status) : Word :=
  BitVec.ofNat 32 (st.code.number + 16 * st.busy.toNat + 32 * st.done.toNat + 64 * st.locked.toNat
    + 128 * st.spareNz.toNat)

/-- A command word is accepted: latched, BUSY set, DONE and CODE cleared; LOCKED and SPARE_NZ stay (R23, R24).
The hazard window of R350 opens. -/
def State.accept (s : State) (w : Word) : State :=
  { s with
    latched := w
    hazardWindow := true
    status := ⟨.ok, true, false, s.status.locked, s.status.spareNz⟩ }

/-- Completion of a command (R302): a commit ends with code OK and its own SPARE_NZ; an error keeps the whole
state of the accept but for STATUS (R303), and clears SPARE_NZ. -/
def complete (s : State) : Effect → State
  | .commit t nz => { t with status := ⟨.ok, false, true, t.status.locked, nz⟩ }
  | .raise e => { s with status := ⟨.err e, false, true, s.status.locked, false⟩ }

/-- The engine's step ends in completion whatever the checks said: a command never faults (R301, R310, R312). -/
def finish (s : State) (e : Effect) : Host.Outcome State Fault Refusal := .next (complete s e)

/-- The lock check, before any check of the command itself (R304). -/
def underLock (s : State) (e : Effect) : Effect := if s.status.locked then e else .raise .configuration

/-- A condition that raises an error when it holds, else the checks that follow it (R14, R305). -/
def raiseIf (b : Bool) (e : ErrorKind) (k : Effect) : Effect := if b then .raise e else k

end Sys2Proof.Machine
end

