-- ==== Sys2Proof/Machine/Operands.lean ====
section
/-! DEFINITION. The operands of the commands: 64-bit register pairs (R32, R35), the "fits" checks (R10, R31,
R33, R34), the derived lengths (R15, R113), and the legal configuration (R141). -/
namespace Sys2Proof.Machine

/-- "A value v fits in w bits iff v < 2^w" (R10), for a register used as an unsigned number (R103). -/
def fits (w : Nat) (v : Word) : Bool := decide (v.toNat < 2 ^ w)

/-- A 64-bit operand from its two registers (R103). -/
def pairValue (hi lo : Word) : Nat := hi.toNat * 2 ^ 32 + lo.toNat

/-- The low register of a 64-bit result (R32). -/
def pairLo (v : Nat) : Word := BitVec.ofNat 32 (v % 2 ^ 32)

/-- The high register of a 64-bit result (R32). -/
def pairHi (v : Nat) : Word := BitVec.ofNat 32 (v / 2 ^ 32)

/-- FCV, the VC frame count (R32). -/
def HdrRegs.fcv (h : HdrRegs) : Nat := pairValue h.fcValueHi h.fcValueLo

/-- FV, the bit-field value (R35). -/
def FldRegs.value (f : FldRegs) : Nat := pairValue f.valueHi f.valueLo

/-- FCW(sel): 32 bits in FIXED32 mode, `8 * sel` in VARIABLE mode (R15). A mode above 1 is no legal
configuration (R141) and counts as VARIABLE here (assumption log 10). -/
def CfgRegs.fcw (c : CfgRegs) (sel : Nat) : Nat := if c.fcMode = 0 then 32 else 8 * sel

/-- PHLEN(sel), the primary header length in octets (R15, R111). -/
def CfgRegs.phLen (c : CfgRegs) (sel : Nat) : Nat := 7 + c.fcw sel / 8

/-- PRESENT(rule): the first-header pointer is present (R15, R112). -/
def present (rule : Nat) : Bool := rule == 0 || rule == 1

/-- DFHLEN(rule), the data-field header length in octets (R15, R112). -/
def dfhLen (rule : Nat) : Nat := if present rule then 3 else 1

/-- DFLEN for a construction rule and a payload length (R113). -/
def dfLen (rule payload : Nat) : Nat := 22 + dfhLen rule + payload

/-- A condition as the value of a flag register (R27, R28). -/
def flagWord (b : Bool) : Word := if b then 1 else 0

/-- CfgLegal() (R141). -/
def CfgRegs.legal (c : CfgRegs) : Bool :=
  fits 4 c.version && fits 16 c.scid && fits 1 c.srcDst && fits 4 c.mapId && fits 16 c.izLen && fits 1 c.fecfEn
    && fits 1 c.fcMode && fits 1 c.strictSpare && fits 16 c.spShLen

/-- The per-frame fixed-position header registers fit: the ones TF_ENCODE takes from HDR_* (R230, R236). -/
def HdrRegs.perFrameFit (h : HdrRegs) : Bool :=
  fits 6 h.vcid && fits 1 h.endFlag && fits 1 h.bypass && fits 1 h.protoCmd && fits 2 h.spare && fits 1 h.ocfFlag
    && fits 3 h.fcLen

/-- All twelve fixed-position header registers fit (R31, R170). -/
def HdrRegs.fixedFit (h : HdrRegs) : Bool :=
  fits 4 h.tfvn && fits 16 h.scid && fits 1 h.srcDst && fits 4 h.mapId && fits 16 h.tfLength && h.perFrameFit

/-- The frame count fits the frame-count field (R32). -/
def HdrRegs.countFits (h : HdrRegs) (c : CfgRegs) : Bool := decide (h.fcv < 2 ^ c.fcw h.fcLen.toNat)

/-- The construction rule and the protocol identifier fit (R33). -/
def DfhRegs.selectorsFit (d : DfhRegs) : Bool := fits 3 d.rule && fits 5 d.protoId

/-- The first-header pointer fits, checked only where it is present (R33). -/
def DfhRegs.pointerFits (d : DfhRegs) : Bool := !present d.rule.toNat || fits 16 d.fhp

/-- The six packet header registers SP_ENCODE reads fit (R34, R260). -/
def SpRegs.fieldsFit (p : SpRegs) : Bool :=
  fits 3 p.version && fits 1 p.ptype && fits 1 p.shFlag && fits 11 p.apid && fits 2 p.seqFlags
    && fits 14 p.seqCount

/-- Does strict spare handling reject this spare field (R172)? -/
def CfgRegs.rejectsSpare (c : CfgRegs) (spare : Word) : Bool := spare != 0 && c.strictSpare == 1

/-- The secondary header length a packet with this flag has (R116, R262). -/
def CfgRegs.secHdrLen (c : CfgRegs) (shFlag : Word) : Nat := if shFlag = 1 then c.spShLen.toNat else 0

end Sys2Proof.Machine
end

