-- ==== Sys2Proof/Machine/Wire.lean ====
section
/-! DEFINITION. Octet sequences on the wire: bit numbering (R11), GetBits and PutBits (R12), big-endian pairs
(R13), and the placement of a list of fields (R153, R173). -/
namespace Sys2Proof.Machine

/-- Wire bit `k` of an octet sequence: bit `7 - k mod 8` of octet `k div 8` (R11). -/
def wireBit (s : List Byte) (k : Nat) : Bool := (s.getD (k / 8) 0).getLsbD (7 - k % 8)

/-- `GetBits(s, off, w)`: the number whose binary digits, most significant first, are the wire bits
`off .. off + w - 1` (R12). -/
def getBits (s : List Byte) (off : Nat) : Nat → Nat
  | 0 => 0
  | w + 1 => 2 * getBits s off w + (wireBit s (off + w)).toNat

/-- One octet with bit `i` set to `b`. -/
def setOctetBit (o : Byte) (i : Nat) (b : Bool) : Byte :=
  if b then o ||| BitVec.twoPow 8 i else o &&& ~~~(BitVec.twoPow 8 i)

/-- The sequence with wire bit `k` set to `b` and every other bit as before (R11). -/
def putBit (s : List Byte) (k : Nat) (b : Bool) : List Byte :=
  s.modify (k / 8) fun o => setOctetBit o (7 - k % 8) b

/-- `PutBits(s, off, w, v)`: wire bit `off + i` becomes bit `w - 1 - i` of `v`, all else stays (R12). -/
def putBits (s : List Byte) (off : Nat) : Nat → Nat → List Byte
  | 0, _ => s
  | w + 1, v => putBits (putBit s (off + w) (v.testBit 0)) off w (v / 2)

/-- `BE16(v)`: the two octets of a 16-bit number, high octet first (R13). -/
def be16 (v : Nat) : List Byte := [BitVec.ofNat 8 (v / 256), BitVec.ofNat 8 (v % 256)]

/-- One row of a wire layout with the value it is given: offset and width in wire bits (R110, R115). -/
structure Field where
  offset : Nat
  width : Nat
  value : Nat
  deriving DecidableEq, Repr

/-- Every row of a layout placed by PutBits, in order (R153, R173). -/
def placeFields (s : List Byte) : List Field → List Byte
  | [] => s
  | f :: fs => placeFields (putBits s f.offset f.width f.value) fs

end Sys2Proof.Machine
end

