-- ==== Sys2Proof/Machine/Ops.lean ====
section
/-! DEFINITION. The named operations over memory and registers: reading and storing octets of the buffers
(R13, R36, R41, R71), and reading and setting a register by name (R13, R22). -/
namespace Sys2Proof.Machine

/-- Memory: the octets written since reset, by block offset (R71). -/
abbrev Memory := List Host.Cell

/-- The octet listed at a block offset, if any. -/
def Memory.get? : Memory → Nat → Option Byte
  | [], _ => none
  | c :: m, a => if c.1 = a then some c.2 else Memory.get? m a

/-- Consecutive cells from a block offset on. -/
def cellsFrom : Nat → List Byte → Memory
  | _, [] => []
  | a, v :: vs => (a, v) :: cellsFrom (a + 1) vs

/-- The memory with consecutive octets written from a block offset on, every other octet as before (R13). -/
def Memory.writeBlock (m : Memory) (a : Nat) (vs : List Byte) : Memory :=
  m.filter (fun c => decide (c.1 < a)) ++ cellsFrom a vs ++ m.filter (fun c => decide (a + vs.length ≤ c.1))

/-- The canonical form: block offsets strictly rising, each in a buffer's window. An unlisted octet holds no
stored value: it reads as its reset draw (assumption log 1). -/
abbrev Memory.wf (m : Memory) : Prop :=
  m.Pairwise (fun c d => c.1 < d.1) ∧ ∀ c ∈ m, (bufAt c.1).isSome = true

/-- What the octet at a block offset reads as: the octet written there, or the reset draw (R41). -/
def State.byte (s : State) (a : Nat) : Byte :=
  match Memory.get? s.mem a with
  | some v => v
  | none => Config.resetDraw s.draws a

/-- `n` consecutive octets from a block offset on. -/
def State.bytes (s : State) (a : Nat) : Nat → List Byte
  | 0 => []
  | n + 1 => s.byte a :: State.bytes s (a + 1) n

/-- `BUF[i]` (R13, R71). -/
def State.octet (s : State) (b : Buf) (i : Nat) : Byte := s.byte (bufBase b + i)

/-- `MemRead(BUF, i, n)`, the octets `BUF[i..i+n)` (R13). -/
def State.octets (s : State) (b : Buf) (i n : Nat) : List Byte := s.bytes (bufBase b + i) n

/-- `MemWrite(BUF, i, len(vs), vs)` (R13). -/
def State.store (s : State) (b : Buf) (i : Nat) (vs : List Byte) : State :=
  { s with mem := Memory.writeBlock s.mem (bufBase b + i) vs }

/-- `R[NAME]`, the 32-bit value a read of the register returns (R13, R22). -/
def State.readReg (s : State) : Reg → Word
  | .cmd => s.latched
  | .status => s.status.word
  | .frameLen => s.frameLen
  | .payloadLen => s.payloadLen
  | .ocfValid => s.ocfValid
  | .dfhFhpPresent => s.dfhFhpPresent
  | .cfgVersion => s.cfg.version
  | .cfgScid => s.cfg.scid
  | .cfgSrcDst => s.cfg.srcDst
  | .cfgMapId => s.cfg.mapId
  | .cfgIzLen => s.cfg.izLen
  | .cfgFecfEn => s.cfg.fecfEn
  | .cfgFcMode => s.cfg.fcMode
  | .cfgStrictSpare => s.cfg.strictSpare
  | .cfgSpShLen => s.cfg.spShLen
  | .hdrTfvn => s.hdr.tfvn
  | .hdrScid => s.hdr.scid
  | .hdrSrcDst => s.hdr.srcDst
  | .hdrVcid => s.hdr.vcid
  | .hdrMapId => s.hdr.mapId
  | .hdrEndFlag => s.hdr.endFlag
  | .hdrTfLength => s.hdr.tfLength
  | .hdrBypass => s.hdr.bypass
  | .hdrProtoCmd => s.hdr.protoCmd
  | .hdrSpare => s.hdr.spare
  | .hdrOcfFlag => s.hdr.ocfFlag
  | .hdrFcLen => s.hdr.fcLen
  | .hdrFcValueLo => s.hdr.fcValueLo
  | .hdrFcValueHi => s.hdr.fcValueHi
  | .dfhRule => s.dfh.rule
  | .dfhProtoId => s.dfh.protoId
  | .dfhFhp => s.dfh.fhp
  | .spVersion => s.sp.version
  | .spType => s.sp.ptype
  | .spShFlag => s.sp.shFlag
  | .spApid => s.sp.apid
  | .spSeqFlags => s.sp.seqFlags
  | .spSeqCount => s.sp.seqCount
  | .spDataLen => s.sp.dataLen
  | .fldOffset => s.fld.offset
  | .fldWidth => s.fld.width
  | .fldValueLo => s.fld.valueLo
  | .fldValueHi => s.fld.valueHi

/-- `R[NAME] <- v` for a register that stores a written value verbatim (R13, R22). The two registers that no
value is stored into, CMD (a trigger) and STATUS (computed), are left as they are. -/
def State.setReg (s : State) (r : Reg) (v : Word) : State :=
  match r with
  | .cmd | .status => s
  | .frameLen => { s with frameLen := v }
  | .payloadLen => { s with payloadLen := v }
  | .ocfValid => { s with ocfValid := v }
  | .dfhFhpPresent => { s with dfhFhpPresent := v }
  | .cfgVersion => { s with cfg := { s.cfg with version := v } }
  | .cfgScid => { s with cfg := { s.cfg with scid := v } }
  | .cfgSrcDst => { s with cfg := { s.cfg with srcDst := v } }
  | .cfgMapId => { s with cfg := { s.cfg with mapId := v } }
  | .cfgIzLen => { s with cfg := { s.cfg with izLen := v } }
  | .cfgFecfEn => { s with cfg := { s.cfg with fecfEn := v } }
  | .cfgFcMode => { s with cfg := { s.cfg with fcMode := v } }
  | .cfgStrictSpare => { s with cfg := { s.cfg with strictSpare := v } }
  | .cfgSpShLen => { s with cfg := { s.cfg with spShLen := v } }
  | .hdrTfvn => { s with hdr := { s.hdr with tfvn := v } }
  | .hdrScid => { s with hdr := { s.hdr with scid := v } }
  | .hdrSrcDst => { s with hdr := { s.hdr with srcDst := v } }
  | .hdrVcid => { s with hdr := { s.hdr with vcid := v } }
  | .hdrMapId => { s with hdr := { s.hdr with mapId := v } }
  | .hdrEndFlag => { s with hdr := { s.hdr with endFlag := v } }
  | .hdrTfLength => { s with hdr := { s.hdr with tfLength := v } }
  | .hdrBypass => { s with hdr := { s.hdr with bypass := v } }
  | .hdrProtoCmd => { s with hdr := { s.hdr with protoCmd := v } }
  | .hdrSpare => { s with hdr := { s.hdr with spare := v } }
  | .hdrOcfFlag => { s with hdr := { s.hdr with ocfFlag := v } }
  | .hdrFcLen => { s with hdr := { s.hdr with fcLen := v } }
  | .hdrFcValueLo => { s with hdr := { s.hdr with fcValueLo := v } }
  | .hdrFcValueHi => { s with hdr := { s.hdr with fcValueHi := v } }
  | .dfhRule => { s with dfh := { s.dfh with rule := v } }
  | .dfhProtoId => { s with dfh := { s.dfh with protoId := v } }
  | .dfhFhp => { s with dfh := { s.dfh with fhp := v } }
  | .spVersion => { s with sp := { s.sp with version := v } }
  | .spType => { s with sp := { s.sp with ptype := v } }
  | .spShFlag => { s with sp := { s.sp with shFlag := v } }
  | .spApid => { s with sp := { s.sp with apid := v } }
  | .spSeqFlags => { s with sp := { s.sp with seqFlags := v } }
  | .spSeqCount => { s with sp := { s.sp with seqCount := v } }
  | .spDataLen => { s with sp := { s.sp with dataLen := v } }
  | .fldOffset => { s with fld := { s.fld with offset := v } }
  | .fldWidth => { s with fld := { s.fld with width := v } }
  | .fldValueLo => { s with fld := { s.fld with valueLo := v } }
  | .fldValueHi => { s with fld := { s.fld with valueHi := v } }

end Sys2Proof.Machine
end

