-- ==== Sys2Proof/Machine/BitField.lean ====
section
/-! DEFINITION. The bit-field packer and unpacker (41_bitfield.md). -/
namespace Sys2Proof.Machine

/-- The checks WRITE_FIELD and READ_FIELD share, in their order: width, FRAME_LEN, bounds (R150, R151, R306). -/
def checkFieldBounds (s : State) (k : Effect) : Effect :=
  raiseIf (decide (64 < s.fld.width.toNat)) .range <|
  raiseIf (decide (Config.frameSize < s.frameLen.toNat)) .range <|
  raiseIf (decide (8 * s.frameLen.toNat < s.fld.offset.toNat + s.fld.width.toNat)) .range k

/-- How many octets a field touches: none when its width is 0 (R150). -/
def fieldOctets (off w : Nat) : Nat := if w = 0 then 0 else (off + w + 7) / 8 - off / 8

/-- FRAME with `w` bits of `v` put at wire bit `off`. Only the octets the field touches, from octet `off div 8` on,
are rewritten: the rest of PutBits' result is what FRAME holds already (R12, R42, R150; assumption log 13). -/
def putFrameBits (s : State) (off w v : Nat) : State :=
  s.store .frame (off / 8) (putBits (s.octets .frame (off / 8) (fieldOctets off w)) (off % 8) w v)

/-- WRITE_FIELD's checks and commit (R150). -/
def writeFieldEffect (s : State) : Effect :=
  checkFieldBounds s <|
  raiseIf (decide (2 ^ s.fld.width.toNat ≤ s.fld.value)) .fieldOverflow <|
  .commit (putFrameBits s s.fld.offset.toNat s.fld.width.toNat s.fld.value) false

/-- READ_FIELD's checks and commit (R151). -/
def readFieldEffect (s : State) : Effect :=
  checkFieldBounds s <|
  let v := getBits (s.octets .frame 0 s.frameLen.toNat) s.fld.offset.toNat s.fld.width.toNat
  .commit { s with fld := { s.fld with valueLo := pairLo v, valueHi := pairHi v } } false

/-- WRITE_FIELD (R150). -/
def execWriteField (s : State) : Host.Outcome State Fault Refusal := finish s (underLock s (writeFieldEffect s))

/-- READ_FIELD (R151). -/
def execReadField (s : State) : Host.Outcome State Fault Refusal := finish s (underLock s (readFieldEffect s))

end Sys2Proof.Machine
end

