-- ==== Sys2Proof/Machine/Configuration.lean ====
section
/-! DEFINITION. The configuration command (40_configuration.md). -/
namespace Sys2Proof.Machine

/-- LOCK_CONFIG's checks and commit (R140, R141). It is exempt from the lock check (R304). -/
def lockConfigEffect (s : State) : Effect :=
  raiseIf s.status.locked .configuration <|
  raiseIf (!s.cfg.legal) .fieldOverflow <|
  .commit { s with status := { s.status with locked := true } } false

/-- LOCK_CONFIG (R140). -/
def execLockConfig (s : State) : Host.Outcome State Fault Refusal := finish s (lockConfigEffect s)

end Sys2Proof.Machine
end

