-- ==== Sys2Proof/Machine/DataField.lean ====
section
/-! DEFINITION. The data field codec (43_data_field.md). -/
namespace Sys2Proof.Machine

/-- PackDFH (R193): rule and protocol identifier in one octet, then the pointer where it is present. -/
def packDFH (d : DfhRegs) : List Byte :=
  BitVec.ofNat 8 (d.rule.toNat * 32 + d.protoId.toNat)
    :: (if present d.rule.toNat then be16 d.fhp.toNat else [])

/-- The octets of a data field: SECHDR, data-field header, payload, SECTRL (R113, R190). -/
def dataFieldOctets (s : State) : List Byte :=
  s.octets .sechdr 0 6 ++ packDFH s.dfh ++ s.octets .payload 0 s.payloadLen.toNat ++ s.octets .sectrl 0 16

/-- What ParseDF returns (R192). -/
structure DataField where
  secHdr : List Byte
  rule : Nat
  protoId : Nat
  fhp : Nat
  payload : List Byte
  secTrl : List Byte
  deriving DecidableEq, Repr

/-- ParseDF (R192) of a sequence of `n` octets; `none` is its TruncatedDataError. The construction rule is read
first and decides alone whether a pointer is present. -/
def parseDF (n : Nat) (b : List Byte) : Option DataField :=
  let rule := getBits b 48 3
  let d := dfhLen rule
  if n < 7 then none
  else if n < 22 + d then none
  else
    let p := n - 22 - d
    some
      { secHdr := b.take 6
        rule := rule
        protoId := getBits b 51 5
        fhp := if d = 3 then (b.getD 7 0).toNat * 256 + (b.getD 8 0).toNat else 0
        payload := (b.drop (6 + d)).take p
        secTrl := (b.drop (6 + d + p)).take 16 }

/-- The registers and buffers a parsed data field goes to (R191, R231): `P` octets of payload. -/
def storeDataField (s : State) (f : DataField) : State :=
  { ((s.store .sechdr 0 f.secHdr).store .payload 0 f.payload).store .sectrl 0 f.secTrl with
    dfh := ⟨BitVec.ofNat 32 f.rule, BitVec.ofNat 32 f.protoId, BitVec.ofNat 32 f.fhp⟩
    dfhFhpPresent := flagWord (present f.rule)
    payloadLen := BitVec.ofNat 32 f.payload.length }

/-- DF_ENCODE's checks and commit (R190). -/
def dfEncodeEffect (s : State) : Effect :=
  let n := dfLen s.dfh.rule.toNat s.payloadLen.toNat
  raiseIf (decide (Config.payloadSize < s.payloadLen.toNat)) .range <|
  raiseIf (!s.dfh.selectorsFit) .fieldOverflow <|
  raiseIf (!s.dfh.pointerFits) .fieldOverflow <|
  raiseIf (decide (Config.frameSize < n)) .range <|
  .commit
    { s.store .frame 0 (dataFieldOctets s) with
      frameLen := BitVec.ofNat 32 n
      dfhFhpPresent := flagWord (present s.dfh.rule.toNat) }
    false

/-- DF_DECODE's checks and commit (R191): the whole of `FRAME[0..FRAME_LEN)` is the data field. -/
def dfDecodeEffect (s : State) : Effect :=
  let n := s.frameLen.toNat
  raiseIf (decide (Config.frameSize < n)) .range <|
  match parseDF n (s.octets .frame 0 n) with
  | none => .raise .truncatedData
  | some f => .commit (storeDataField s f) false

/-- DF_ENCODE (R190). -/
def execDfEncode (s : State) : Host.Outcome State Fault Refusal := finish s (underLock s (dfEncodeEffect s))

/-- DF_DECODE (R191). -/
def execDfDecode (s : State) : Host.Outcome State Fault Refusal := finish s (underLock s (dfDecodeEffect s))

end Sys2Proof.Machine
end

