-- ==== Sys2Proof/Machine/PrimaryHeader.lean ====
section
/-! DEFINITION. The primary header codec (42_primary_header.md). -/
namespace Sys2Proof.Machine

/-- The rows of the primary header layout with the values of a header, the frame count last (R110). -/
def phFields (c : CfgRegs) (h : HdrRegs) : List Field :=
  [⟨0, 4, h.tfvn.toNat⟩, ⟨4, 16, h.scid.toNat⟩, ⟨20, 1, h.srcDst.toNat⟩, ⟨21, 6, h.vcid.toNat⟩,
   ⟨27, 4, h.mapId.toNat⟩, ⟨31, 1, h.endFlag.toNat⟩, ⟨32, 16, h.tfLength.toNat⟩, ⟨48, 1, h.bypass.toNat⟩,
   ⟨49, 1, h.protoCmd.toNat⟩, ⟨50, 2, h.spare.toNat⟩, ⟨52, 1, h.ocfFlag.toNat⟩, ⟨53, 3, h.fcLen.toNat⟩,
   ⟨56, c.fcw h.fcLen.toNat, h.fcv⟩]

/-- PackPH (R173). -/
def packPH (c : CfgRegs) (h : HdrRegs) : List Byte :=
  placeFields (List.replicate (c.phLen h.fcLen.toNat) 0) (phFields c h)

/-- A field of an octet sequence as the value of a register (R12, R31). -/
def fieldWord (s : List Byte) (off w : Nat) : Word := BitVec.ofNat 32 (getBits s off w)

/-- The length selector of a header, read first (R171, R192). -/
def selectorOf (s : List Byte) : Nat := getBits s 53 3

/-- UnpackPH (R173), the frame count split over its two registers (R32). -/
def unpackPH (c : CfgRegs) (s : List Byte) : HdrRegs where
  tfvn := fieldWord s 0 4
  scid := fieldWord s 4 16
  srcDst := fieldWord s 20 1
  vcid := fieldWord s 21 6
  mapId := fieldWord s 27 4
  endFlag := fieldWord s 31 1
  tfLength := fieldWord s 32 16
  bypass := fieldWord s 48 1
  protoCmd := fieldWord s 49 1
  spare := fieldWord s 50 2
  ocfFlag := fieldWord s 52 1
  fcLen := fieldWord s 53 3
  fcValueLo := pairLo (getBits s 56 (c.fcw (selectorOf s)))
  fcValueHi := pairHi (getBits s 56 (c.fcw (selectorOf s)))

/-- PH_ENCODE's checks and commit (R170, R172). -/
def phEncodeEffect (s : State) : Effect :=
  raiseIf (!s.hdr.fixedFit) .fieldOverflow <|
  raiseIf (!s.hdr.countFits s.cfg) .fieldOverflow <|
  raiseIf (s.hdr.tfvn != s.cfg.version) .versionMismatch <|
  raiseIf (s.cfg.rejectsSpare s.hdr.spare) .spareNonzero <|
  .commit
    { s.store .frame 0 (packPH s.cfg s.hdr) with
      frameLen := BitVec.ofNat 32 (s.cfg.phLen s.hdr.fcLen.toNat) }
    (s.hdr.spare != 0)

/-- The checks every decoder of a primary header makes on the `n` octets it is given, down to the spare field,
in the order of R306 (R171, R231). -/
def checkHeader (c : CfgRegs) (n : Nat) (b : List Byte) (k : Effect) : Effect :=
  raiseIf (decide (n < 7)) .truncatedData <|
  raiseIf (decide (n < c.phLen (selectorOf b))) .truncatedData <|
  raiseIf ((unpackPH c b).tfvn != c.version) .versionMismatch <|
  raiseIf (c.rejectsSpare (unpackPH c b).spare) .spareNonzero k

/-- PH_DECODE's checks and commit (R171, R172). Octets after the header are not looked at. -/
def phDecodeEffect (s : State) : Effect :=
  let n := s.frameLen.toNat
  let b := s.octets .frame 0 n
  raiseIf (decide (Config.frameSize < n)) .range <|
  checkHeader s.cfg n b <|
  .commit { s with hdr := unpackPH s.cfg b } ((unpackPH s.cfg b).spare != 0)

/-- PH_ENCODE (R170). -/
def execPhEncode (s : State) : Host.Outcome State Fault Refusal := finish s (underLock s (phEncodeEffect s))

/-- PH_DECODE (R171). -/
def execPhDecode (s : State) : Host.Outcome State Fault Refusal := finish s (underLock s (phDecodeEffect s))

end Sys2Proof.Machine
end

