-- ==== Sys2Proof/Machine/SpacePacket.lean ====
section
/-! DEFINITION. The space packet codec (46_space_packet.md). -/
namespace Sys2Proof.Machine

/-- The rows of the space packet header with the values of the registers and the length field (R115). -/
def spFields (p : SpRegs) (dataLen : Nat) : List Field :=
  [⟨0, 3, p.version.toNat⟩, ⟨3, 1, p.ptype.toNat⟩, ⟨4, 1, p.shFlag.toNat⟩, ⟨5, 11, p.apid.toNat⟩,
   ⟨16, 2, p.seqFlags.toNat⟩, ⟨18, 14, p.seqCount.toNat⟩, ⟨32, 16, dataLen⟩]

/-- The six header octets of a packet (R115, R260). -/
def packSP (p : SpRegs) (dataLen : Nat) : List Byte := placeFields (List.replicate 6 0) (spFields p dataLen)

/-- The seven fields of a packet header (R115, R261). -/
def unpackSP (b : List Byte) : SpRegs where
  version := BitVec.ofNat 32 (getBits b 0 3)
  ptype := BitVec.ofNat 32 (getBits b 3 1)
  shFlag := BitVec.ofNat 32 (getBits b 4 1)
  apid := BitVec.ofNat 32 (getBits b 5 11)
  seqFlags := BitVec.ofNat 32 (getBits b 16 2)
  seqCount := BitVec.ofNat 32 (getBits b 18 14)
  dataLen := BitVec.ofNat 32 (getBits b 32 16)

/-- m, the length of the packet data field SP_ENCODE assembles (R116, R260). -/
def packetDataLength (s : State) : Nat := s.cfg.secHdrLen s.sp.shFlag + s.payloadLen.toNat

/-- The packet SP_ENCODE writes: header, secondary header, payload (R116, R260). -/
def packetOctets (s : State) : List Byte :=
  packSP s.sp (packetDataLength s - 1) ++ s.octets .spsh 0 (s.cfg.secHdrLen s.sp.shFlag)
    ++ s.octets .payload 0 s.payloadLen.toNat

/-- SP_ENCODE's checks and commit (R260). -/
def spEncodeEffect (s : State) : Effect :=
  let m := packetDataLength s
  raiseIf (decide (Config.payloadSize < s.payloadLen.toNat)) .range <|
  raiseIf (!s.sp.fieldsFit) .fieldOverflow <|
  raiseIf (m == 0) .underflow <|
  raiseIf (decide (65535 < m - 1)) .fieldOverflow <|
  .commit
    { s.store .frame 0 (packetOctets s) with
      frameLen := BitVec.ofNat 32 (6 + m)
      sp := { s.sp with dataLen := BitVec.ofNat 32 (m - 1) } }
    false

/-- The registers and buffers a parsed packet goes to: `sl` octets of secondary header, `n` of payload (R261). -/
def storePacket (s : State) (b : List Byte) (sl n : Nat) : State :=
  { (s.store .spsh 0 ((b.drop 6).take sl)).store .payload 0 ((b.drop (6 + sl)).take n) with
    sp := unpackSP b
    payloadLen := BitVec.ofNat 32 n }

/-- SP_DECODE's checks and commit (R261). -/
def spDecodeEffect (s : State) : Effect :=
  let n := s.frameLen.toNat
  let b := s.octets .frame 0 n
  let need := 7 + (unpackSP b).dataLen.toNat
  let sl := s.cfg.secHdrLen (unpackSP b).shFlag
  raiseIf (decide (Config.frameSize < n)) .range <|
  raiseIf (decide (n < 6)) .truncatedData <|
  raiseIf (decide (n < need)) .truncatedData <|
  raiseIf (decide (need < n)) .lengthMismatch <|
  raiseIf (decide ((unpackSP b).dataLen.toNat + 1 < sl)) .underflow <|
  .commit (storePacket s b sl ((unpackSP b).dataLen.toNat + 1 - sl)) false

/-- SP_ENCODE (R260). -/
def execSpEncode (s : State) : Host.Outcome State Fault Refusal := finish s (underLock s (spEncodeEffect s))

/-- SP_DECODE (R261). -/
def execSpDecode (s : State) : Host.Outcome State Fault Refusal := finish s (underLock s (spDecodeEffect s))

end Sys2Proof.Machine
end

