-- ==== Sys2Proof/Machine/TransferFrame.lean ====
section
/-! DEFINITION. The transfer frame assembler and parser (45_transfer_frame.md) with the insert zone, OCF and
FECF handlers (44_regions.md). -/
namespace Sys2Proof.Machine

/-- L, the length of the frame TF_ENCODE assembles (R114, R230). -/
def frameLength (s : State) : Nat :=
  s.cfg.phLen s.hdr.fcLen.toNat + s.cfg.izLen.toNat + dfLen s.dfh.rule.toNat s.payloadLen.toNat
    + 4 * s.hdr.ocfFlag.toNat + 4 * s.cfg.fecfEn.toNat

/-- The header TF_ENCODE packs and leaves in HDR_*: version, SCID, source/destination and MAP ID from the
configuration, TFLength computed, the rest per frame (R230, R236). -/
def frameHeader (s : State) : HdrRegs :=
  { s.hdr with
    tfvn := s.cfg.version
    scid := s.cfg.scid
    srcDst := s.cfg.srcDst
    mapId := s.cfg.mapId
    tfLength := BitVec.ofNat 32 (frameLength s - 1) }

/-- `ocf_region` of an encode (R211). -/
def ocfRegion (s : State) : List Byte := if s.hdr.ocfFlag = 1 then s.octets .ocf 0 4 else []

/-- `body`: the frame octets before the FECF, the final TFLength among them (R214, R230, R232). -/
def frameBody (s : State) : List Byte :=
  packPH s.cfg (frameHeader s) ++ s.octets .iz 0 s.cfg.izLen.toNat ++ dataFieldOctets s ++ ocfRegion s

/-- The four octets the FECF collaborator answers (R215). -/
def fecfOf (body : List Byte) : List Byte :=
  let f := Config.computeFECF body
  [f[0], f[1], f[2], f[3]]

/-- The FECF of an encode: the collaborator's value with H = 1, else the FECF buffer's octets (R214). -/
def fecfRegion (s : State) (h : Bool) : List Byte := if h then fecfOf (frameBody s) else s.octets .fecf 0 4

/-- The frame TF_ENCODE writes (R114, R214). -/
def frameOctets (s : State) (h : Bool) : List Byte :=
  frameBody s ++ (if s.cfg.fecfEn = 1 then fecfRegion s h else [])

/-- The state with the FECF buffer written when H = 1 (R214, R230). -/
def storeHookValue (s : State) (h : Bool) (f : List Byte) : State := if h then s.store .fecf 0 f else s

/-- TF_ENCODE's checks and commit (R230), in the order of R306. -/
def tfEncodeEffect (h : Bool) (s : State) : Effect :=
  raiseIf (h && s.cfg.fecfEn == 0) .configuration <|
  raiseIf (decide (Config.payloadSize < s.payloadLen.toNat)) .range <|
  raiseIf (!(s.hdr.perFrameFit && fits 1 s.ocfValid)) .fieldOverflow <|
  raiseIf (!s.hdr.countFits s.cfg) .fieldOverflow <|
  raiseIf (!s.dfh.selectorsFit) .fieldOverflow <|
  raiseIf (!s.dfh.pointerFits) .fieldOverflow <|
  raiseIf (s.hdr.ocfFlag != s.ocfValid) .configuration <|
  raiseIf (s.cfg.rejectsSpare s.hdr.spare) .spareNonzero <|
  raiseIf (decide (65535 < frameLength s - 1)) .fieldOverflow <|
  .commit
    { storeHookValue (s.store .frame 0 (frameOctets s h)) h (fecfRegion s h) with
      frameLen := BitVec.ofNat 32 (frameLength s)
      hdr := frameHeader s
      dfhFhpPresent := flagWord (present s.dfh.rule.toNat) }
    (s.hdr.spare != 0)

/-- The octets of the fixed regions around the data field of a received frame with this header (R114, R231). -/
def overhead (c : CfgRegs) (h : HdrRegs) : Nat :=
  c.phLen h.fcLen.toNat + c.izLen.toNat + 4 * h.ocfFlag.toNat + 4 * c.fecfEn.toNat

/-- OCF on decode: copied when the flag is 1, untouched otherwise; `p` is the octet after the data field (R212). -/
def storeOcf (s : State) (h : HdrRegs) (b : List Byte) (p : Nat) : State :=
  if h.ocfFlag = 1 then s.store .ocf 0 ((b.drop p).take 4) else s

/-- FECF on decode: the last four octets when the mission has one, unverified (R217). -/
def storeFecf (s : State) (b : List Byte) (n : Nat) : State :=
  if s.cfg.fecfEn = 1 then s.store .fecf 0 ((b.drop (n - 4)).take 4) else s

/-- The registers and buffers a parsed frame goes to (R231): `b` is the frame, `dl` the length of its data field. -/
def storeFrame (s : State) (n : Nat) (b : List Byte) (dl : Nat) (f : DataField) : State :=
  let h := unpackPH s.cfg b
  let p := s.cfg.phLen (selectorOf b)
  let izl := s.cfg.izLen.toNat
  let withIz := s.store .iz 0 ((b.drop p).take izl)
  let withField := storeDataField withIz f
  let withOcf := storeOcf withField h b (p + izl + dl)
  { storeFecf withOcf b n with hdr := h, ocfValid := h.ocfFlag }

/-- TF_DECODE's checks and commit (R231), in the order of R306. The data field extends to the OCF, the FECF or
the end of the frame, whichever comes first (R114, R212, R217). -/
def tfDecodeEffect (s : State) : Effect :=
  let n := s.frameLen.toNat
  let b := s.octets .frame 0 n
  let h := unpackPH s.cfg b
  let dl := n - overhead s.cfg h
  raiseIf (decide (Config.frameSize < n)) .range <|
  checkHeader s.cfg n b <|
  raiseIf (h.tfLength.toNat + 1 != n) .lengthMismatch <|
  raiseIf (decide (n < overhead s.cfg h)) .underflow <|
  match parseDF dl ((b.drop (s.cfg.phLen (selectorOf b) + s.cfg.izLen.toNat)).take dl) with
  | none => .raise .truncatedData
  | some f => .commit (storeFrame s n b dl f) (h.spare != 0)

/-- TF_ENCODE, with the H bit of its command word (R230). -/
def execTfEncode (h : Bool) (s : State) : Host.Outcome State Fault Refusal :=
  finish s (underLock s (tfEncodeEffect h s))

/-- TF_DECODE (R231). -/
def execTfDecode (s : State) : Host.Outcome State Fault Refusal := finish s (underLock s (tfDecodeEffect s))

end Sys2Proof.Machine
end

