-- ==== Sys2Proof/Machine/Dispatch.lean ====
section
/-! DEFINITION. The meaning of each command, one arm per row of the opcode table (R102). -/
namespace Sys2Proof.Machine

def exec (i : Instr) (s : State) : Host.Outcome State Fault Refusal :=
  match i with
  | .lockConfig => Sys2Proof.Machine.execLockConfig s
  | .writeField => Sys2Proof.Machine.execWriteField s
  | .readField => Sys2Proof.Machine.execReadField s
  | .phEncode => Sys2Proof.Machine.execPhEncode s
  | .phDecode => Sys2Proof.Machine.execPhDecode s
  | .dfEncode => Sys2Proof.Machine.execDfEncode s
  | .dfDecode => Sys2Proof.Machine.execDfDecode s
  | .tfEncode h => Sys2Proof.Machine.execTfEncode h s
  | .tfDecode => Sys2Proof.Machine.execTfDecode s
  | .spEncode => Sys2Proof.Machine.execSpEncode s
  | .spDecode => Sys2Proof.Machine.execSpDecode s

end Sys2Proof.Machine
end

