-- ==== Sys2Proof/Machine/Engine.lean ====
section
/-! DEFINITION. The engine's turn (R301), the platform's reset (R340, R341), and whose turn it is (R80, R355). -/
namespace Sys2Proof.Machine

/-- The engine's step: while BUSY = 1 it decodes LATCHED and performs the command, or ends it with
IllegalCommandError (R101, R301); while BUSY = 0 it has no step and nothing changes (R301, R318). -/
def engineTurn (s : State) : Host.Outcome State Fault Refusal :=
  if s.status.busy then
    match decode s.latched with
    | .ok i => exec i s
    | .error _ => finish s (.raise .illegalCommand)
  else .next s

/-- Reset, also while a command is pending (R340, R341): every register and engine bit takes its reset value, and
every buffer octet a new draw (R41). What the host and the platform still have to do, and what the host has
seen, are no state of the TFC and stay (assumption log 7). -/
def resetEvent (s : State) : State :=
  { State.reset with
    draws := s.draws + 1
    program := s.program
    schedule := s.schedule
    observed := s.observed }

/-- Whose turn it is: what the schedule says, and once it has run out the engine while BUSY = 1, so that every
accepted command completes (R80, R355). -/
def State.mover (s : State) : Agent :=
  match s.schedule with
  | a :: _ => a
  | [] => if s.status.busy then .engine else .host

/-- The state with the schedule's first entry used up. -/
def State.advanceSchedule (s : State) : State := { s with schedule := s.schedule.tail }

end Sys2Proof.Machine
end

