-- ==== Sys2Proof/Machine/HostPort.lean ====
section
/-! DEFINITION. The host's accesses to registers and buffer windows (20_memory.md) and the hazard window of a
pending command (R350). -/
namespace Sys2Proof.Machine

/-- The access classes of R22. -/
inductive AccessClass where
  | rw | cfg | ro | cmd
  deriving DecidableEq, Repr

/-- The class of each register (R22 to R35). -/
def regClass : Reg → AccessClass
  | .cmd => .cmd
  | .status | .dfhFhpPresent | .spDataLen => .ro
  | .cfgVersion | .cfgScid | .cfgSrcDst | .cfgMapId | .cfgIzLen | .cfgFecfEn | .cfgFcMode | .cfgStrictSpare
  | .cfgSpShLen => .cfg
  | .frameLen | .payloadLen | .ocfValid => .rw
  | .hdrTfvn | .hdrScid | .hdrSrcDst | .hdrVcid | .hdrMapId | .hdrEndFlag | .hdrTfLength | .hdrBypass
  | .hdrProtoCmd | .hdrSpare | .hdrOcfFlag | .hdrFcLen | .hdrFcValueLo | .hdrFcValueHi => .rw
  | .dfhRule | .dfhProtoId | .dfhFhp => .rw
  | .spVersion | .spType | .spShFlag | .spApid | .spSeqFlags | .spSeqCount => .rw
  | .fldOffset | .fldWidth | .fldValueLo | .fldValueHi => .rw

/-- A host write of a register: the effect of its class (R22, R23, R30). -/
def hostWriteReg (s : State) (r : Reg) (v : Word) : State :=
  match regClass r with
  | .rw => s.setReg r v
  | .cfg => if s.status.locked then s else s.setReg r v
  | .ro => s
  | .cmd => s.accept v

/-- What a host read returns, or the bus error it ends in: registers whole at their own offset (R72), buffers one
octet at a time (R73), anything else illegal (R74). -/
def hostRead (s : State) (offset width : Nat) : Except Fault Observation :=
  match regAt offset, bufAt offset with
  | some r, _ => if width = 32 then .ok (.word offset (s.readReg r)) else .error (.busError offset width)
  | none, some _ => if width = 8 then .ok (.octet offset (s.byte offset)) else .error (.busError offset width)
  | none, none => .error (.busError offset width)

/-- The state after a host write, or the bus error it ends in (R72 to R74). -/
def hostWrite (s : State) (offset width : Nat) (v : BitVec width) : Except Fault State :=
  match regAt offset, bufAt offset with
  | some r, _ => if width = 32 then .ok (hostWriteReg s r (v.setWidth 32)) else .error (.busError offset width)
  | none, some _ =>
    if width = 8 then .ok { s with mem := Memory.writeBlock s.mem offset [v.setWidth 8] }
    else .error (.busError offset width)
  | none, none => .error (.busError offset width)

/-- The block offset of an access. -/
def accessOffset : Access → Nat
  | .read o _ => o
  | .write o _ _ => o

/-- The kind of an access, as HostHazard records it (R310). -/
def accessKind : Access → AccessKind
  | .read _ _ => .read
  | .write _ _ _ => .write

/-- A read of STATUS: a legal read at its offset (R72). -/
def statusRead : Access := .read (regOffset .status) 32

/-- Is this access forbidden now: anything but a STATUS read, from the accept of a command until a STATUS read has
seen BUSY = 0 (R350; assumption log 4 and 5)? -/
def hazardous (s : State) (a : Access) : Bool := (s.hazardWindow || s.status.busy) && a != statusRead

/-- One host access (R72 to R75, R310, R350). A read changes nothing but what the host has seen; a STATUS read that
sees BUSY = 0 closes the hazard window. -/
def hostAccess (s : State) (a : Access) : Host.Outcome State Fault Refusal :=
  if hazardous s a then .fault (.hostHazard (accessOffset a) (accessKind a))
  else
    match a with
    | .read o w =>
      match hostRead s o w with
      | .ok ob => .next { s with observed := s.observed ++ [ob], hazardWindow := s.status.busy }
      | .error f => .fault f
    | .write o w v =>
      match hostWrite s o w v with
      | .ok t => .next t
      | .error f => .fault f

/-- `wait` goes on with the program once its STATUS read returns BUSY = 0 and DONE = 1 (R106). -/
def waitDone (s : State) : Bool := !s.status.busy && s.status.done

/-- The host's turn: the next access of its program in program order (R80), `wait` being one STATUS read a turn
until it is done (R106). With its program at an end the host does nothing (R345). -/
def hostTurn (s : State) : Host.Outcome State Fault Refusal :=
  match s.program with
  | [] => .next s
  | .access a :: rest => hostAccess { s with program := rest } a
  | .wait :: rest => hostAccess (if waitDone s then { s with program := rest } else s) statusRead

end Sys2Proof.Machine
end

