-- ==== Sys2Proof/Machine/HostProgram.lean ====
section
/-! DEFINITION. The host program lines (R105) and pseudo-instructions (R106) as the accesses they expand to. -/
namespace Sys2Proof.Machine

/-- `wr REG, v` (R105). -/
def writeRegOp (r : Reg) (v : Word) : HostOp := .access (.write (regOffset r) 32 v)

/-- `wb BUF[i], v` (R105). -/
def writeOctetOp (b : Buf) (i : Nat) (v : Byte) : HostOp := .access (.write (bufBase b + i) 8 v)

/-- `wbs BUF[i], v0 v1 …` (R106). -/
def writeOctetsOps (b : Buf) : Nat → List Byte → List HostOp
  | _, [] => []
  | i, v :: vs => writeOctetOp b i v :: writeOctetsOps b (i + 1) vs

/-- `rbs BUF[i], n` (R106). -/
def readOctetsOps (b : Buf) : Nat → Nat → List HostOp
  | _, 0 => []
  | i, n + 1 => .access (.read (bufBase b + i) 8) :: readOctetsOps b (i + 1) n

/-- The two registers of a 64-bit operand, LO then HI (R106). -/
def pairRegs : RegPair → Reg × Reg
  | .hdrFcValue => (.hdrFcValueLo, .hdrFcValueHi)
  | .fldValue => (.fldValueLo, .fldValueHi)

/-- The accesses and `wait` loops of one line, and no others (R105, R106). -/
def expandLine : HostLine → List HostOp
  | .wr r v => [writeRegOp r v]
  | .rd r => [.access (.read (regOffset r) 32)]
  | .wb b i v => [writeOctetOp b i v]
  | .rb b i => [.access (.read (bufBase b + i) 8)]
  | .cmd c => [writeRegOp .cmd (encode c)]
  | .wait => [.wait]
  | .exec c => [writeRegOp .cmd (encode c), .wait]
  | .wr64 p v => [writeRegOp (pairRegs p).1 (v.extractLsb' 0 32), writeRegOp (pairRegs p).2 (v.extractLsb' 32 32)]
  | .wbs b i vs => writeOctetsOps b i vs
  | .rbs b i n => readOctetsOps b i n

/-- A host program: its lines' expansions in order (R105). -/
def expandProgram : List HostLine → List HostOp
  | [] => []
  | l :: ls => expandLine l ++ expandProgram ls

end Sys2Proof.Machine
end

