-- ==== Sys2Proof/Machine/Step.lean ====
section
/-! DEFINITION. One step of the system: one move of the engine, the host or the platform (R80). -/
namespace Sys2Proof.Machine

/-- One step: the agent whose turn it is moves, and the schedule advances (R80). -/
def step (s : State) : Host.Outcome State Fault Refusal :=
  match s.mover with
  | .engine => engineTurn s.advanceSchedule
  | .host => hostTurn s.advanceSchedule
  | .reset => .next (resetEvent s.advanceSchedule)

/-- The state in which the command word `w` has just been accepted and the engine has the next turn: the TFC
fetches nothing (R84), a word comes to run by the host's write to CMD (R23). The word has `nbits` = 32 bits;
any above are none of it (assumption log 3). -/
def State.withFetchWord (s : State) (nbits w : Nat) : State :=
  let t := s.accept (BitVec.ofNat 32 (w % 2 ^ nbits))
  { t with schedule := .engine :: s.schedule }

end Sys2Proof.Machine
end

