-- ==== Sys2Proof/Safety.lean ====
section
/-! DEFINITION. The terms in which statements are made: the invariant of the machine, the end of a run (R345), and
the read and write sets of the commands (R42). -/
namespace Sys2Proof.Machine

/-- What holds in every state a run reaches: memory is canonical; a locked configuration is legal (R141, R142); a
pending command has its window open and STATUS as the accept left it (R23, R350); DFH_FHP_PRESENT is a flag (R28);
SP_DATA_LEN is a 16-bit length (R34); SPARE_NZ is set only under a locked, lenient configuration (R24, R172); and a
completed command that succeeded leaves the configuration locked (R304). -/
abbrev State.Inv (s : State) : Prop :=
  Memory.wf s.mem
  ∧ (s.status.locked = true → s.cfg.legal = true)
  ∧ (s.status.busy = true → s.hazardWindow = true ∧ s.status.done = false ∧ s.status.code = .ok)
  ∧ (s.dfhFhpPresent = 0 ∨ s.dfhFhpPresent = 1)
  ∧ s.sp.dataLen.toNat < 65536
  ∧ (s.status.spareNz = true → s.status.locked = true ∧ s.cfg.strictSpare = 0)
  ∧ (s.status.done = true ∧ s.status.code = .ok → s.status.locked = true)

/-- A run is over when the host has made its last access and no command is pending; a run that ended in a fault has
no such state (R345). -/
def State.runOver (s : State) : Bool := s.program.isEmpty && !s.status.busy

/-- Consecutive octets of one buffer: `BUF[first .. first + count)`. -/
structure Block where
  buf : Buf
  first : Nat
  count : Nat
  deriving DecidableEq, Repr

/-- Does a block hold this block offset (R71)? -/
def Block.covers (k : Block) (a : Nat) : Bool :=
  decide (bufBase k.buf + k.first ≤ a) && decide (a < bufBase k.buf + k.first + k.count)

/-- Is this block offset in one of the blocks? -/
def anyCovers (ks : List Block) (a : Nat) : Bool := ks.any fun k => k.covers a

/-- The fourteen header registers (R31), "HDR (all)" of R42. -/
def hdrRegs : List Reg :=
  [.hdrTfvn, .hdrScid, .hdrSrcDst, .hdrVcid, .hdrMapId, .hdrEndFlag, .hdrTfLength, .hdrBypass, .hdrProtoCmd,
   .hdrSpare, .hdrOcfFlag, .hdrFcLen, .hdrFcValueLo, .hdrFcValueHi]

/-- The nine configuration registers (R29). -/
def cfgRegs : List Reg :=
  [.cfgVersion, .cfgScid, .cfgSrcDst, .cfgMapId, .cfgIzLen, .cfgFecfEn, .cfgFcMode, .cfgStrictSpare, .cfgSpShLen]

/-- The registers a command writes on success, besides STATUS (R42). -/
def writtenRegs : Instr → List Reg
  | .lockConfig => []
  | .writeField => []
  | .readField => [.fldValueLo, .fldValueHi]
  | .phEncode => [.frameLen]
  | .phDecode => hdrRegs
  | .dfEncode => [.frameLen, .dfhFhpPresent]
  | .dfDecode => [.dfhRule, .dfhProtoId, .dfhFhp, .dfhFhpPresent, .payloadLen]
  | .tfEncode _ => [.frameLen, .hdrTfvn, .hdrScid, .hdrSrcDst, .hdrMapId, .hdrTfLength, .dfhFhpPresent]
  | .tfDecode => hdrRegs ++ [.dfhRule, .dfhProtoId, .dfhFhp, .dfhFhpPresent, .payloadLen, .ocfValid]
  | .spEncode => [.frameLen, .spDataLen]
  | .spDecode =>
    [.spVersion, .spType, .spShFlag, .spApid, .spSeqFlags, .spSeqCount, .spDataLen, .payloadLen]

/-- The payload octets ParseDF finds in a data field of `n` octets (R192). -/
def parsedPayloadLength (n : Nat) (b : List Byte) : Nat := n - 22 - dfhLen (getBits b 48 3)

/-- FRAME[0..FRAME_LEN), the input of every decoder (R25). -/
def inputFrame (s : State) : List Byte := s.octets .frame 0 s.frameLen.toNat

/-- The length of the data field of a received frame (R231 `dl`). -/
def inputFieldLength (s : State) : Nat := s.frameLen.toNat - overhead s.cfg (unpackPH s.cfg (inputFrame s))

/-- The data field of a received frame (R114, R231). -/
def inputField (s : State) : List Byte :=
  ((inputFrame s).drop (s.cfg.phLen (selectorOf (inputFrame s)) + s.cfg.izLen.toNat)).take (inputFieldLength s)

/-- The octets a command stores on success, as blocks of buffers, from the state it starts in (R42): the addresses
are computed by the functions the meanings use. -/
def writtenBlocks (i : Instr) (s : State) : List Block :=
  match i with
  | .lockConfig | .readField | .phDecode => []
  | .writeField =>
    [⟨.frame, s.fld.offset.toNat / 8, fieldOctets s.fld.offset.toNat s.fld.width.toNat⟩]
  | .phEncode => [⟨.frame, 0, s.cfg.phLen s.hdr.fcLen.toNat⟩]
  | .dfEncode => [⟨.frame, 0, dfLen s.dfh.rule.toNat s.payloadLen.toNat⟩]
  | .dfDecode =>
    [⟨.sechdr, 0, 6⟩, ⟨.payload, 0, parsedPayloadLength s.frameLen.toNat (inputFrame s)⟩, ⟨.sectrl, 0, 16⟩]
  | .tfEncode h => ⟨.frame, 0, frameLength s⟩ :: (if h then [⟨.fecf, 0, 4⟩] else [])
  | .tfDecode =>
    [⟨.iz, 0, s.cfg.izLen.toNat⟩, ⟨.sechdr, 0, 6⟩,
     ⟨.payload, 0, parsedPayloadLength (inputFieldLength s) (inputField s)⟩, ⟨.sectrl, 0, 16⟩]
      ++ (if (unpackPH s.cfg (inputFrame s)).ocfFlag = 1 then [⟨.ocf, 0, 4⟩] else [])
      ++ (if s.cfg.fecfEn = 1 then [⟨.fecf, 0, 4⟩] else [])
  | .spEncode => [⟨.frame, 0, 6 + packetDataLength s⟩]
  | .spDecode =>
    [⟨.spsh, 0, s.cfg.secHdrLen (unpackSP (inputFrame s)).shFlag⟩,
     ⟨.payload, 0, (unpackSP (inputFrame s)).dataLen.toNat + 1 - s.cfg.secHdrLen (unpackSP (inputFrame s)).shFlag⟩]

/-- The registers a command reads, besides LOCKED and LATCHED (R42). -/
def readRegs : Instr → List Reg
  | .lockConfig => cfgRegs
  | .writeField => [.fldOffset, .fldWidth, .fldValueLo, .fldValueHi, .frameLen]
  | .readField => [.fldOffset, .fldWidth, .frameLen]
  | .phEncode => hdrRegs ++ [.cfgVersion, .cfgFcMode, .cfgStrictSpare]
  | .phDecode => [.frameLen, .cfgVersion, .cfgFcMode, .cfgStrictSpare]
  | .dfEncode => [.dfhRule, .dfhProtoId, .dfhFhp, .payloadLen]
  | .dfDecode => [.frameLen]
  | .tfEncode _ =>
    [.cfgVersion, .cfgScid, .cfgSrcDst, .cfgMapId, .cfgIzLen, .cfgFecfEn, .cfgFcMode, .cfgStrictSpare] ++
    [.hdrVcid, .hdrEndFlag, .hdrBypass, .hdrProtoCmd, .hdrSpare, .hdrOcfFlag, .hdrFcLen, .hdrFcValueLo,
     .hdrFcValueHi] ++
    [.dfhRule, .dfhProtoId, .dfhFhp, .payloadLen, .ocfValid]
  | .tfDecode => [.cfgVersion, .cfgIzLen, .cfgFecfEn, .cfgFcMode, .cfgStrictSpare, .frameLen]
  | .spEncode =>
    [.spVersion, .spType, .spShFlag, .spApid, .spSeqFlags, .spSeqCount, .cfgSpShLen, .payloadLen]
  | .spDecode => [.frameLen, .cfgSpShLen]

/-- The buffers a command reads (R42). -/
def readBufs : Instr → List Buf
  | .lockConfig | .phEncode => []
  | .writeField | .readField | .phDecode | .dfDecode | .tfDecode | .spDecode => [.frame]
  | .dfEncode => [.sechdr, .payload, .sectrl]
  | .tfEncode _ => [.iz, .sechdr, .payload, .sectrl, .ocf, .fecf]
  | .spEncode => [.spsh, .payload]

/-- The host program is only waiting: STATUS reads and `wait` loops are all that is left of it (R344). -/
def onlyWaiting (p : List HostOp) : Bool :=
  p.all fun
    | .access a => a == statusRead
    | .wait => true

/-! ## Vocabulary of the statements -/

/-- The state a command leaves when a check of it fails: only STATUS differs (R302, R303). -/
def State.failed (s : State) (e : ErrorKind) : State :=
  { s with status := ⟨.err e, false, true, s.status.locked, false⟩ }

/-- STATUS after a command that succeeded under the lock (R302). -/
def okStatus (spareNz : Bool) : Status := ⟨.ok, false, true, true, spareNz⟩

/-- The frame of a command: every register but the listed ones and STATUS reads as before, every octet outside the
listed blocks reads as before, and nothing else in the state has changed. -/
def keepsAllBut (regs : List Reg) (blocks : List Block) (s t : State) : Prop :=
  (∀ r, r ∉ regs → r ≠ .status → t.readReg r = s.readReg r)
  ∧ (∀ a, anyCovers blocks a = false → t.byte a = s.byte a)
  ∧ t.draws = s.draws ∧ t.hazardWindow = s.hazardWindow
  ∧ t.program = s.program ∧ t.schedule = s.schedule ∧ t.observed = s.observed

/-- What `t` has put into FRAME stands in `v`: FRAME_LEN, FRAME[0..FRAME_LEN) and the lock are those of `t`. Every other
register and octet of `v` is its own, so a decoder that runs on `v` has nothing else from `t` to answer with. -/
abbrev State.holdsFrameOf (v t : State) : Prop :=
  v.status.locked = t.status.locked ∧ v.frameLen = t.frameLen ∧ inputFrame v = inputFrame t

/-- No command is pending and no hazard window is open: the host may make any access (R350). -/
abbrev State.idle (s : State) : Prop := s.status.busy = false ∧ s.hazardWindow = false

/-- The bounds of R31 on the seven per-frame header registers, as numbers. -/
abbrev perFrameBounds (h : HdrRegs) : Prop :=
  h.vcid.toNat ≤ 63 ∧ h.endFlag.toNat ≤ 1 ∧ h.bypass.toNat ≤ 1 ∧ h.protoCmd.toNat ≤ 1 ∧ h.spare.toNat ≤ 3
  ∧ h.ocfFlag.toNat ≤ 1 ∧ h.fcLen.toNat ≤ 7

/-- The bounds of R31 on the twelve fixed-position header registers, as numbers. -/
abbrev headerBounds (h : HdrRegs) : Prop :=
  h.tfvn.toNat ≤ 15 ∧ h.scid.toNat ≤ 65535 ∧ h.srcDst.toNat ≤ 1 ∧ h.mapId.toNat ≤ 15 ∧ h.tfLength.toNat ≤ 65535
  ∧ perFrameBounds h

/-- The bounds of R34 on the six packet header registers a host supplies, as numbers. -/
abbrev packetBounds (p : SpRegs) : Prop :=
  p.version.toNat ≤ 7 ∧ p.ptype.toNat ≤ 1 ∧ p.shFlag.toNat ≤ 1 ∧ p.apid.toNat ≤ 2047 ∧ p.seqFlags.toNat ≤ 3
  ∧ p.seqCount.toNat ≤ 16383

/-- The bounds of R33 on the data-field header registers, the pointer's only where it is present. -/
abbrev dfhBounds (d : DfhRegs) : Prop :=
  d.rule.toNat ≤ 7 ∧ d.protoId.toNat ≤ 31 ∧ (d.rule.toNat ≤ 1 → d.fhp.toNat ≤ 65535)

/-- The ranges of R141, as numbers. -/
abbrev legalRanges (c : CfgRegs) : Prop :=
  c.version.toNat ≤ 15 ∧ c.scid.toNat ≤ 65535 ∧ c.srcDst.toNat ≤ 1 ∧ c.mapId.toNat ≤ 15 ∧ c.izLen.toNat ≤ 65535
  ∧ c.fecfEn.toNat ≤ 1 ∧ c.fcMode.toNat ≤ 1 ∧ c.strictSpare.toNat ≤ 1 ∧ c.spShLen.toNat ≤ 65535

/-- The frame count is below 2^32 in FIXED32 mode, and fits `8 * HDR_FC_LEN` bits in VARIABLE mode (R32). -/
abbrev countBound (c : CfgRegs) (h : HdrRegs) : Prop :=
  (c.fcMode.toNat = 0 → h.fcv < 2 ^ 32) ∧ (c.fcMode.toNat = 1 → h.fcv < 2 ^ (8 * h.fcLen.toNat))

/-- Strict mode meets a nonzero spare field (R172). -/
abbrev strictSpareHit (c : CfgRegs) (spare : Word) : Prop := spare.toNat ≠ 0 ∧ c.strictSpare.toNat = 1

/-- The thirteen wire fields of a primary header at the start of `b` are these registers, each read at its place in
the layout (R110). -/
abbrev headerOnWire (c : CfgRegs) (b : List Byte) (h : HdrRegs) : Prop :=
  getBits b 0 4 = h.tfvn.toNat ∧ getBits b 4 16 = h.scid.toNat ∧ getBits b 20 1 = h.srcDst.toNat
  ∧ getBits b 21 6 = h.vcid.toNat ∧ getBits b 27 4 = h.mapId.toNat ∧ getBits b 31 1 = h.endFlag.toNat
  ∧ getBits b 32 16 = h.tfLength.toNat ∧ getBits b 48 1 = h.bypass.toNat ∧ getBits b 49 1 = h.protoCmd.toNat
  ∧ getBits b 50 2 = h.spare.toNat ∧ getBits b 52 1 = h.ocfFlag.toNat ∧ getBits b 53 3 = h.fcLen.toNat
  ∧ getBits b 56 (if c.fcMode.toNat = 0 then 32 else 8 * h.fcLen.toNat) = h.fcv

/-- The octets of a data-field header (R112, R193). -/
abbrev dfhOnWire (d : DfhRegs) (b : List Byte) : Prop :=
  (b.getD 0 0).toNat = d.rule.toNat * 32 + d.protoId.toNat
  ∧ (d.rule.toNat ≤ 1 → (b.getD 1 0).toNat * 256 + (b.getD 2 0).toNat = d.fhp.toNat)

/-- What the seven fields of a packet header at the start of `b` read as (R115). -/
abbrev packetOnWire (b : List Byte) (p : SpRegs) : Prop :=
  getBits b 0 3 = p.version.toNat ∧ getBits b 3 1 = p.ptype.toNat ∧ getBits b 4 1 = p.shFlag.toNat
  ∧ getBits b 5 11 = p.apid.toNat ∧ getBits b 16 2 = p.seqFlags.toNat ∧ getBits b 18 14 = p.seqCount.toNat
  ∧ getBits b 32 16 = p.dataLen.toNat

/-- The number of octets in a frame TF_ENCODE assembles, from the layout R114 alone. -/
def layoutLength (s : State) : Nat :=
  (if s.cfg.fcMode.toNat = 0 then 11 else 7 + s.hdr.fcLen.toNat) + s.cfg.izLen.toNat
    + (22 + (if s.dfh.rule.toNat ≤ 1 then 3 else 1) + s.payloadLen.toNat) + 4 * s.hdr.ocfFlag.toNat
    + 4 * s.cfg.fecfEn.toNat

/-- Everything TF_ENCODE checks passes, but for the frame length (R230, R306). -/
abbrev frameInputsGood (h : Bool) (s : State) : Prop :=
  s.status.locked = true ∧ legalRanges s.cfg ∧ (h = true → s.cfg.fecfEn.toNat = 1) ∧ s.payloadLen.toNat ≤ 131072
  ∧ perFrameBounds s.hdr ∧ s.ocfValid = s.hdr.ocfFlag ∧ countBound s.cfg s.hdr ∧ dfhBounds s.dfh
  ∧ ¬ strictSpareHit s.cfg s.hdr.spare

end Sys2Proof.Machine
end

