-- ==== Sys2Proof/Certificates/Slice0/Obligations.lean ====
section
/-! DEFINITION. The statements for the provers, each from the numbered rules its docstring cites. -/
open Sys2Proof Sys2Proof.Machine

/-! ## The command word -/

/-- R102: words of the opcode map decode to their commands, and three words off it are rejected by name (R104). -/
def Obligations.DecodeSampleWords : Prop :=
  decode 0x00000001 = .ok .lockConfig ∧ decode 0x00000002 = .ok .writeField ∧ decode 0x00000011 = .ok .phDecode
  ∧ decode 0x00000020 = .ok .dfEncode ∧ decode 0x00000030 = .ok (.tfEncode false)
  ∧ decode 0x00000130 = .ok (.tfEncode true) ∧ decode 0x00000041 = .ok .spDecode
  ∧ decode 0x00000012 = .error .unknownOpcode ∧ decode 0x00000210 = .error .reservedBitsSet
  ∧ decode 0x00000102 = .error .hookOnOtherCommand

/-- R100 to R102: of all 2^32 words, exactly the encoding of a command decodes to it. -/
def Obligations.DecodeExactlyEncodedWords : Prop :=
  ∀ (w : Word) (i : Instr), decode w = .ok i ↔ w = encode i

/-- R101, R102: a word decodes to some command exactly when a row of the opcode map matches it under its mask, and
then one row only. -/
def Obligations.DecodeFollowsOpcodeMap : Prop :=
  ∀ w : Word,
    ((∃ i, decode w = .ok i) ↔ ∃ row ∈ opcodeTable, w &&& row.mask = row.pattern)
    ∧ ∀ row ∈ opcodeTable, ∀ row' ∈ opcodeTable,
        w &&& row.mask = row.pattern → w &&& row'.mask = row'.pattern → row = row'

/-- R104: an OPCODE outside the map, RSV ≠ 0, or H = 1 with another OPCODE than 0x30 raises IllegalCommandError and
changes nothing but STATUS; every other word is a command. -/
def Obligations.IllegalWordsRaiseIllegalCommand : Prop :=
  ∀ s : State, s.status.busy = true →
    let op := s.latched.toNat % 256
    let h := s.latched.toNat / 256 % 2
    let rsv := s.latched.toNat / 512
    let illegal := op ∉ [0x01, 0x02, 0x03, 0x10, 0x11, 0x20, 0x21, 0x30, 0x31, 0x40, 0x41] ∨ rsv ≠ 0 ∨ (h = 1 ∧ op ≠ 0x30)
    (illegal → engineTurn s = .next (s.failed .illegalCommand))
    ∧ (¬ illegal → ∃ i, decode s.latched = .ok i ∧ engineTurn s = exec i s)

/-! ## Steps, completion and STATUS -/

/-- R301: when it is the engine's turn and a command is pending, the step performs LATCHED; with none pending nothing
but the schedule changes (log entry 8). -/
def Obligations.StepPerformsLatchedCommand : Prop :=
  ∀ (s : State) (i : Instr), s.mover = .engine →
    (s.status.busy = true → decode s.latched = .ok i → step s = exec i s.advanceSchedule)
    ∧ (s.status.busy = false → step s = .next s.advanceSchedule)

/-- R80, R106, R345: on the host's turn the step makes the next access of its program; a `wait` is one STATUS read a turn
(log entry 9) and goes on once BUSY = 0 and DONE = 1; at the end of the program nothing but the schedule changes (log
entry 8). -/
def Obligations.StepMakesNextHostAccess : Prop :=
  ∀ (s : State) (a : Access) (rest : List HostOp), s.mover = .host →
    (s.program = .access a :: rest → step s = hostAccess { s.advanceSchedule with program := rest } a)
    ∧ (s.program = .wait :: rest → s.status.busy = false → s.status.done = true →
        step s = hostAccess { s.advanceSchedule with program := rest } statusRead)
    ∧ (s.program = .wait :: rest → ¬(s.status.busy = false ∧ s.status.done = true) →
        step s = hostAccess s.advanceSchedule statusRead)
    ∧ (s.program = [] → step s = .next s.advanceSchedule)

/-- R301, R302, R312: whatever word is latched, the engine's step ends in a next state with BUSY = 0, DONE = 1, and
SPARE_NZ set only by a success; LATCHED stays, and LOCKED changes only by a successful LOCK_CONFIG. -/
def Obligations.EngineStepAlwaysCompletes : Prop :=
  ∀ s : State, s.mover = .engine → s.status.busy = true →
    ∃ t, step s = .next t ∧ t.status.busy = false ∧ t.status.done = true ∧ t.latched = s.latched
      ∧ (t.status.spareNz = true → t.status.code = .ok)
      ∧ (t.status.locked = true
          ↔ s.status.locked = true ∨ (decode s.latched = .ok .lockConfig ∧ t.status.code = .ok))

/-- R303: a command that ends with another code than OK leaves every register but STATUS, every octet and everything
else as it was; of STATUS, LOCKED stays and SPARE_NZ is 0. -/
def Obligations.FailureWritesOnlyStatus : Prop :=
  ∀ (i : Instr) (s t : State), exec i s = .next t → t.status.code ≠ .ok → ∃ e, t = s.failed e

/-- R304: every command but LOCK_CONFIG raises ConfigurationError while LOCKED = 0, whatever else is wrong. -/
def Obligations.LockCheckComesFirst : Prop :=
  ∀ (i : Instr) (s : State), i ≠ .lockConfig → s.status.locked = false →
    exec i s = .next (s.failed .configuration)

/-- R24, R300: STATUS reads as CODE in bits 3:0 (0 for OK, 1 to 9 for the errors), BUSY in bit 4, DONE in bit 5, LOCKED
in bit 6, SPARE_NZ in bit 7, and 0 above. -/
def Obligations.StatusReadsAsItsFields : Prop :=
  ∀ s : State,
    let v := (s.readReg .status).toNat
    v % 16 ≤ 9 ∧ (v % 16 = 0 ↔ s.status.code = .ok)
    ∧ (v % 16 = 1 ↔ s.status.code = .err .fieldOverflow) ∧ (v % 16 = 2 ↔ s.status.code = .err .range)
    ∧ (v % 16 = 3 ↔ s.status.code = .err .truncatedData) ∧ (v % 16 = 4 ↔ s.status.code = .err .lengthMismatch)
    ∧ (v % 16 = 5 ↔ s.status.code = .err .underflow) ∧ (v % 16 = 6 ↔ s.status.code = .err .configuration)
    ∧ (v % 16 = 7 ↔ s.status.code = .err .versionMismatch) ∧ (v % 16 = 8 ↔ s.status.code = .err .spareNonzero)
    ∧ (v % 16 = 9 ↔ s.status.code = .err .illegalCommand)
    ∧ (v / 16 % 2 = 1 ↔ s.status.busy = true) ∧ (v / 32 % 2 = 1 ↔ s.status.done = true)
    ∧ (v / 64 % 2 = 1 ↔ s.status.locked = true) ∧ (v / 128 % 2 = 1 ↔ s.status.spareNz = true)
    ∧ v / 256 = 0

/-- R43: no command's result depends on CODE, DONE or SPARE_NZ of earlier commands. -/
def Obligations.OutcomeFlagsAreNotRead : Prop :=
  ∀ (i : Instr) (s : State) (c : StatusCode) (d z : Bool),
    exec i { s with status := ⟨c, s.status.busy, d, s.status.locked, z⟩ } = exec i s

/-- R24, R172: SPARE_NZ is 1 after a command exactly when it succeeded, is one of PH_ENCODE, PH_DECODE, TF_ENCODE and
TF_DECODE, and its header's spare field is not 0, which strict mode never lets succeed. -/
def Obligations.SpareFlagTellsNonzeroSpare : Prop :=
  ∀ (i : Instr) (s t : State), exec i s = .next t →
    (t.status.spareNz = true
      ↔ t.status.code = .ok ∧ (i = .phEncode ∨ i = .phDecode ∨ (∃ h, i = .tfEncode h) ∨ i = .tfDecode)
        ∧ t.hdr.spare ≠ 0)
    ∧ (t.status.spareNz = true → s.cfg.strictSpare ≠ 1)

/-- R42: what a command reports, what it writes to its output registers and what it stores depend only on the registers
and buffers in its "reads" column (and LOCKED), in all states whose configuration is legal once it is locked, which
EveryStepKeepsInvariant shows of every state a run reaches. -/
def Obligations.CommandsReadOnlyTheirOperands : Prop :=
  ∀ (i : Instr) (s s' t t' : State), s.status.locked = s'.status.locked →
    (s.status.locked = true → s.cfg.legal = true ∧ s'.cfg.legal = true) →
    (∀ r ∈ readRegs i, s.readReg r = s'.readReg r) →
    (∀ b ∈ readBufs i, ∀ k, k < b.size → s.octet b k = s'.octet b k) →
    exec i s = .next t → exec i s' = .next t' →
    t.status = t'.status
    ∧ (t.status.code = .ok →
        (∀ r ∈ writtenRegs i, t.readReg r = t'.readReg r)
        ∧ writtenBlocks i s = writtenBlocks i s'
        ∧ ∀ a, anyCovers (writtenBlocks i s) a = true → t.byte a = t'.byte a)

/-! ## Invariants, reset, runs -/

/-- The invariant holds at reset: every register and engine bit is 0 (R40), and the model's own fields stand as log
entries 1, 2 and 4 say. -/
def Obligations.ResetMeetsInvariant : Prop := State.reset.Inv

/-- Every step of every agent keeps the invariant: canonical memory in buffer windows, a legal configuration once
locked (R141, R142), STATUS as the accept left it and the hazard window open while a command is pending (R23, R350; log entry 4),
flags and lengths in range. -/
def Obligations.EveryStepKeepsInvariant : Prop :=
  ∀ s t : State, s.Inv → step s = .next t → t.Inv

/-- R40, R340, R341: a reset, taken also while a command is pending, leaves every register 0, no command pending, and
every octet at a draw of its own (log entry 1); what the host has left to do is not the TFC's and stays (log entry 7). -/
def Obligations.ResetClearsEveryRegister : Prop :=
  ∀ s : State, s.mover = .reset →
    ∃ t, step s = .next t ∧ (∀ r, t.readReg r = 0) ∧ t.status.busy = false ∧ t.status.locked = false
      ∧ (∀ a, t.byte a = Config.resetDraw (s.draws + 1) a)
      ∧ t.program = s.program ∧ t.observed = s.observed

/-- R142: from a lock on, along every run in which no reset is taken, LOCKED stays 1 and every CFG_* register keeps its
value, whatever the host writes and whatever commands run. -/
def Obligations.LockedConfigurationIsConstant : Prop :=
  ∀ (k : Nat) (s t : State), s.status.locked = true → Agent.reset ∉ s.schedule →
    Sys2Proof.core.run k s = .next t → t.status.locked = true ∧ t.cfg = s.cfg

/-- R355, R356: an accepted command completes under every schedule without a reset while the host only waits, at the
latest one step after the schedule has run out: the model's form of the spec's fairness (log entry 2). -/
def Obligations.AcceptedCommandCompletes : Prop :=
  ∀ s : State, s.status.busy = true → onlyWaiting s.program = true → Agent.reset ∉ s.schedule →
    ∃ k t, k ≤ s.schedule.length + 1 ∧ Sys2Proof.core.run k s = .next t
      ∧ t.status.busy = false ∧ t.status.done = true

/-- R23, R106, R344, R350: from an idle state the line `exec MNEMONIC`, with the schedule left open (the model's choice of
the run in which the engine moves as soon as it can: log entry 2), accepts the command's word, performs it on the state the
host has left, reads STATUS and goes on with the program. That `wait` is then one STATUS read, logged in `observed`, is
the model's choice (log entry 9), and that this read closes the hazard window is its reading of R350 (log entry 4). -/
def Obligations.ExecLineAcceptsPerformsAndWaits : Prop :=
  ∀ (s : State) (i : Instr) (rest : List HostOp), s.idle → s.schedule = [] →
    s.program = expandLine (.exec i) ++ rest →
    ∃ t, exec i (({ s with program := .wait :: rest }).accept (encode i)) = .next t
      ∧ Sys2Proof.core.run 3 s
          = .next { t with
              program := rest
              hazardWindow := false
              observed := s.observed ++ [.word 0x004 t.status.word] }

/-! ## Host accesses -/

/-- R71: every register has an offset of its own, a multiple of 4 below 0x100; buffer windows lie inside the 19-bit
space, share no offset with a register or with one another (R37). -/
def Obligations.AddressMapIsDisjoint : Prop :=
  (∀ r, regOffset r % 4 = 0 ∧ regOffset r < 0x100)
  ∧ (∀ r q, regOffset r = regOffset q → r = q)
  ∧ (∀ b, 0x100 ≤ bufBase b ∧ bufBase b + b.size ≤ 2 ^ 19)
  ∧ (∀ b c i j, i < b.size → j < c.size → bufBase b + i = bufBase c + j → b = c ∧ i = j)

/-- R22, R72: a 32-bit write to a register, made when no command is pending, has the effect of its class: a RW register
stores all 32 bits; a CFG register does so while LOCKED = 0; a RO register ignores it. No other register and no octet
changes. A 32-bit read returns the register's value (into `observed`: log entry 2). -/
def Obligations.RegisterWritesFollowTheirClass : Prop :=
  ∀ (s : State) (r : Reg) (v : Word), s.idle →
    (r ≠ .cmd → r ∉ [.status, .dfhFhpPresent, .spDataLen] → (r ∈ cfgRegs → s.status.locked = false) →
      ∃ t, hostAccess s (.write (regOffset r) 32 v) = .next t ∧ t.readReg r = v
        ∧ (∀ q, q ≠ r → t.readReg q = s.readReg q) ∧ t.mem = s.mem ∧ t.draws = s.draws ∧ t.idle)
    ∧ (r ∈ [.status, .dfhFhpPresent, .spDataLen] → hostAccess s (.write (regOffset r) 32 v) = .next s)
    ∧ hostAccess s (.read (regOffset r) 32)
        = .next { s with observed := s.observed ++ [.word (regOffset r) (s.readReg r)] }

/-- R30: while LOCKED = 1 a write to a CFG register changes nothing at all, and no step but a reset clears LOCKED. -/
def Obligations.LockedConfigurationIgnoresWrites : Prop :=
  (∀ (s : State) (r : Reg) (v : Word), s.idle → s.status.locked = true → r ∈ cfgRegs →
    hostAccess s (.write (regOffset r) 32 v) = .next s)
  ∧ ∀ s t : State, s.status.locked = true → s.mover ≠ .reset → step s = .next t → t.status.locked = true

/-- R23: a write to CMD while no command is pending latches the word, reads back as it, sets BUSY, clears DONE and CODE,
keeps LOCKED and SPARE_NZ, and changes no other register and no octet. That it opens the hazard window is R350 as the
model takes it (log entry 4). -/
def Obligations.CommandWriteAccepts : Prop :=
  ∀ (s : State) (w : Word), s.idle →
    ∃ t, hostAccess s (.write (regOffset .cmd) 32 w) = .next t ∧ t.latched = w ∧ t.readReg .cmd = w
      ∧ t.status = ⟨.ok, true, false, s.status.locked, s.status.spareNz⟩ ∧ t.hazardWindow = true
      ∧ (∀ r, r ≠ .cmd → r ≠ .status → t.readReg r = s.readReg r) ∧ (∀ a, t.byte a = s.byte a)

/-- R72 to R74: an access made when no command is pending is a bus error unless it is a 32-bit access at a register's
offset or an 8-bit access in a buffer's window; and those two go through. -/
def Obligations.IllegalAccessesAreBusErrors : Prop :=
  ∀ (s : State) (o w : Nat) (v : BitVec w), s.idle →
    let legal := (w = 32 ∧ ∃ r, regOffset r = o) ∨ (w = 8 ∧ ∃ b i, i < b.size ∧ bufBase b + i = o)
    (¬ legal → hostAccess s (.read o w) = .fault (.busError o w)
      ∧ hostAccess s (.write o w v) = .fault (.busError o w))
    ∧ (legal → (∃ t, hostAccess s (.read o w) = .next t) ∧ ∃ t, hostAccess s (.write o w v) = .next t)

/-- R310, R350: while a command is pending, and until the host has read STATUS with BUSY = 0 (the model's reading: log
entry 4), every access but a 32-bit STATUS read, an illegal one included (log entry 5), is the fault HostHazard; the
STATUS read goes through, and closes the window when BUSY = 0. -/
def Obligations.AccessesWhilePendingAreHazards : Prop :=
  ∀ (s : State) (a : Access), s.status.busy = true ∨ s.hazardWindow = true →
    (a ≠ .read 0x004 32 → hostAccess s a = .fault (.hostHazard (accessOffset a) (accessKind a)))
    ∧ hostAccess s (.read 0x004 32)
        = .next { s with
            observed := s.observed ++ [.word 0x004 (s.readReg .status)], hazardWindow := s.status.busy }

/-- R75: a read changes no register, no octet and no STATUS field, and a repeated read returns the same value. (What a
STATUS read does close is the model's hazard window, no state of the spec's: log entry 4. What a read returns goes into `observed`: log entry 2.) -/
def Obligations.ReadsHaveNoSideEffects : Prop :=
  ∀ (s t : State) (o w : Nat), hostAccess s (.read o w) = .next t →
    (∀ r, t.readReg r = s.readReg r) ∧ (∀ a, t.byte a = s.byte a) ∧ t.status = s.status
    ∧ ∃ ob u, t.observed = s.observed ++ [ob] ∧ hostAccess t (.read o w) = .next u
        ∧ u.observed = s.observed ++ [ob, ob]

/-- R73, R37: an 8-bit write in a buffer window replaces exactly that octet of that buffer, and an 8-bit read returns the
octet (into `observed`: log entry 2). -/
def Obligations.OctetWritesReplaceOneOctet : Prop :=
  ∀ (s : State) (b : Buf) (i : Nat) (v : Byte), s.idle → i < b.size →
    (∃ t, hostAccess s (.write (bufBase b + i) 8 v) = .next t ∧ t.octet b i = v
      ∧ (∀ c j, j < c.size → ¬(c = b ∧ j = i) → t.octet c j = s.octet c j)
      ∧ (∀ r, t.readReg r = s.readReg r))
    ∧ hostAccess s (.read (bufBase b + i) 8)
        = .next { s with observed := s.observed ++ [.octet (bufBase b + i) (s.octet b i)] }

/-! ## LOCK_CONFIG -/

/-- R140, R141: LOCK_CONFIG raises ConfigurationError when already locked, FieldOverflowError when a CFG_* register is
outside its range, and otherwise sets LOCKED and changes nothing else but STATUS. -/
def Obligations.LockConfigFreezesLegalConfiguration : Prop :=
  ∀ s : State,
    (s.status.locked = true → exec .lockConfig s = .next (s.failed .configuration))
    ∧ (s.status.locked = false → ¬ legalRanges s.cfg → exec .lockConfig s = .next (s.failed .fieldOverflow))
    ∧ (s.status.locked = false → legalRanges s.cfg →
        exec .lockConfig s = .next { s with status := okStatus false })

/-! ## WRITE_FIELD and READ_FIELD -/

/-- R150: when its checks pass WRITE_FIELD completes, and the wire bits of FRAME[0..FRAME_LEN) are the value's digits,
most significant first, inside the field and as before outside it. -/
def Obligations.WriteFieldSetsItsWireBits : Prop :=
  ∀ s : State, s.status.locked = true → s.fld.width.toNat ≤ 64 → s.frameLen.toNat ≤ 131072 →
    s.fld.offset.toNat + s.fld.width.toNat ≤ 8 * s.frameLen.toNat → s.fld.value < 2 ^ s.fld.width.toNat →
    ∃ t, exec .writeField s = .next t ∧ t.status = okStatus false
      ∧ ∀ k, k < 8 * s.frameLen.toNat →
          wireBit (inputFrame t) k
            = if s.fld.offset.toNat ≤ k ∧ k < s.fld.offset.toNat + s.fld.width.toNat then
                s.fld.value.testBit (s.fld.offset.toNat + s.fld.width.toNat - 1 - k)
              else wireBit (inputFrame s) k

/-- R151: when its checks pass READ_FIELD completes, and digit i of FLD_VALUE, from the least significant, is the wire
bit i places before the field's end; no digit at or above FLD_WIDTH is set. -/
def Obligations.ReadFieldReadsItsWireBits : Prop :=
  ∀ s : State, s.status.locked = true → s.fld.width.toNat ≤ 64 → s.frameLen.toNat ≤ 131072 →
    s.fld.offset.toNat + s.fld.width.toNat ≤ 8 * s.frameLen.toNat →
    ∃ t, exec .readField s = .next t ∧ t.status = okStatus false
      ∧ ∀ i, t.fld.value.testBit i
          = (decide (i < s.fld.width.toNat)
              && wireBit (inputFrame s) (s.fld.offset.toNat + s.fld.width.toNat - 1 - i))

/-- R306: the code WRITE_FIELD and READ_FIELD end with, first failing check first. -/
def Obligations.BitFieldCheckOrder : Prop :=
  ∀ s : State, s.status.locked = true →
    (∃ t, exec .writeField s = .next t
      ∧ t.status.code
        = if 64 < s.fld.width.toNat then .err .range
          else if 131072 < s.frameLen.toNat then .err .range
          else if 8 * s.frameLen.toNat < s.fld.offset.toNat + s.fld.width.toNat then .err .range
          else if 2 ^ s.fld.width.toNat ≤ s.fld.value then .err .fieldOverflow
          else .ok)
    ∧ (∃ t, exec .readField s = .next t
      ∧ t.status.code
        = if 64 < s.fld.width.toNat then .err .range
          else if 131072 < s.frameLen.toNat then .err .range
          else if 8 * s.frameLen.toNat < s.fld.offset.toNat + s.fld.width.toNat then .err .range
          else .ok)

/-- R42, R150, R151: WRITE_FIELD changes only the octets of FRAME its field touches, READ_FIELD only FLD_VALUE_LO and
FLD_VALUE_HI, besides STATUS; LOCKED stays. -/
def Obligations.BitFieldFrame : Prop :=
  ∀ s t : State,
    (exec .writeField s = .next t →
      keepsAllBut []
        [⟨.frame, s.fld.offset.toNat / 8, fieldOctets s.fld.offset.toNat s.fld.width.toNat⟩] s t
      ∧ t.status.locked = s.status.locked)
    ∧ (exec .readField s = .next t →
        keepsAllBut [.fldValueLo, .fldValueHi] [] s t ∧ t.status.locked = s.status.locked)

/-- R152: after a successful WRITE_FIELD, READ_FIELD at the same offset and width on whatever else the registers then hold,
FLD_VALUE_LO and FLD_VALUE_HI among them, sets FLD_VALUE to the value written; a successful READ_FIELD followed by
WRITE_FIELD of the value read leaves FRAME as it was. -/
def Obligations.WriteFieldReadFieldInverse : Prop :=
  ∀ s t : State,
    (exec .writeField s = .next t → t.status.code = .ok →
      ∀ v : State, v.holdsFrameOf t → v.fld.offset = s.fld.offset → v.fld.width = s.fld.width →
        ∃ u, exec .readField v = .next u ∧ u.status.code = .ok ∧ u.fld.value = s.fld.value)
    ∧ (exec .readField s = .next t → t.status.code = .ok →
        ∀ w : Word, ∃ u, exec .writeField (t.accept w) = .next u ∧ u.status.code = .ok
          ∧ ∀ k, k < Buf.frame.size → u.octet .frame k = s.octet .frame k)

/-! ## PH_ENCODE and PH_DECODE -/

/-- R110, R111, R170: when its checks pass PH_ENCODE completes; FRAME_LEN is 11 in FIXED32 mode and 7 plus the selector
in VARIABLE mode (one octet a selector unit: the spec marks it general knowledge, log entry 12); and every field of the
header stands in FRAME at its place. -/
def Obligations.PrimaryHeaderEncodeLaysOutFields : Prop :=
  ∀ s : State, s.status.locked = true → legalRanges s.cfg → headerBounds s.hdr → countBound s.cfg s.hdr →
    s.hdr.tfvn = s.cfg.version → ¬ strictSpareHit s.cfg s.hdr.spare →
    ∃ t, exec .phEncode s = .next t ∧ t.status = okStatus (s.hdr.spare != 0)
      ∧ (s.cfg.fcMode.toNat = 0 → t.frameLen.toNat = 11)
      ∧ (s.cfg.fcMode.toNat = 1 → t.frameLen.toNat = 7 + s.hdr.fcLen.toNat)
      ∧ headerOnWire s.cfg (inputFrame t) s.hdr

/-- R171: when its checks pass PH_DECODE completes, and the fourteen header registers are the fields that stand in FRAME;
octets after the header play no part. In VARIABLE mode the count has one octet a selector unit (log entry 12). -/
def Obligations.PrimaryHeaderDecodeReadsFields : Prop :=
  ∀ s : State, s.status.locked = true → legalRanges s.cfg → s.frameLen.toNat ≤ 131072 → 7 ≤ s.frameLen.toNat →
    (if s.cfg.fcMode.toNat = 0 then 11 else 7 + getBits (inputFrame s) 53 3) ≤ s.frameLen.toNat →
    getBits (inputFrame s) 0 4 = s.cfg.version.toNat →
    ¬(getBits (inputFrame s) 50 2 ≠ 0 ∧ s.cfg.strictSpare.toNat = 1) →
    ∃ t, exec .phDecode s = .next t
      ∧ t.status = okStatus (decide (getBits (inputFrame s) 50 2 ≠ 0))
      ∧ headerOnWire s.cfg (inputFrame s) t.hdr

/-- R306, R172: the code PH_ENCODE and PH_DECODE end with, first failing check first (the header's length in VARIABLE
mode: log entry 12). -/
def Obligations.PrimaryHeaderCheckOrder : Prop :=
  ∀ s : State, s.status.locked = true → legalRanges s.cfg →
    (∃ t, exec .phEncode s = .next t
      ∧ t.status.code
        = if ¬ headerBounds s.hdr then .err .fieldOverflow
          else if ¬ countBound s.cfg s.hdr then .err .fieldOverflow
          else if s.hdr.tfvn ≠ s.cfg.version then .err .versionMismatch
          else if strictSpareHit s.cfg s.hdr.spare then .err .spareNonzero
          else .ok)
    ∧ (∃ t, exec .phDecode s = .next t
      ∧ t.status.code
        = if 131072 < s.frameLen.toNat then .err .range
          else if s.frameLen.toNat < 7 then .err .truncatedData
          else if s.frameLen.toNat < (if s.cfg.fcMode.toNat = 0 then 11 else 7 + getBits (inputFrame s) 53 3) then
            .err .truncatedData
          else if getBits (inputFrame s) 0 4 ≠ s.cfg.version.toNat then .err .versionMismatch
          else if getBits (inputFrame s) 50 2 ≠ 0 ∧ s.cfg.strictSpare.toNat = 1 then .err .spareNonzero
          else .ok)

/-- R42, R170, R171: PH_ENCODE changes only FRAME[0..PHLEN) and FRAME_LEN, PH_DECODE only the fourteen header registers,
besides STATUS; LOCKED stays. -/
def Obligations.PrimaryHeaderFrame : Prop :=
  ∀ s t : State,
    (exec .phEncode s = .next t →
      keepsAllBut [.frameLen] [⟨.frame, 0, s.cfg.phLen s.hdr.fcLen.toNat⟩] s t
      ∧ t.status.locked = s.status.locked)
    ∧ (exec .phDecode s = .next t →
        keepsAllBut
          [.hdrTfvn, .hdrScid, .hdrSrcDst, .hdrVcid, .hdrMapId, .hdrEndFlag, .hdrTfLength, .hdrBypass, .hdrProtoCmd,
           .hdrSpare, .hdrOcfFlag, .hdrFcLen, .hdrFcValueLo, .hdrFcValueHi] [] s t
        ∧ t.status.locked = s.status.locked)

/-- R174: after every successful PH_ENCODE, whatever the header registers are overwritten with, PH_DECODE succeeds and
restores all fourteen. -/
def Obligations.PrimaryHeaderRoundTrip : Prop :=
  ∀ (s t : State) (w : Word) (h : HdrRegs), exec .phEncode s = .next t → t.status.code = .ok →
    ∃ u, exec .phDecode ({ t with hdr := h }.accept w) = .next u ∧ u.status.code = .ok ∧ u.hdr = s.hdr

/-! ## DF_ENCODE and DF_DECODE -/

/-- R112, R113, R190: when its checks pass DF_ENCODE completes with the regions of the data field in FRAME, in order. -/
def Obligations.DataFieldEncodeLaysOutRegions : Prop :=
  ∀ s : State, s.status.locked = true → s.payloadLen.toNat ≤ 131072 → dfhBounds s.dfh →
    22 + (if s.dfh.rule.toNat ≤ 1 then 3 else 1) + s.payloadLen.toNat ≤ 131072 →
    ∃ t, exec .dfEncode s = .next t ∧ t.status = okStatus false
      ∧ t.frameLen.toNat = 22 + (if s.dfh.rule.toNat ≤ 1 then 3 else 1) + s.payloadLen.toNat
      ∧ t.dfhFhpPresent = (if s.dfh.rule.toNat ≤ 1 then 1 else 0)
      ∧ t.octets .frame 0 6 = s.octets .sechdr 0 6
      ∧ dfhOnWire s.dfh (t.octets .frame 6 3)
      ∧ t.octets .frame (6 + (if s.dfh.rule.toNat ≤ 1 then 3 else 1)) s.payloadLen.toNat
          = s.octets .payload 0 s.payloadLen.toNat
      ∧ t.octets .frame (6 + (if s.dfh.rule.toNat ≤ 1 then 3 else 1) + s.payloadLen.toNat) 16
          = s.octets .sectrl 0 16

/-- R191, R192: when its checks pass DF_DECODE completes with the regions of the data field in their registers and
buffers; an absent pointer leaves DFH_FHP and DFH_FHP_PRESENT 0. -/
def Obligations.DataFieldDecodeSplitsRegions : Prop :=
  ∀ s : State, s.status.locked = true → s.frameLen.toNat ≤ 131072 → 7 ≤ s.frameLen.toNat →
    let d := if getBits (inputFrame s) 48 3 ≤ 1 then 3 else 1
    22 + d ≤ s.frameLen.toNat →
    ∃ t, exec .dfDecode s = .next t ∧ t.status = okStatus false
      ∧ t.dfh.rule.toNat = getBits (inputFrame s) 48 3 ∧ t.dfh.protoId.toNat = getBits (inputFrame s) 51 5
      ∧ t.dfh.fhp.toNat = (if d = 3 then getBits (inputFrame s) 56 16 else 0)
      ∧ t.dfhFhpPresent = (if d = 3 then 1 else 0)
      ∧ t.payloadLen.toNat = s.frameLen.toNat - (22 + d)
      ∧ t.octets .sechdr 0 6 = s.octets .frame 0 6
      ∧ t.octets .payload 0 (s.frameLen.toNat - (22 + d)) = s.octets .frame (6 + d) (s.frameLen.toNat - (22 + d))
      ∧ t.octets .sectrl 0 16 = s.octets .frame (s.frameLen.toNat - 16) 16

/-- R306: the code DF_ENCODE and DF_DECODE end with, first failing check first. -/
def Obligations.DataFieldCheckOrder : Prop :=
  ∀ s : State, s.status.locked = true →
    (∃ t, exec .dfEncode s = .next t
      ∧ t.status.code
        = if 131072 < s.payloadLen.toNat then .err .range
          else if 7 < s.dfh.rule.toNat ∨ 31 < s.dfh.protoId.toNat then .err .fieldOverflow
          else if s.dfh.rule.toNat ≤ 1 ∧ 65535 < s.dfh.fhp.toNat then .err .fieldOverflow
          else if 131072 < 22 + (if s.dfh.rule.toNat ≤ 1 then 3 else 1) + s.payloadLen.toNat then .err .range
          else .ok)
    ∧ (∃ t, exec .dfDecode s = .next t
      ∧ t.status.code
        = if 131072 < s.frameLen.toNat then .err .range
          else if s.frameLen.toNat < 7 then .err .truncatedData
          else if s.frameLen.toNat < 22 + (if getBits (inputFrame s) 48 3 ≤ 1 then 3 else 1) then
            .err .truncatedData
          else .ok)

/-- R42, R190, R191: DF_ENCODE changes only FRAME[0..DFLEN), FRAME_LEN and DFH_FHP_PRESENT; DF_DECODE only the data-field
header registers, DFH_FHP_PRESENT, PAYLOAD_LEN, SECHDR, SECTRL and as many octets of PAYLOAD as it decodes; besides
STATUS, of which LOCKED stays. -/
def Obligations.DataFieldFrame : Prop :=
  ∀ s t : State,
    (exec .dfEncode s = .next t →
      keepsAllBut [.frameLen, .dfhFhpPresent]
        [⟨.frame, 0, dfLen s.dfh.rule.toNat s.payloadLen.toNat⟩] s t
      ∧ t.status.locked = s.status.locked)
    ∧ (exec .dfDecode s = .next t →
        keepsAllBut [.dfhRule, .dfhProtoId, .dfhFhp, .dfhFhpPresent, .payloadLen]
          [⟨.sechdr, 0, 6⟩, ⟨.payload, 0, parsedPayloadLength s.frameLen.toNat (inputFrame s)⟩, ⟨.sectrl, 0, 16⟩] s t
        ∧ t.status.locked = s.status.locked)

/-- R195: after every successful DF_ENCODE, DF_DECODE of its FRAME and FRAME_LEN, whatever every other register and buffer
has been overwritten with, succeeds and restores SECHDR, the rule, the protocol identifier, the payload, PAYLOAD_LEN and
SECTRL as they were before the DF_ENCODE, and the pointer too when it is present; an absent pointer becomes 0. -/
def Obligations.DataFieldRoundTrip : Prop :=
  ∀ s t v : State, exec .dfEncode s = .next t → t.status.code = .ok → v.holdsFrameOf t →
    ∃ u, exec .dfDecode v = .next u ∧ u.status.code = .ok
      ∧ u.dfh.rule = s.dfh.rule ∧ u.dfh.protoId = s.dfh.protoId
      ∧ u.dfh.fhp = (if s.dfh.rule.toNat ≤ 1 then s.dfh.fhp else 0)
      ∧ u.dfhFhpPresent = t.dfhFhpPresent ∧ u.payloadLen = s.payloadLen
      ∧ u.octets .sechdr 0 6 = s.octets .sechdr 0 6
      ∧ u.octets .payload 0 s.payloadLen.toNat = s.octets .payload 0 s.payloadLen.toNat
      ∧ u.octets .sectrl 0 16 = s.octets .sectrl 0 16

/-! ## TF_ENCODE and TF_DECODE -/

/-- R114, R230, R236, R210 to R214: when its checks pass TF_ENCODE completes with the regions of the frame in FRAME, in
order: the header with version, SCID, source/destination flag and MAP ID from the configuration and TFLength = L − 1, the
insert zone, the data field, the OCF when its flag is 1, and the FECF when the mission has one: with H = 0 the FECF buffer's
octets, with H = 1 the collaborator's value (a free value: log entry 6) for the octets before it, which the FECF buffer then
holds too. In VARIABLE mode the count has one octet a selector unit (log entry 12). -/
def Obligations.FrameEncodeLaysOutRegions : Prop :=
  ∀ (h : Bool) (s : State), frameInputsGood h s → layoutLength s ≤ 65536 →
    let ph := if s.cfg.fcMode.toNat = 0 then 11 else 7 + s.hdr.fcLen.toNat
    let d := if s.dfh.rule.toNat ≤ 1 then 3 else 1
    let df := ph + s.cfg.izLen.toNat
    let tail := df + 22 + d + s.payloadLen.toNat
    ∃ t, exec (.tfEncode h) s = .next t ∧ t.status = okStatus (s.hdr.spare != 0)
      ∧ t.frameLen.toNat = layoutLength s
      ∧ t.hdr = { s.hdr with
          tfvn := s.cfg.version, scid := s.cfg.scid, srcDst := s.cfg.srcDst, mapId := s.cfg.mapId
          tfLength := BitVec.ofNat 32 (layoutLength s - 1) }
      ∧ t.dfhFhpPresent = (if s.dfh.rule.toNat ≤ 1 then 1 else 0)
      ∧ headerOnWire s.cfg (inputFrame t) t.hdr
      ∧ t.octets .frame ph s.cfg.izLen.toNat = s.octets .iz 0 s.cfg.izLen.toNat
      ∧ t.octets .frame df 6 = s.octets .sechdr 0 6
      ∧ dfhOnWire s.dfh (t.octets .frame (df + 6) 3)
      ∧ t.octets .frame (df + 6 + d) s.payloadLen.toNat = s.octets .payload 0 s.payloadLen.toNat
      ∧ t.octets .frame (df + 6 + d + s.payloadLen.toNat) 16 = s.octets .sectrl 0 16
      ∧ (s.hdr.ocfFlag.toNat = 1 → t.octets .frame tail 4 = s.octets .ocf 0 4)
      ∧ (s.cfg.fecfEn.toNat = 1 → h = false → t.octets .frame (layoutLength s - 4) 4 = s.octets .fecf 0 4)
      ∧ (h = true →
          t.octets .frame (layoutLength s - 4) 4
            = (Config.computeFECF (t.octets .frame 0 (layoutLength s - 4))).toList
          ∧ t.octets .fecf 0 4 = t.octets .frame (layoutLength s - 4) 4)

/-- R231, R210, R212, R217: when its checks pass TF_DECODE completes with every region of the frame in its registers and
buffers: the header, the insert zone, the data field between it and the trailing regions, the OCF when its flag is 1 and
the FECF when the mission has one, unverified. In VARIABLE mode the count has one octet a selector unit (log entry 12). -/
def Obligations.FrameDecodeSplitsRegions : Prop :=
  ∀ s : State, s.status.locked = true → legalRanges s.cfg → s.frameLen.toNat ≤ 131072 → 7 ≤ s.frameLen.toNat →
    let b := inputFrame s
    let n := s.frameLen.toNat
    let ph := if s.cfg.fcMode.toNat = 0 then 11 else 7 + getBits b 53 3
    let df := ph + s.cfg.izLen.toNat
    let ends := 4 * getBits b 52 1 + 4 * s.cfg.fecfEn.toNat
    let d := if getBits b (8 * (df + 6)) 3 ≤ 1 then 3 else 1
    ph ≤ n → getBits b 0 4 = s.cfg.version.toNat → ¬(getBits b 50 2 ≠ 0 ∧ s.cfg.strictSpare.toNat = 1) →
    getBits b 32 16 + 1 = n → df + ends + 22 + d ≤ n →
    ∃ t, exec .tfDecode s = .next t ∧ t.status = okStatus (decide (getBits b 50 2 ≠ 0))
      ∧ headerOnWire s.cfg b t.hdr
      ∧ t.octets .iz 0 s.cfg.izLen.toNat = s.octets .frame ph s.cfg.izLen.toNat
      ∧ t.octets .sechdr 0 6 = s.octets .frame df 6
      ∧ t.dfh.rule.toNat = getBits b (8 * (df + 6)) 3 ∧ t.dfh.protoId.toNat = getBits b (8 * (df + 6) + 3) 5
      ∧ t.dfh.fhp.toNat = (if d = 3 then getBits b (8 * (df + 7)) 16 else 0)
      ∧ t.dfhFhpPresent = (if d = 3 then 1 else 0)
      ∧ t.payloadLen.toNat = n - (df + ends + 22 + d)
      ∧ t.octets .payload 0 t.payloadLen.toNat = s.octets .frame (df + 6 + d) t.payloadLen.toNat
      ∧ t.octets .sectrl 0 16 = s.octets .frame (n - ends - 16) 16
      ∧ t.ocfValid.toNat = getBits b 52 1
      ∧ t.octets .ocf 0 4
          = (if getBits b 52 1 = 1 then s.octets .frame (n - ends) 4 else s.octets .ocf 0 4)
      ∧ t.octets .fecf 0 4
          = (if s.cfg.fecfEn.toNat = 1 then s.octets .frame (n - 4) 4 else s.octets .fecf 0 4)

/-- R306, R230: the code TF_ENCODE ends with, first failing check first (frame count and length in VARIABLE mode: log
entry 12). -/
def Obligations.FrameEncodeCheckOrder : Prop :=
  ∀ (h : Bool) (s : State), s.status.locked = true → legalRanges s.cfg →
    ∃ t, exec (.tfEncode h) s = .next t
      ∧ t.status.code
        = if h = true ∧ s.cfg.fecfEn.toNat = 0 then .err .configuration
          else if 131072 < s.payloadLen.toNat then .err .range
          else if ¬(perFrameBounds s.hdr ∧ s.ocfValid.toNat ≤ 1) then .err .fieldOverflow
          else if ¬ countBound s.cfg s.hdr then .err .fieldOverflow
          else if ¬ dfhBounds s.dfh then .err .fieldOverflow
          else if s.hdr.ocfFlag ≠ s.ocfValid then .err .configuration
          else if strictSpareHit s.cfg s.hdr.spare then .err .spareNonzero
          else if 65536 < layoutLength s then .err .fieldOverflow
          else .ok

/-- R306, R231: the code TF_DECODE ends with, first failing check first (the header's length in VARIABLE mode: log
entry 12). -/
def Obligations.FrameDecodeCheckOrder : Prop :=
  ∀ s : State, s.status.locked = true → legalRanges s.cfg →
    let b := inputFrame s
    let n := s.frameLen.toNat
    let ph := if s.cfg.fcMode.toNat = 0 then 11 else 7 + getBits b 53 3
    let fixed := ph + s.cfg.izLen.toNat + 4 * getBits b 52 1 + 4 * s.cfg.fecfEn.toNat
    let d := if getBits b (8 * (ph + s.cfg.izLen.toNat + 6)) 3 ≤ 1 then 3 else 1
    ∃ t, exec .tfDecode s = .next t
      ∧ t.status.code
        = if 131072 < n then .err .range
          else if n < 7 then .err .truncatedData
          else if n < ph then .err .truncatedData
          else if getBits b 0 4 ≠ s.cfg.version.toNat then .err .versionMismatch
          else if getBits b 50 2 ≠ 0 ∧ s.cfg.strictSpare.toNat = 1 then .err .spareNonzero
          else if getBits b 32 16 + 1 ≠ n then .err .lengthMismatch
          else if n < fixed then .err .underflow
          else if n < fixed + 7 then .err .truncatedData
          else if n < fixed + 22 + d then .err .truncatedData
          else .ok

/-- R42, R230, R231: what TF_ENCODE and TF_DECODE leave unchanged: every register but those of their "writes" column, and
every octet but FRAME[0..L) and, with H = 1, FECF for the one; IZ[0..CFG_IZ_LEN), SECHDR, the decoded octets of PAYLOAD,
SECTRL, OCF when its flag is 1 and FECF when the mission has one for the other; besides STATUS, of which LOCKED stays. -/
def Obligations.FrameCodecFrame : Prop :=
  ∀ s t : State,
    (∀ h : Bool, exec (.tfEncode h) s = .next t →
      keepsAllBut [.frameLen, .hdrTfvn, .hdrScid, .hdrSrcDst, .hdrMapId, .hdrTfLength, .dfhFhpPresent]
        (⟨.frame, 0, frameLength s⟩ :: (if h then [⟨.fecf, 0, 4⟩] else [])) s t
      ∧ t.status.locked = s.status.locked)
    ∧ (exec .tfDecode s = .next t →
        keepsAllBut
          ([.hdrTfvn, .hdrScid, .hdrSrcDst, .hdrVcid, .hdrMapId, .hdrEndFlag, .hdrTfLength, .hdrBypass, .hdrProtoCmd,
            .hdrSpare, .hdrOcfFlag, .hdrFcLen, .hdrFcValueLo, .hdrFcValueHi] ++
            [.dfhRule, .dfhProtoId, .dfhFhp, .dfhFhpPresent, .payloadLen, .ocfValid])
          ([⟨.iz, 0, s.cfg.izLen.toNat⟩, ⟨.sechdr, 0, 6⟩,
            ⟨.payload, 0, parsedPayloadLength (inputFieldLength s) (inputField s)⟩, ⟨.sectrl, 0, 16⟩]
            ++ (if (unpackPH s.cfg (inputFrame s)).ocfFlag = 1 then [⟨.ocf, 0, 4⟩] else [])
            ++ (if s.cfg.fecfEn = 1 then [⟨.fecf, 0, 4⟩] else [])) s t
        ∧ t.status.locked = s.status.locked)

/-- R234: after every successful TF_ENCODE under a legal configuration, TF_DECODE of its FRAME and FRAME_LEN under the same
configuration, whatever every other register and buffer has been overwritten with, succeeds and gives the header registers
as TF_ENCODE left them, and the insert zone, SECHDR, data-field header, payload, PAYLOAD_LEN, SECTRL and OCF_VALID as they
stood before it; an absent pointer becomes 0. OCF and FECF are given back where the frame carries them, the FECF with the
octets TF_ENCODE placed; where it does not, TF_DECODE leaves the buffer alone. TF_ENCODE itself leaves OCF unchanged. -/
def Obligations.FrameRoundTrip : Prop :=
  ∀ (h : Bool) (s t v : State), s.cfg.legal = true → exec (.tfEncode h) s = .next t → t.status.code = .ok →
    v.holdsFrameOf t → v.cfg = t.cfg →
    ∃ u, exec .tfDecode v = .next u ∧ u.status.code = .ok ∧ u.hdr = t.hdr
      ∧ u.octets .iz 0 s.cfg.izLen.toNat = s.octets .iz 0 s.cfg.izLen.toNat
      ∧ u.octets .sechdr 0 6 = s.octets .sechdr 0 6
      ∧ u.dfh.rule = s.dfh.rule ∧ u.dfh.protoId = s.dfh.protoId
      ∧ u.dfh.fhp = (if s.dfh.rule.toNat ≤ 1 then s.dfh.fhp else 0)
      ∧ u.dfhFhpPresent = t.dfhFhpPresent
      ∧ u.payloadLen = s.payloadLen
      ∧ u.octets .payload 0 s.payloadLen.toNat = s.octets .payload 0 s.payloadLen.toNat
      ∧ u.octets .sectrl 0 16 = s.octets .sectrl 0 16
      ∧ u.ocfValid = s.ocfValid
      ∧ u.octets .ocf 0 4 = (if s.ocfValid = 1 then s.octets .ocf 0 4 else v.octets .ocf 0 4)
      ∧ t.octets .ocf 0 4 = s.octets .ocf 0 4
      ∧ u.octets .fecf 0 4
          = (if s.cfg.fecfEn = 1 then t.octets .frame (t.frameLen.toNat - 4) 4 else v.octets .fecf 0 4)
      ∧ (s.cfg.fecfEn = 1 → t.octets .frame (t.frameLen.toNat - 4) 4 = t.octets .fecf 0 4)

/-- R233: after every successful TF_ENCODE the TFLength on the wire, and HDR_TFLENGTH, are FRAME_LEN − 1, and the payload
length is what is left of the frame without its fixed regions. -/
def Obligations.FrameLengthLaw : Prop :=
  ∀ (h : Bool) (s t : State), exec (.tfEncode h) s = .next t → t.status.code = .ok →
    getBits (inputFrame t) 32 16 + 1 = t.frameLen.toNat ∧ t.hdr.tfLength.toNat + 1 = t.frameLen.toNat
    ∧ t.payloadLen.toNat + t.cfg.phLen t.hdr.fcLen.toNat + t.cfg.izLen.toNat + 6 + dfhLen t.dfh.rule.toNat + 16
        + 4 * t.hdr.ocfFlag.toNat + 4 * t.cfg.fecfEn.toNat
      = t.hdr.tfLength.toNat + 1

/-- R235: with everything else good, the largest payload TF_ENCODE accepts is 65536 octets less the fixed regions, and one
octet more is a FieldOverflowError; with FIXED32, no insert zone, a 1-octet data-field header, no OCF and no FECF the bound
is 65502 octets. In VARIABLE mode the header's length rests on log entry 12. -/
def Obligations.FramePayloadBound : Prop :=
  ∀ (h : Bool) (s : State), frameInputsGood h s →
    let fixed := (if s.cfg.fcMode.toNat = 0 then 11 else 7 + s.hdr.fcLen.toNat) + s.cfg.izLen.toNat + 22
      + (if s.dfh.rule.toNat ≤ 1 then 3 else 1) + 4 * s.hdr.ocfFlag.toNat + 4 * s.cfg.fecfEn.toNat
    ∃ t, exec (.tfEncode h) s = .next t
      ∧ (s.payloadLen.toNat + fixed ≤ 65536 → t.status.code = .ok)
      ∧ (65536 < s.payloadLen.toNat + fixed → t.status.code = .err .fieldOverflow)
      ∧ (s.cfg.fcMode.toNat = 0 → s.cfg.izLen.toNat = 0 → 2 ≤ s.dfh.rule.toNat → s.hdr.ocfFlag.toNat = 0 →
          s.cfg.fecfEn.toNat = 0 →
          t.status.code = if s.payloadLen.toNat ≤ 65502 then .ok else .err .fieldOverflow)

/-- R216: a TF_ENCODE with H = 1 while CFG_FECF_EN = 0 raises ConfigurationError, whatever its other inputs: also
while LOCKED = 0, by the lock check. -/
def Obligations.HookWithoutFecfIsConfigurationError : Prop :=
  ∀ s : State, s.cfg.fecfEn.toNat = 0 →
    exec (.tfEncode true) s = .next (s.failed .configuration)

/-! ## SP_ENCODE and SP_DECODE -/

/-- R115, R116, R260: when its checks pass SP_ENCODE completes with the packet header, the secondary header when its flag
is 1, and the payload in FRAME, and SP_DATA_LEN the data field's length less 1. -/
def Obligations.PacketEncodeLaysOutRegions : Prop :=
  ∀ s : State, s.status.locked = true → s.payloadLen.toNat ≤ 131072 → packetBounds s.sp →
    let sh := if s.sp.shFlag.toNat = 1 then s.cfg.spShLen.toNat else 0
    sh + s.payloadLen.toNat ≠ 0 → sh + s.payloadLen.toNat ≤ 65536 →
    ∃ t, exec .spEncode s = .next t ∧ t.status = okStatus false
      ∧ t.frameLen.toNat = 6 + sh + s.payloadLen.toNat
      ∧ t.sp = { s.sp with dataLen := BitVec.ofNat 32 (sh + s.payloadLen.toNat - 1) }
      ∧ packetOnWire (inputFrame t) t.sp
      ∧ t.octets .frame 6 sh = s.octets .spsh 0 sh
      ∧ t.octets .frame (6 + sh) s.payloadLen.toNat = s.octets .payload 0 s.payloadLen.toNat

/-- R261, R262: when its checks pass SP_DECODE completes with the seven fields, the secondary header when its flag is 1,
and the payload in their registers and buffers. -/
def Obligations.PacketDecodeSplitsRegions : Prop :=
  ∀ s : State, s.status.locked = true → s.frameLen.toNat ≤ 131072 →
    let b := inputFrame s
    let sh := if getBits b 4 1 = 1 then s.cfg.spShLen.toNat else 0
    let n := getBits b 32 16 + 1 - sh
    s.frameLen.toNat = 7 + getBits b 32 16 → sh ≤ getBits b 32 16 + 1 →
    ∃ t, exec .spDecode s = .next t ∧ t.status = okStatus false ∧ packetOnWire b t.sp
      ∧ t.payloadLen.toNat = n
      ∧ t.octets .spsh 0 sh = s.octets .frame 6 sh
      ∧ t.octets .payload 0 n = s.octets .frame (6 + sh) n

/-- R306: the code SP_ENCODE and SP_DECODE end with, first failing check first. -/
def Obligations.PacketCheckOrder : Prop :=
  ∀ s : State, s.status.locked = true →
    (let m := (if s.sp.shFlag.toNat = 1 then s.cfg.spShLen.toNat else 0) + s.payloadLen.toNat
      ∃ t, exec .spEncode s = .next t
      ∧ t.status.code
        = if 131072 < s.payloadLen.toNat then .err .range
          else if ¬ packetBounds s.sp then .err .fieldOverflow
          else if m = 0 then .err .underflow
          else if 65536 < m then .err .fieldOverflow
          else .ok)
    ∧ (let b := inputFrame s
      ∃ t, exec .spDecode s = .next t
      ∧ t.status.code
        = if 131072 < s.frameLen.toNat then .err .range
          else if s.frameLen.toNat < 6 then .err .truncatedData
          else if s.frameLen.toNat < 7 + getBits b 32 16 then .err .truncatedData
          else if 7 + getBits b 32 16 < s.frameLen.toNat then .err .lengthMismatch
          else if getBits b 4 1 = 1 ∧ getBits b 32 16 + 1 < s.cfg.spShLen.toNat then .err .underflow
          else .ok)

/-- R42, R260, R261: SP_ENCODE changes only FRAME, as far as the packet goes, FRAME_LEN and SP_DATA_LEN; SP_DECODE only the
seven packet registers, PAYLOAD_LEN and as many octets of SPSH and PAYLOAD as it decodes; besides STATUS, of which LOCKED
stays. -/
def Obligations.PacketFrame : Prop :=
  ∀ s t : State,
    (exec .spEncode s = .next t →
      keepsAllBut [.frameLen, .spDataLen] [⟨.frame, 0, 6 + packetDataLength s⟩] s t
      ∧ t.status.locked = s.status.locked)
    ∧ (exec .spDecode s = .next t →
        keepsAllBut
          [.spVersion, .spType, .spShFlag, .spApid, .spSeqFlags, .spSeqCount, .spDataLen, .payloadLen]
          [⟨.spsh, 0, s.cfg.secHdrLen (unpackSP (inputFrame s)).shFlag⟩,
           ⟨.payload, 0,
            (unpackSP (inputFrame s)).dataLen.toNat + 1 - s.cfg.secHdrLen (unpackSP (inputFrame s)).shFlag⟩] s t
        ∧ t.status.locked = s.status.locked)

/-- R264: after every successful SP_ENCODE, SP_DECODE of its FRAME and FRAME_LEN under the same configuration, whatever
every other register and buffer has been overwritten with, succeeds and restores the packet registers, PAYLOAD_LEN, the
payload and, when the flag is 1, the secondary header, SP_DATA_LEN as SP_ENCODE wrote it. -/
def Obligations.PacketRoundTrip : Prop :=
  ∀ s t v : State, exec .spEncode s = .next t → t.status.code = .ok → v.holdsFrameOf t → v.cfg = t.cfg →
    ∃ u, exec .spDecode v = .next u ∧ u.status.code = .ok ∧ u.sp = t.sp
      ∧ u.sp = { s.sp with dataLen := t.sp.dataLen }
      ∧ u.payloadLen = s.payloadLen
      ∧ u.octets .payload 0 s.payloadLen.toNat = s.octets .payload 0 s.payloadLen.toNat
      ∧ (s.sp.shFlag = 1 → u.octets .spsh 0 s.cfg.spShLen.toNat = s.octets .spsh 0 s.cfg.spShLen.toNat)

/-- R263: after every successful SP_ENCODE or SP_DECODE, SP_DATA_LEN + 1 is the secondary header length used plus
PAYLOAD_LEN, and FRAME_LEN = 7 + SP_DATA_LEN. -/
def Obligations.PacketLengthLaw : Prop :=
  ∀ (i : Instr) (s t : State), i = .spEncode ∨ i = .spDecode → exec i s = .next t → t.status.code = .ok →
    t.sp.dataLen.toNat + 1 = (if t.sp.shFlag = 1 then t.cfg.spShLen.toNat else 0) + t.payloadLen.toNat
    ∧ t.frameLen.toNat = 7 + t.sp.dataLen.toNat
end

