-- ==== Sys2Proof/Laws/Memory.lean ====
section
/-! SUPPORT. What a block write does to memory (R13), that it keeps the canonical form, and what the octets of the
buffers read as after a store (R36, R37, R73). -/
namespace Sys2Proof.Machine

/-! ## Listed octets -/

theorem Memory.get?_append (m n : Memory) (x : Nat) :
    Memory.get? (m ++ n) x = (Memory.get? m x).or (Memory.get? n x) := by
  induction m with
  | nil => rfl
  | cons c m ih =>
    by_cases h : c.1 = x
    · simp [Memory.get?, h]
    · simp [Memory.get?, h, ih]

theorem Memory.get?_filter (m : Memory) (p : Nat → Bool) (x : Nat) :
    Memory.get? (m.filter fun c => p c.1) x = if p x then Memory.get? m x else none := by
  induction m with
  | nil => simp [Memory.get?]
  | cons c m ih =>
    by_cases hp : p c.1 <;> by_cases h : c.1 = x
    · subst h; simp [Memory.get?, hp]
    · simp [Memory.get?, hp, h, ih]
    · subst h; simp [hp, ih]
    · simp [Memory.get?, hp, h, ih]

theorem Memory.get?_cellsFrom (a : Nat) (vs : List Byte) (x : Nat) :
    Memory.get? (cellsFrom a vs) x = if a ≤ x then vs[x - a]? else none := by
  induction vs generalizing a with
  | nil => simp [cellsFrom, Memory.get?]
  | cons v vs ih =>
    by_cases h : a = x
    · subst h; simp [cellsFrom, Memory.get?]
    · rw [cellsFrom, Memory.get?, if_neg h, ih]
      by_cases hx : a ≤ x
      · have h1 : x - a = (x - (a + 1)) + 1 := by omega
        rw [if_pos (by omega), if_pos hx, h1, List.getElem?_cons_succ]
      · rw [if_neg (by omega), if_neg hx]

/-- A block write lists its octets and leaves every other octet as it was (R13). -/
theorem Memory.get?_writeBlock (m : Memory) (a : Nat) (vs : List Byte) (x : Nat) :
    Memory.get? (m.writeBlock a vs) x
      = if a ≤ x ∧ x < a + vs.length then vs[x - a]? else Memory.get? m x := by
  rw [Memory.writeBlock, Memory.get?_append, Memory.get?_append, Memory.get?_cellsFrom,
    Memory.get?_filter m (fun y => decide (y < a)), Memory.get?_filter m (fun y => decide (a + vs.length ≤ y))]
  by_cases h1 : x < a
  · rw [if_neg (by omega : ¬(a ≤ x ∧ x < a + vs.length))]
    have h2 : ¬ a ≤ x := by omega
    have h3 : ¬ a + vs.length ≤ x := by omega
    simp [h1, h2, h3]
  · have h2 : a ≤ x := by omega
    by_cases h3 : x < a + vs.length
    · have h4 : x - a < vs.length := by omega
      simp [h1, h2, h3, h4]
    · have h4 : ¬ x - a < vs.length := by omega
      have h5 : a + vs.length ≤ x := by omega
      simp [h1, h2, h3, h5, List.getElem?_eq_none (show vs.length ≤ x - a by omega)]

theorem mem_cellsFrom {a : Nat} {vs : List Byte} {c : Host.Cell} (h : c ∈ cellsFrom a vs) :
    a ≤ c.1 ∧ c.1 < a + vs.length := by
  induction vs generalizing a with
  | nil => cases h
  | cons v vs ih =>
    rcases List.mem_cons.mp h with rfl | h
    · simp
    · have := ih h
      simp only [List.length_cons]
      omega

theorem pairwise_cellsFrom (a : Nat) (vs : List Byte) : (cellsFrom a vs).Pairwise fun c d => c.1 < d.1 := by
  induction vs generalizing a with
  | nil => exact List.Pairwise.nil
  | cons v vs ih =>
    refine List.Pairwise.cons (fun c hc => ?_) (ih (a + 1))
    have := mem_cellsFrom hc
    simp only
    omega

/-- The one memory operation keeps the canonical form, if the block lies in buffer windows. -/
theorem Memory.wf_writeBlock (m : Memory) (a : Nat) (vs : List Byte) (hm : Memory.wf m)
    (hin : ∀ i, i < vs.length → (bufAt (a + i)).isSome = true) : Memory.wf (m.writeBlock a vs) := by
  obtain ⟨hs, hw⟩ := hm
  constructor
  · refine List.pairwise_append.mpr ⟨List.pairwise_append.mpr ⟨hs.filter _, pairwise_cellsFrom a vs, ?_⟩,
      hs.filter _, ?_⟩
    · intro c hc d hd
      have h1 := mem_cellsFrom hd
      have h2 : c.1 < a := by simpa using (List.mem_filter.mp hc).2
      omega
    · intro c hc d hd
      have h1 : a + vs.length ≤ d.1 := by simpa using (List.mem_filter.mp hd).2
      rcases List.mem_append.mp hc with hc | hc
      · have h2 : c.1 < a := by simpa using (List.mem_filter.mp hc).2
        omega
      · have h2 := mem_cellsFrom hc
        omega
  · intro c hc
    rcases List.mem_append.mp hc with hc | hc
    · rcases List.mem_append.mp hc with hc | hc
      · exact hw c (List.mem_filter.mp hc).1
      · have h1 := mem_cellsFrom hc
        have := hin (c.1 - a) (by omega)
        rwa [show a + (c.1 - a) = c.1 by omega] at this
    · exact hw c (List.mem_filter.mp hc).1

/-! ## The address map -/

/-- Every octet of a buffer lies in that buffer's window and in no other (R37, R71). -/
theorem inWindow_base (b c : Buf) (i : Nat) (hi : i < b.size) : inWindow c (bufBase b + i) = decide (c = b) := by
  rw [inWindow, Bool.eq_iff_iff, Bool.and_eq_true, decide_eq_true_iff, decide_eq_true_iff, decide_eq_true_iff]
  cases b <;> simp only [Buf.size, Config.sechdrSize, Config.sectrlSize, Config.ocfSize, Config.fecfSize,
    Config.frameSize, Config.payloadSize, Config.izSize, Config.spshSize] at hi <;>
    cases c <;> simp only [bufBase, Buf.size, Config.sechdrSize, Config.sectrlSize, Config.ocfSize,
      Config.fecfSize, Config.frameSize, Config.payloadSize, Config.izSize, Config.spshSize, reduceCtorEq,
      iff_false, iff_true] <;> omega

theorem bufAt_window (b : Buf) (i : Nat) (hi : i < b.size) : bufAt (bufBase b + i) = some b := by
  simp only [bufAt, inWindow_base b _ i hi]
  cases b <;> rfl

/-- Octets of two buffers, or two octets of one, never share a block offset (R37). -/
theorem window_injective {b c : Buf} {i j : Nat} (hi : i < b.size) (hj : j < c.size)
    (h : bufBase b + i = bufBase c + j) : b = c ∧ i = j := by
  have h1 := bufAt_window b i hi
  rw [h, bufAt_window c j hj] at h1
  cases h1
  exact ⟨rfl, by omega⟩

/-! ## What octets read as -/

theorem State.byte_congr {s t : State} (hm : s.mem = t.mem) (hd : s.draws = t.draws) (a : Nat) :
    s.byte a = t.byte a := by
  simp only [State.byte, hm, hd]

theorem State.byte_store (s : State) (b : Buf) (i : Nat) (vs : List Byte) (x : Nat) :
    (s.store b i vs).byte x
      = if bufBase b + i ≤ x ∧ x < bufBase b + i + vs.length then vs.getD (x - (bufBase b + i)) 0 else s.byte x := by
  simp only [State.byte, State.store, Memory.get?_writeBlock]
  by_cases h : bufBase b + i ≤ x ∧ x < bufBase b + i + vs.length
  · rw [if_pos h, if_pos h, List.getElem?_eq_getElem (by omega), List.getD_eq_getElem _ _ (by omega)]
  · rw [if_neg h, if_neg h]

@[simp] theorem State.length_bytes (s : State) (a n : Nat) : (s.bytes a n).length = n := by
  induction n generalizing a with
  | zero => rfl
  | succ n ih => simp [State.bytes, ih]

theorem State.getElem?_bytes (s : State) (a n j : Nat) :
    (s.bytes a n)[j]? = if j < n then some (s.byte (a + j)) else none := by
  induction n generalizing a j with
  | zero => simp [State.bytes]
  | succ n ih =>
    cases j with
    | zero => simp [State.bytes]
    | succ j =>
      rw [State.bytes, List.getElem?_cons_succ, ih, show a + 1 + j = a + (j + 1) by omega]
      by_cases h : j < n
      · rw [if_pos h, if_pos (by omega)]
      · rw [if_neg h, if_neg (by omega)]

theorem State.getD_bytes (s : State) (a n j : Nat) (h : j < n) : (s.bytes a n).getD j 0 = s.byte (a + j) := by
  rw [List.getD_eq_getElem?_getD, State.getElem?_bytes, if_pos h]; rfl

theorem State.bytes_congr {s t : State} (a a' n : Nat) (h : ∀ j, j < n → s.byte (a + j) = t.byte (a' + j)) :
    s.bytes a n = t.bytes a' n := by
  apply List.ext_getElem?
  intro j
  rw [State.getElem?_bytes, State.getElem?_bytes]
  by_cases hj : j < n
  · rw [if_pos hj, if_pos hj, h j hj]
  · rw [if_neg hj, if_neg hj]

theorem State.bytes_add (s : State) (a n k : Nat) : s.bytes a (n + k) = s.bytes a n ++ s.bytes (a + n) k := by
  induction n generalizing a with
  | zero => simp [State.bytes]
  | succ n ih => rw [Nat.succ_add, State.bytes, State.bytes, ih, List.cons_append, Nat.add_right_comm, Nat.add_assoc]

@[simp] theorem State.length_octets (s : State) (b : Buf) (i n : Nat) : (s.octets b i n).length = n := by
  simp [State.octets]

theorem State.getD_octets (s : State) (b : Buf) (i n j : Nat) (h : j < n) :
    (s.octets b i n).getD j 0 = s.octet b (i + j) := by
  rw [State.octets, State.getD_bytes _ _ _ _ h, State.octet, Nat.add_assoc]

theorem State.octets_congr {s t : State} (b : Buf) (i n : Nat)
    (h : ∀ j, j < n → s.octet b (i + j) = t.octet b (i + j)) : s.octets b i n = t.octets b i n := by
  apply State.bytes_congr
  intro j hj
  have := h j hj
  simpa only [State.octet, Nat.add_assoc] using this

theorem State.octets_add (s : State) (b : Buf) (i n k : Nat) :
    s.octets b i (n + k) = s.octets b i n ++ s.octets b (i + n) k := by
  rw [State.octets, State.bytes_add, State.octets, State.octets, Nat.add_assoc]

theorem State.take_octets (s : State) (b : Buf) (i n k : Nat) (h : k ≤ n) :
    (s.octets b i n).take k = s.octets b i k := by
  obtain ⟨m, rfl⟩ := Nat.exists_eq_add_of_le h
  rw [State.octets_add, List.take_left' (State.length_octets _ _ _ _)]

theorem State.drop_octets (s : State) (b : Buf) (i n k : Nat) (h : k ≤ n) :
    (s.octets b i n).drop k = s.octets b (i + k) (n - k) := by
  obtain ⟨m, rfl⟩ := Nat.exists_eq_add_of_le h
  rw [State.octets_add, List.drop_left' (State.length_octets _ _ _ _), Nat.add_sub_cancel_left]

/-- The octets just stored read back. -/
theorem State.octets_store_same (s : State) (b : Buf) (i : Nat) (vs : List Byte) :
    (s.store b i vs).octets b i vs.length = vs := by
  apply List.ext_getElem?
  intro j
  rw [State.octets, State.getElem?_bytes]
  by_cases hj : j < vs.length
  · rw [if_pos hj, State.byte_store, if_pos (by omega), Nat.add_sub_cancel_left, List.getElem?_eq_getElem hj,
      List.getD_eq_getElem _ _ hj]
  · rw [if_neg hj, List.getElem?_eq_none (by omega)]

/-- One octet of a buffer after a store that stays inside its own buffer (R13, R37). -/
theorem State.octet_store (s : State) (b c : Buf) (i j : Nat) (vs : List Byte) (hi : i + vs.length ≤ b.size)
    (hj : j < c.size) :
    (s.store b i vs).octet c j = if c = b ∧ i ≤ j ∧ j < i + vs.length then vs.getD (j - i) 0 else s.octet c j := by
  rw [State.octet, State.byte_store]
  by_cases h : bufBase b + i ≤ bufBase c + j ∧ bufBase c + j < bufBase b + i + vs.length
  · have := window_injective (b := c) (c := b) (i := j) (j := bufBase c + j - bufBase b) hj (by omega) (by omega)
    obtain ⟨rfl, hj'⟩ := this
    rw [if_pos h, if_pos ⟨rfl, by omega, by omega⟩]
    congr 1; omega
  · rw [if_neg h, if_neg]
    · rfl
    · rintro ⟨rfl, h1, h2⟩
      exact h (by omega)

/-- Octets of a buffer that a store does not touch read as before. -/
theorem State.octets_store_apart (s : State) (b c : Buf) (i j n : Nat) (vs : List Byte) (hi : i + vs.length ≤ b.size)
    (hj : j + n ≤ c.size) (h : c ≠ b ∨ j + n ≤ i ∨ i + vs.length ≤ j) :
    (s.store b i vs).octets c j n = s.octets c j n := by
  apply State.octets_congr
  intro k hk
  rw [State.octet_store _ _ _ _ _ _ hi (by omega), if_neg]
  rintro ⟨rfl, h1, h2⟩
  rcases h with h | h | h
  · exact h rfl
  · omega
  · omega

/-- A store inside a buffer's window keeps memory canonical. -/
theorem State.wf_store (s : State) (b : Buf) (i : Nat) (vs : List Byte) (h : Memory.wf s.mem)
    (hi : i + vs.length ≤ b.size) : Memory.wf (s.store b i vs).mem := by
  refine Memory.wf_writeBlock _ _ _ h fun j hj => ?_
  rw [Nat.add_assoc, bufAt_window b (i + j) (by omega)]
  rfl

end Sys2Proof.Machine
end

