-- ==== Sys2Proof/Laws/State.lean ====
section
/-! SUPPORT. One lemma per field for each named update of the state, so that no proof unfolds a record update. -/
namespace Sys2Proof.Machine

/-! ## A store changes memory alone (R13) -/

@[simp] theorem State.store_frameLen (s : State) (b : Buf) (i : Nat) (vs : List Byte) : (s.store b i vs).frameLen = s.frameLen := rfl
@[simp] theorem State.store_payloadLen (s : State) (b : Buf) (i : Nat) (vs : List Byte) : (s.store b i vs).payloadLen = s.payloadLen := rfl
@[simp] theorem State.store_ocfValid (s : State) (b : Buf) (i : Nat) (vs : List Byte) : (s.store b i vs).ocfValid = s.ocfValid := rfl
@[simp] theorem State.store_dfhFhpPresent (s : State) (b : Buf) (i : Nat) (vs : List Byte) : (s.store b i vs).dfhFhpPresent = s.dfhFhpPresent := rfl
@[simp] theorem State.store_cfg (s : State) (b : Buf) (i : Nat) (vs : List Byte) : (s.store b i vs).cfg = s.cfg := rfl
@[simp] theorem State.store_hdr (s : State) (b : Buf) (i : Nat) (vs : List Byte) : (s.store b i vs).hdr = s.hdr := rfl
@[simp] theorem State.store_dfh (s : State) (b : Buf) (i : Nat) (vs : List Byte) : (s.store b i vs).dfh = s.dfh := rfl
@[simp] theorem State.store_sp (s : State) (b : Buf) (i : Nat) (vs : List Byte) : (s.store b i vs).sp = s.sp := rfl
@[simp] theorem State.store_fld (s : State) (b : Buf) (i : Nat) (vs : List Byte) : (s.store b i vs).fld = s.fld := rfl
@[simp] theorem State.store_latched (s : State) (b : Buf) (i : Nat) (vs : List Byte) : (s.store b i vs).latched = s.latched := rfl
@[simp] theorem State.store_status (s : State) (b : Buf) (i : Nat) (vs : List Byte) : (s.store b i vs).status = s.status := rfl
@[simp] theorem State.store_draws (s : State) (b : Buf) (i : Nat) (vs : List Byte) : (s.store b i vs).draws = s.draws := rfl
@[simp] theorem State.store_hazardWindow (s : State) (b : Buf) (i : Nat) (vs : List Byte) : (s.store b i vs).hazardWindow = s.hazardWindow := rfl
@[simp] theorem State.store_program (s : State) (b : Buf) (i : Nat) (vs : List Byte) : (s.store b i vs).program = s.program := rfl
@[simp] theorem State.store_schedule (s : State) (b : Buf) (i : Nat) (vs : List Byte) : (s.store b i vs).schedule = s.schedule := rfl
@[simp] theorem State.store_observed (s : State) (b : Buf) (i : Nat) (vs : List Byte) : (s.store b i vs).observed = s.observed := rfl
@[simp] theorem State.store_mem (s : State) (b : Buf) (i : Nat) (vs : List Byte) : (s.store b i vs).mem = Memory.writeBlock s.mem (bufBase b + i) vs := rfl

/-! ## An accept changes LATCHED, STATUS and the window (R23) -/

@[simp] theorem State.accept_frameLen (s : State) (w : Word) : (s.accept w).frameLen = s.frameLen := rfl
@[simp] theorem State.accept_payloadLen (s : State) (w : Word) : (s.accept w).payloadLen = s.payloadLen := rfl
@[simp] theorem State.accept_ocfValid (s : State) (w : Word) : (s.accept w).ocfValid = s.ocfValid := rfl
@[simp] theorem State.accept_dfhFhpPresent (s : State) (w : Word) : (s.accept w).dfhFhpPresent = s.dfhFhpPresent := rfl
@[simp] theorem State.accept_cfg (s : State) (w : Word) : (s.accept w).cfg = s.cfg := rfl
@[simp] theorem State.accept_hdr (s : State) (w : Word) : (s.accept w).hdr = s.hdr := rfl
@[simp] theorem State.accept_dfh (s : State) (w : Word) : (s.accept w).dfh = s.dfh := rfl
@[simp] theorem State.accept_sp (s : State) (w : Word) : (s.accept w).sp = s.sp := rfl
@[simp] theorem State.accept_fld (s : State) (w : Word) : (s.accept w).fld = s.fld := rfl
@[simp] theorem State.accept_mem (s : State) (w : Word) : (s.accept w).mem = s.mem := rfl
@[simp] theorem State.accept_draws (s : State) (w : Word) : (s.accept w).draws = s.draws := rfl
@[simp] theorem State.accept_program (s : State) (w : Word) : (s.accept w).program = s.program := rfl
@[simp] theorem State.accept_schedule (s : State) (w : Word) : (s.accept w).schedule = s.schedule := rfl
@[simp] theorem State.accept_observed (s : State) (w : Word) : (s.accept w).observed = s.observed := rfl
@[simp] theorem State.accept_latched (s : State) (w : Word) : (s.accept w).latched = w := rfl
@[simp] theorem State.accept_hazardWindow (s : State) (w : Word) : (s.accept w).hazardWindow = true := rfl
@[simp] theorem State.accept_status (s : State) (w : Word) : (s.accept w).status = ⟨.ok, true, false, s.status.locked, s.status.spareNz⟩ := rfl

/-! ## Advancing the schedule changes nothing else -/

@[simp] theorem State.advanceSchedule_frameLen (s : State) : (s.advanceSchedule).frameLen = s.frameLen := rfl
@[simp] theorem State.advanceSchedule_payloadLen (s : State) : (s.advanceSchedule).payloadLen = s.payloadLen := rfl
@[simp] theorem State.advanceSchedule_ocfValid (s : State) : (s.advanceSchedule).ocfValid = s.ocfValid := rfl
@[simp] theorem State.advanceSchedule_dfhFhpPresent (s : State) : (s.advanceSchedule).dfhFhpPresent = s.dfhFhpPresent := rfl
@[simp] theorem State.advanceSchedule_cfg (s : State) : (s.advanceSchedule).cfg = s.cfg := rfl
@[simp] theorem State.advanceSchedule_hdr (s : State) : (s.advanceSchedule).hdr = s.hdr := rfl
@[simp] theorem State.advanceSchedule_dfh (s : State) : (s.advanceSchedule).dfh = s.dfh := rfl
@[simp] theorem State.advanceSchedule_sp (s : State) : (s.advanceSchedule).sp = s.sp := rfl
@[simp] theorem State.advanceSchedule_fld (s : State) : (s.advanceSchedule).fld = s.fld := rfl
@[simp] theorem State.advanceSchedule_latched (s : State) : (s.advanceSchedule).latched = s.latched := rfl
@[simp] theorem State.advanceSchedule_status (s : State) : (s.advanceSchedule).status = s.status := rfl
@[simp] theorem State.advanceSchedule_mem (s : State) : (s.advanceSchedule).mem = s.mem := rfl
@[simp] theorem State.advanceSchedule_draws (s : State) : (s.advanceSchedule).draws = s.draws := rfl
@[simp] theorem State.advanceSchedule_hazardWindow (s : State) : (s.advanceSchedule).hazardWindow = s.hazardWindow := rfl
@[simp] theorem State.advanceSchedule_program (s : State) : (s.advanceSchedule).program = s.program := rfl
@[simp] theorem State.advanceSchedule_observed (s : State) : (s.advanceSchedule).observed = s.observed := rfl
@[simp] theorem State.advanceSchedule_schedule (s : State) : (s.advanceSchedule).schedule = s.schedule.tail := rfl

/-! ## A failing command changes STATUS alone (R303) -/

@[simp] theorem complete_raise_frameLen (s : State) (e : ErrorKind) : (complete s (.raise e)).frameLen = s.frameLen := rfl
@[simp] theorem complete_raise_payloadLen (s : State) (e : ErrorKind) : (complete s (.raise e)).payloadLen = s.payloadLen := rfl
@[simp] theorem complete_raise_ocfValid (s : State) (e : ErrorKind) : (complete s (.raise e)).ocfValid = s.ocfValid := rfl
@[simp] theorem complete_raise_dfhFhpPresent (s : State) (e : ErrorKind) : (complete s (.raise e)).dfhFhpPresent = s.dfhFhpPresent := rfl
@[simp] theorem complete_raise_cfg (s : State) (e : ErrorKind) : (complete s (.raise e)).cfg = s.cfg := rfl
@[simp] theorem complete_raise_hdr (s : State) (e : ErrorKind) : (complete s (.raise e)).hdr = s.hdr := rfl
@[simp] theorem complete_raise_dfh (s : State) (e : ErrorKind) : (complete s (.raise e)).dfh = s.dfh := rfl
@[simp] theorem complete_raise_sp (s : State) (e : ErrorKind) : (complete s (.raise e)).sp = s.sp := rfl
@[simp] theorem complete_raise_fld (s : State) (e : ErrorKind) : (complete s (.raise e)).fld = s.fld := rfl
@[simp] theorem complete_raise_latched (s : State) (e : ErrorKind) : (complete s (.raise e)).latched = s.latched := rfl
@[simp] theorem complete_raise_mem (s : State) (e : ErrorKind) : (complete s (.raise e)).mem = s.mem := rfl
@[simp] theorem complete_raise_draws (s : State) (e : ErrorKind) : (complete s (.raise e)).draws = s.draws := rfl
@[simp] theorem complete_raise_hazardWindow (s : State) (e : ErrorKind) : (complete s (.raise e)).hazardWindow = s.hazardWindow := rfl
@[simp] theorem complete_raise_program (s : State) (e : ErrorKind) : (complete s (.raise e)).program = s.program := rfl
@[simp] theorem complete_raise_schedule (s : State) (e : ErrorKind) : (complete s (.raise e)).schedule = s.schedule := rfl
@[simp] theorem complete_raise_observed (s : State) (e : ErrorKind) : (complete s (.raise e)).observed = s.observed := rfl
@[simp] theorem complete_raise_status (s : State) (e : ErrorKind) : (complete s (.raise e)).status = ⟨.err e, false, true, s.status.locked, false⟩ := rfl

/-! ## A successful command completes in the state it committed (R302) -/

@[simp] theorem complete_commit_frameLen (s t : State) (nz : Bool) : (complete s (.commit t nz)).frameLen = t.frameLen := rfl
@[simp] theorem complete_commit_payloadLen (s t : State) (nz : Bool) : (complete s (.commit t nz)).payloadLen = t.payloadLen := rfl
@[simp] theorem complete_commit_ocfValid (s t : State) (nz : Bool) : (complete s (.commit t nz)).ocfValid = t.ocfValid := rfl
@[simp] theorem complete_commit_dfhFhpPresent (s t : State) (nz : Bool) : (complete s (.commit t nz)).dfhFhpPresent = t.dfhFhpPresent := rfl
@[simp] theorem complete_commit_cfg (s t : State) (nz : Bool) : (complete s (.commit t nz)).cfg = t.cfg := rfl
@[simp] theorem complete_commit_hdr (s t : State) (nz : Bool) : (complete s (.commit t nz)).hdr = t.hdr := rfl
@[simp] theorem complete_commit_dfh (s t : State) (nz : Bool) : (complete s (.commit t nz)).dfh = t.dfh := rfl
@[simp] theorem complete_commit_sp (s t : State) (nz : Bool) : (complete s (.commit t nz)).sp = t.sp := rfl
@[simp] theorem complete_commit_fld (s t : State) (nz : Bool) : (complete s (.commit t nz)).fld = t.fld := rfl
@[simp] theorem complete_commit_latched (s t : State) (nz : Bool) : (complete s (.commit t nz)).latched = t.latched := rfl
@[simp] theorem complete_commit_mem (s t : State) (nz : Bool) : (complete s (.commit t nz)).mem = t.mem := rfl
@[simp] theorem complete_commit_draws (s t : State) (nz : Bool) : (complete s (.commit t nz)).draws = t.draws := rfl
@[simp] theorem complete_commit_hazardWindow (s t : State) (nz : Bool) : (complete s (.commit t nz)).hazardWindow = t.hazardWindow := rfl
@[simp] theorem complete_commit_program (s t : State) (nz : Bool) : (complete s (.commit t nz)).program = t.program := rfl
@[simp] theorem complete_commit_schedule (s t : State) (nz : Bool) : (complete s (.commit t nz)).schedule = t.schedule := rfl
@[simp] theorem complete_commit_observed (s t : State) (nz : Bool) : (complete s (.commit t nz)).observed = t.observed := rfl
@[simp] theorem complete_commit_status (s t : State) (nz : Bool) :
    (complete s (.commit t nz)).status = ⟨.ok, false, true, t.status.locked, nz⟩ := rfl

/-! ## Octets after an update that leaves memory alone -/

@[simp] theorem State.byte_accept (s : State) (w : Word) (a : Nat) : (s.accept w).byte a = s.byte a := rfl

@[simp] theorem State.bytes_accept (s : State) (w : Word) (a n : Nat) : (s.accept w).bytes a n = s.bytes a n := by
  induction n generalizing a with
  | zero => rfl
  | succ n ih => rw [State.bytes, State.bytes, ih, State.byte_accept]

@[simp] theorem State.octets_accept (s : State) (w : Word) (b : Buf) (i n : Nat) :
    (s.accept w).octets b i n = s.octets b i n := State.bytes_accept s w _ n

@[simp] theorem State.byte_complete_raise (s : State) (e : ErrorKind) (a : Nat) :
    (complete s (.raise e)).byte a = s.byte a := rfl

@[simp] theorem State.byte_complete_commit (s t : State) (nz : Bool) (a : Nat) :
    (complete s (.commit t nz)).byte a = t.byte a := rfl

/-! ## Registers by name (R13, R22) -/

/-- Setting a register that stores values sets it and no other. -/
theorem State.readReg_setReg (s : State) (r q : Reg) (v : Word) (h : r ≠ .cmd ∧ r ≠ .status) :
    (s.setReg r v).readReg q = if q = r then v else s.readReg q := by
  obtain ⟨h1, h2⟩ := h
  cases r <;> first | exact absurd rfl h1 | exact absurd rfl h2 | (cases q <;> rfl)

@[simp] theorem State.setReg_mem (s : State) (r : Reg) (v : Word) : (s.setReg r v).mem = s.mem := by
  cases r <;> rfl

@[simp] theorem State.setReg_draws (s : State) (r : Reg) (v : Word) : (s.setReg r v).draws = s.draws := by
  cases r <;> rfl

@[simp] theorem State.setReg_status (s : State) (r : Reg) (v : Word) : (s.setReg r v).status = s.status := by
  cases r <;> rfl

@[simp] theorem State.setReg_latched (s : State) (r : Reg) (v : Word) : (s.setReg r v).latched = s.latched := by
  cases r <;> rfl

@[simp] theorem State.setReg_hazardWindow (s : State) (r : Reg) (v : Word) :
    (s.setReg r v).hazardWindow = s.hazardWindow := by
  cases r <;> rfl

@[simp] theorem State.setReg_program (s : State) (r : Reg) (v : Word) : (s.setReg r v).program = s.program := by
  cases r <;> rfl

@[simp] theorem State.setReg_schedule (s : State) (r : Reg) (v : Word) : (s.setReg r v).schedule = s.schedule := by
  cases r <;> rfl

@[simp] theorem State.setReg_observed (s : State) (r : Reg) (v : Word) : (s.setReg r v).observed = s.observed := by
  cases r <;> rfl

/-- The registers are told apart by what they read as: two states whose registers all read alike agree on every
register field but STATUS's own. -/
theorem State.fields_of_readReg {s t : State} (h : ∀ r, r ≠ .status → s.readReg r = t.readReg r) :
    s.cfg = t.cfg ∧ s.hdr = t.hdr ∧ s.dfh = t.dfh ∧ s.sp = t.sp ∧ s.fld = t.fld := by
  refine ⟨?_, ?_, ?_, ?_, ?_⟩
  · have e1 := h .cfgVersion (by decide); have e2 := h .cfgScid (by decide); have e3 := h .cfgSrcDst (by decide)
    have e4 := h .cfgMapId (by decide); have e5 := h .cfgIzLen (by decide); have e6 := h .cfgFecfEn (by decide)
    have e7 := h .cfgFcMode (by decide); have e8 := h .cfgStrictSpare (by decide)
    have e9 := h .cfgSpShLen (by decide)
    simp only [State.readReg] at e1 e2 e3 e4 e5 e6 e7 e8 e9
    cases hs : s.cfg; cases ht : t.cfg; simp_all
  · have e1 := h .hdrTfvn (by decide); have e2 := h .hdrScid (by decide); have e3 := h .hdrSrcDst (by decide)
    have e4 := h .hdrVcid (by decide); have e5 := h .hdrMapId (by decide); have e6 := h .hdrEndFlag (by decide)
    have e7 := h .hdrTfLength (by decide); have e8 := h .hdrBypass (by decide); have e9 := h .hdrProtoCmd (by decide)
    have e10 := h .hdrSpare (by decide); have e11 := h .hdrOcfFlag (by decide); have e12 := h .hdrFcLen (by decide)
    have e13 := h .hdrFcValueLo (by decide); have e14 := h .hdrFcValueHi (by decide)
    simp only [State.readReg] at e1 e2 e3 e4 e5 e6 e7 e8 e9 e10 e11 e12 e13 e14
    cases hs : s.hdr; cases ht : t.hdr; simp_all
  · have e1 := h .dfhRule (by decide); have e2 := h .dfhProtoId (by decide); have e3 := h .dfhFhp (by decide)
    simp only [State.readReg] at e1 e2 e3
    cases hs : s.dfh; cases ht : t.dfh; simp_all
  · have e1 := h .spVersion (by decide); have e2 := h .spType (by decide); have e3 := h .spShFlag (by decide)
    have e4 := h .spApid (by decide); have e5 := h .spSeqFlags (by decide); have e6 := h .spSeqCount (by decide)
    have e7 := h .spDataLen (by decide)
    simp only [State.readReg] at e1 e2 e3 e4 e5 e6 e7
    cases hs : s.sp; cases ht : t.sp; simp_all
  · have e1 := h .fldOffset (by decide); have e2 := h .fldWidth (by decide); have e3 := h .fldValueLo (by decide)
    have e4 := h .fldValueHi (by decide)
    simp only [State.readReg] at e1 e2 e3 e4
    cases hs : s.fld; cases ht : t.fld; simp_all

end Sys2Proof.Machine
end

