-- ==== Sys2Proof/Laws/Wire.lean ====
section
/-! SUPPORT. What GetBits, PutBits and the placement of fields do, wire bit by wire bit (R11, R12, R76 to R78). -/
namespace Sys2Proof.Machine

/-! ## One bit -/

theorem getLsbD_setOctetBit (o : Byte) (i j : Nat) (b : Bool) (hi : i < 8) (hj : j < 8) :
    (setOctetBit o i b).getLsbD j = if j = i then b else o.getLsbD j := by
  unfold setOctetBit
  by_cases hji : j = i
  · subst hji
    cases b <;> simp [hj]
  · cases b <;> simp [hji, hj]

@[simp] theorem length_putBit (s : List Byte) (k : Nat) (b : Bool) : (putBit s k b).length = s.length := by
  simp [putBit]

theorem wireBit_putBit (s : List Byte) (k j : Nat) (b : Bool) (hk : k < 8 * s.length) :
    wireBit (putBit s k b) j = if j = k then b else wireBit s j := by
  unfold wireBit putBit
  simp only [List.getD_eq_getElem?_getD, List.getElem?_modify]
  by_cases hoct : k / 8 = j / 8
  · have hj8 : j / 8 < s.length := by omega
    simp only [if_pos hoct, List.getElem?_eq_getElem hj8, Option.map_eq_map, Option.map_some, Option.getD_some]
    rw [getLsbD_setOctetBit _ _ _ _ (by omega) (by omega)]
    by_cases hjk : j = k
    · rw [if_pos (by omega), if_pos hjk]
    · rw [if_neg (by omega), if_neg hjk]
  · rw [if_neg fun h => hoct (by rw [h])]
    simp [hoct]

/-! ## PutBits -/

@[simp] theorem length_putBits (s : List Byte) (off w v : Nat) : (putBits s off w v).length = s.length := by
  induction w generalizing s v with
  | zero => rfl
  | succ w ih => simp [putBits, ih]

/-- PutBits sets the wire bits of its field to the digits of `v`, most significant first, and no other (R12). -/
theorem wireBit_putBits (s : List Byte) (off w v j : Nat) (h : off + w ≤ 8 * s.length) :
    wireBit (putBits s off w v) j
      = if off ≤ j ∧ j < off + w then v.testBit (off + w - 1 - j) else wireBit s j := by
  induction w generalizing s v with
  | zero => rw [if_neg (by omega)]; rfl
  | succ w ih =>
    rw [putBits, ih _ _ (by simp; omega), wireBit_putBit _ _ _ _ (by omega)]
    by_cases hin : off ≤ j ∧ j < off + w
    · rw [if_pos hin, if_pos (by omega), Nat.testBit_div_two]
      congr 1; omega
    · rw [if_neg hin]
      by_cases hlast : j = off + w
      · rw [if_pos hlast, if_pos (by omega)]
        congr 1; omega
      · rw [if_neg hlast, if_neg (by omega)]

/-! ## GetBits -/

theorem getBits_lt (s : List Byte) (off w : Nat) : getBits s off w < 2 ^ w := by
  induction w with
  | zero => simp [getBits]
  | succ w ih =>
    have := (wireBit s (off + w)).toNat_le
    simp only [getBits, Nat.pow_succ]
    omega

/-- Digit `i` of GetBits, counted from the least significant, is the wire bit at the field's far end less `i` (R12). -/
theorem testBit_getBits (s : List Byte) (off w i : Nat) (hi : i < w) :
    (getBits s off w).testBit i = wireBit s (off + w - 1 - i) := by
  induction w generalizing i with
  | zero => omega
  | succ w ih =>
    rw [getBits]
    cases i with
    | zero =>
      have : off + (w + 1) - 1 - 0 = off + w := by omega
      rw [this]
      cases wireBit s (off + w) <;> simp [Nat.testBit_zero]
    | succ i =>
      rw [Nat.testBit_succ]
      have hdiv : (2 * getBits s off w + (wireBit s (off + w)).toNat) / 2 = getBits s off w := by
        have := (wireBit s (off + w)).toNat_le
        omega
      rw [hdiv, ih i (by omega)]
      congr 1; omega

theorem getBits_congr (s t : List Byte) (off off' w : Nat)
    (h : ∀ i, i < w → wireBit s (off + i) = wireBit t (off' + i)) : getBits s off w = getBits t off' w := by
  induction w with
  | zero => rfl
  | succ w ih => rw [getBits, getBits, ih fun i hi => h i (by omega), h w (by omega)]

/-- A field read at its own offset and width gives the value written (R78, R152). -/
theorem getBits_putBits_same (s : List Byte) (off w v : Nat) (h : off + w ≤ 8 * s.length) (hv : v < 2 ^ w) :
    getBits (putBits s off w v) off w = v := by
  apply Nat.eq_of_testBit_eq
  intro i
  by_cases hi : i < w
  · rw [testBit_getBits _ _ _ _ hi, wireBit_putBits _ _ _ _ _ h, if_pos (by omega)]
    congr 1; omega
  · rw [Nat.testBit_lt_two_pow (Nat.lt_of_lt_of_le (getBits_lt _ _ _) (Nat.pow_le_pow_right (by omega) (by omega))),
      Nat.testBit_lt_two_pow (Nat.lt_of_lt_of_le hv (Nat.pow_le_pow_right (by omega) (by omega)))]

/-- A field apart from the one written reads as before (R77). -/
theorem getBits_putBits_apart (s : List Byte) (off w v off' w' : Nat) (h : off + w ≤ 8 * s.length)
    (hd : off' + w' ≤ off ∨ off + w ≤ off') : getBits (putBits s off w v) off' w' = getBits s off' w' := by
  apply getBits_congr
  intro i hi
  rw [wireBit_putBits _ _ _ _ _ h, if_neg (by omega)]

/-- A field read in two parts: the first part holds the high digits (R78). -/
theorem getBits_add (s : List Byte) (off w w' : Nat) :
    getBits s off (w + w') = getBits s off w * 2 ^ w' + getBits s (off + w) w' := by
  induction w' with
  | zero => simp [getBits]
  | succ w' ih =>
    rw [← Nat.add_assoc, getBits, ih, getBits, Nat.pow_succ, Nat.add_assoc off w w']
    ring

/-! ## Octets -/

/-- Eight wire bits from an octet boundary on are the octet (R11). -/
theorem getBits_octet (s : List Byte) (i : Nat) : getBits s (8 * i) 8 = (s.getD i 0).toNat := by
  apply Nat.eq_of_testBit_eq
  intro j
  by_cases hj : j < 8
  · rw [testBit_getBits _ _ _ _ hj, wireBit]
    have h1 : (8 * i + 8 - 1 - j) / 8 = i := by omega
    have h2 : 7 - (8 * i + 8 - 1 - j) % 8 = j := by omega
    rw [h1, h2]; simp [BitVec.getLsbD]
  · have hlt : (s.getD i 0).toNat < 2 ^ 8 := (s.getD i 0).isLt
    rw [Nat.testBit_lt_two_pow (Nat.lt_of_lt_of_le (getBits_lt _ _ _) (Nat.pow_le_pow_right (by omega) (by omega))),
      Nat.testBit_lt_two_pow (Nat.lt_of_lt_of_le hlt (Nat.pow_le_pow_right (by omega) (by omega)))]

/-- Two sequences of one length with the same wire bits are the same sequence. -/
theorem eq_of_wireBit_eq (s t : List Byte) (hl : s.length = t.length)
    (h : ∀ k, k < 8 * s.length → wireBit s k = wireBit t k) : s = t := by
  apply List.ext_getElem hl
  intro i hi hi'
  have hbits : getBits s (8 * i) 8 = getBits t (8 * i) 8 := getBits_congr _ _ _ _ _ fun j hj => h _ (by omega)
  rw [getBits_octet, getBits_octet] at hbits
  have := BitVec.eq_of_toNat_eq hbits
  simpa [List.getD_eq_getElem?_getD, List.getElem?_eq_getElem, hi, hi'] using this

theorem wireBit_append (s t : List Byte) (k : Nat) :
    wireBit (s ++ t) k = if k < 8 * s.length then wireBit s k else wireBit t (k - 8 * s.length) := by
  unfold wireBit
  by_cases h : k < 8 * s.length
  · rw [if_pos h, List.getD_append _ _ _ _ (by omega)]
  · rw [if_neg h, List.getD_append_right _ _ _ _ (by omega)]
    have h1 : k / 8 - s.length = (k - 8 * s.length) / 8 := by omega
    have h2 : k % 8 = (k - 8 * s.length) % 8 := by omega
    rw [h1, h2]

theorem getBits_append_left (s t : List Byte) (off w : Nat) (h : off + w ≤ 8 * s.length) :
    getBits (s ++ t) off w = getBits s off w := by
  apply getBits_congr
  intro i hi
  rw [wireBit_append, if_pos (by omega)]

theorem getBits_append_right (s t : List Byte) (off w : Nat) (h : 8 * s.length ≤ off) :
    getBits (s ++ t) off w = getBits t (off - 8 * s.length) w := by
  apply getBits_congr
  intro i hi
  rw [wireBit_append, if_neg (by omega)]
  congr 1; omega

theorem wireBit_take (s : List Byte) (n k : Nat) (h : k < 8 * n) : wireBit (s.take n) k = wireBit s k := by
  have hk : k / 8 < n := by omega
  simp [wireBit, List.getD_eq_getElem?_getD, hk]

theorem getBits_take (s : List Byte) (n off w : Nat) (h : off + w ≤ 8 * n) :
    getBits (s.take n) off w = getBits s off w :=
  getBits_congr _ _ _ _ _ fun i hi => wireBit_take s n _ (by omega)

theorem wireBit_drop (s : List Byte) (n k : Nat) : wireBit (s.drop n) k = wireBit s (8 * n + k) := by
  have h1 : (8 * n + k) / 8 = n + k / 8 := by omega
  have h2 : (8 * n + k) % 8 = k % 8 := by omega
  simp [wireBit, List.getD_eq_getElem?_getD, List.getElem?_drop, h1, h2]

theorem getBits_drop (s : List Byte) (n off w : Nat) : getBits (s.drop n) off w = getBits s (8 * n + off) w :=
  getBits_congr _ _ _ _ _ fun i _ => by rw [wireBit_drop, Nat.add_assoc]

/-! ## Placement of a layout's rows -/

@[simp] theorem length_placeFields (s : List Byte) (fs : List Field) : (placeFields s fs).length = s.length := by
  induction fs generalizing s with
  | nil => rfl
  | cons f fs ih => simp [placeFields, ih]

/-- Two rows share no wire bit. -/
def Field.apart (f g : Field) : Prop := f.offset + f.width ≤ g.offset ∨ g.offset + g.width ≤ f.offset

theorem getBits_placeFields_apart (s : List Byte) (fs : List Field) (off w : Nat)
    (hin : ∀ f ∈ fs, f.offset + f.width ≤ 8 * s.length)
    (hap : ∀ f ∈ fs, off + w ≤ f.offset ∨ f.offset + f.width ≤ off) :
    getBits (placeFields s fs) off w = getBits s off w := by
  induction fs generalizing s with
  | nil => rfl
  | cons f fs ih =>
    rw [placeFields, ih _ (by simpa using fun g hg => hin g (List.mem_cons_of_mem _ hg))
      fun g hg => hap g (List.mem_cons_of_mem _ hg)]
    exact getBits_putBits_apart _ _ _ _ _ _ (hin f List.mem_cons_self) (hap f List.mem_cons_self)

/-- Of rows that lie inside the sequence and are apart, one whose value fits reads back as that value (R153). -/
theorem getBits_placeFields (s : List Byte) (fs : List Field) (hin : ∀ f ∈ fs, f.offset + f.width ≤ 8 * s.length)
    (hap : fs.Pairwise Field.apart) (f : Field) (hf : f ∈ fs) (hfit : f.value < 2 ^ f.width) :
    getBits (placeFields s fs) f.offset f.width = f.value := by
  induction fs generalizing s with
  | nil => cases hf
  | cons g fs ih =>
    have hin' : ∀ f ∈ fs, f.offset + f.width ≤ 8 * (putBits s g.offset g.width g.value).length := by
      simpa using fun f hf => hin f (List.mem_cons_of_mem _ hf)
    rw [placeFields]
    rcases List.mem_cons.mp hf with rfl | hf
    · rw [getBits_placeFields_apart _ _ _ _ hin' fun k hk => (List.pairwise_cons.mp hap).1 k hk]
      exact getBits_putBits_same _ _ _ _ (hin _ List.mem_cons_self) hfit
    · exact ih _ hin' (List.pairwise_cons.mp hap).2 hf

/-! ## Big-endian pairs -/

@[simp] theorem length_be16 (v : Nat) : (be16 v).length = 2 := rfl

/-- The two octets of BE16 give the number back (R13). -/
theorem be16_value (v : Nat) (h : v < 65536) :
    ((be16 v).getD 0 0).toNat * 256 + ((be16 v).getD 1 0).toNat = v := by
  simp only [be16, List.getD_cons_zero, List.getD_cons_succ, BitVec.toNat_ofNat]
  omega

end Sys2Proof.Machine
end

