-- ==== Sys2Proof/Laws/Commands.lean ====
section
/-! SUPPORT. What a command can do, said once: exec always completes an effect, and each effect commits exactly when
its checks pass, with exactly this commit. -/
namespace Sys2Proof.Machine

/-! ## The shape every command has (R301, R302) -/

/-- The effect of each command, the lock check included. -/
def effectOf (i : Instr) (s : State) : Effect :=
  match i with
  | .lockConfig => lockConfigEffect s
  | .writeField => underLock s (writeFieldEffect s)
  | .readField => underLock s (readFieldEffect s)
  | .phEncode => underLock s (phEncodeEffect s)
  | .phDecode => underLock s (phDecodeEffect s)
  | .dfEncode => underLock s (dfEncodeEffect s)
  | .dfDecode => underLock s (dfDecodeEffect s)
  | .tfEncode h => underLock s (tfEncodeEffect h s)
  | .tfDecode => underLock s (tfDecodeEffect s)
  | .spEncode => underLock s (spEncodeEffect s)
  | .spDecode => underLock s (spDecodeEffect s)

/-- Every command ends in completion of its effect: no command faults or is refused (R310, R312). -/
theorem exec_eq (i : Instr) (s : State) : exec i s = .next (complete s (effectOf i s)) := by
  cases i <;> rfl

theorem exec_next_iff {i : Instr} {s t : State} : exec i s = .next t ↔ t = complete s (effectOf i s) := by
  rw [exec_eq]
  constructor
  · intro h; injection h with h; exact h.symm
  · intro h; rw [h]

/-- A command that ends with code OK committed; one that does not raised, and changed STATUS alone (R303). -/
theorem exec_inversion {i : Instr} {s t : State} (h : exec i s = .next t) :
    (∃ c nz, effectOf i s = .commit c nz ∧ t = complete s (.commit c nz) ∧ t.status.code = .ok)
    ∨ (∃ e, effectOf i s = .raise e ∧ t = complete s (.raise e) ∧ t.status.code = .err e) := by
  rw [exec_next_iff] at h
  cases he : effectOf i s with
  | commit c nz => rw [he] at h; exact .inl ⟨c, nz, rfl, h, by rw [h]; rfl⟩
  | raise e => rw [he] at h; exact .inr ⟨e, rfl, h, by rw [h]; rfl⟩

theorem exec_ok_inversion {i : Instr} {s t : State} (h : exec i s = .next t) (hok : t.status.code = .ok) :
    ∃ c nz, effectOf i s = .commit c nz ∧ t = complete s (.commit c nz) := by
  rcases exec_inversion h with ⟨c, nz, he, ht, -⟩ | ⟨e, -, -, hc⟩
  · exact ⟨c, nz, he, ht⟩
  · rw [hok] at hc; cases hc

/-! ## Checks in sequence (R305) -/

theorem Effect.commit_eq_commit {a c : State} {b nz : Bool} :
    Effect.commit a b = .commit c nz ↔ c = a ∧ nz = b := by
  rw [Effect.commit.injEq]; exact and_congr eq_comm eq_comm

@[simp] theorem raiseIf_eq_commit {b : Bool} {e : ErrorKind} {k : Effect} {c : State} {nz : Bool} :
    raiseIf b e k = .commit c nz ↔ b = false ∧ k = .commit c nz := by
  cases b <;> simp [raiseIf]

theorem raiseIf_pos {b : Bool} {e : ErrorKind} {k : Effect} (h : b = true) : raiseIf b e k = .raise e := by
  rw [h]; rfl

theorem raiseIf_neg {b : Bool} {e : ErrorKind} {k : Effect} (h : b = false) : raiseIf b e k = k := by
  rw [h]; rfl

@[simp] theorem underLock_eq_commit {s : State} {k : Effect} {c : State} {nz : Bool} :
    underLock s k = .commit c nz ↔ s.status.locked = true ∧ k = .commit c nz := by
  cases h : s.status.locked <;> simp [underLock, h]

theorem underLock_locked {s : State} {k : Effect} (h : s.status.locked = true) : underLock s k = k := by
  simp [underLock, h]

/-! ## Each effect commits exactly when its checks pass -/

theorem lockConfigEffect_commit {s c : State} {nz : Bool} :
    lockConfigEffect s = .commit c nz
      ↔ s.status.locked = false ∧ s.cfg.legal = true
        ∧ c = { s with status := { s.status with locked := true } } ∧ nz = false := by
  simp [lockConfigEffect, Effect.commit_eq_commit, -Effect.commit.injEq]

theorem checkFieldBounds_commit {s c : State} {k : Effect} {nz : Bool} :
    checkFieldBounds s k = .commit c nz
      ↔ s.fld.width.toNat ≤ 64 ∧ s.frameLen.toNat ≤ Config.frameSize
        ∧ s.fld.offset.toNat + s.fld.width.toNat ≤ 8 * s.frameLen.toNat ∧ k = .commit c nz := by
  simp [checkFieldBounds]

theorem writeFieldEffect_commit {s c : State} {nz : Bool} :
    writeFieldEffect s = .commit c nz
      ↔ s.fld.width.toNat ≤ 64 ∧ s.frameLen.toNat ≤ Config.frameSize
        ∧ s.fld.offset.toNat + s.fld.width.toNat ≤ 8 * s.frameLen.toNat
        ∧ s.fld.value < 2 ^ s.fld.width.toNat
        ∧ c = putFrameBits s s.fld.offset.toNat s.fld.width.toNat s.fld.value ∧ nz = false := by
  simp [writeFieldEffect, checkFieldBounds_commit, Effect.commit_eq_commit, -Effect.commit.injEq]

theorem readFieldEffect_commit {s c : State} {nz : Bool} :
    readFieldEffect s = .commit c nz
      ↔ s.fld.width.toNat ≤ 64 ∧ s.frameLen.toNat ≤ Config.frameSize
        ∧ s.fld.offset.toNat + s.fld.width.toNat ≤ 8 * s.frameLen.toNat
        ∧ c = { s with
                fld := { s.fld with
                  valueLo := pairLo (getBits (inputFrame s) s.fld.offset.toNat s.fld.width.toNat)
                  valueHi := pairHi (getBits (inputFrame s) s.fld.offset.toNat s.fld.width.toNat) } }
        ∧ nz = false := by
  simp [readFieldEffect, checkFieldBounds_commit, inputFrame, Effect.commit_eq_commit, -Effect.commit.injEq]

theorem phEncodeEffect_commit {s c : State} {nz : Bool} :
    phEncodeEffect s = .commit c nz
      ↔ s.hdr.fixedFit = true ∧ s.hdr.countFits s.cfg = true ∧ s.hdr.tfvn = s.cfg.version
        ∧ s.cfg.rejectsSpare s.hdr.spare = false
        ∧ c = { s.store .frame 0 (packPH s.cfg s.hdr) with
                frameLen := BitVec.ofNat 32 (s.cfg.phLen s.hdr.fcLen.toNat) }
        ∧ nz = (s.hdr.spare != 0) := by
  simp [phEncodeEffect, Effect.commit_eq_commit, -Effect.commit.injEq]

theorem checkHeader_commit {g : CfgRegs} {n : Nat} {b : List Byte} {k : Effect} {c : State} {nz : Bool} :
    checkHeader g n b k = .commit c nz
      ↔ 7 ≤ n ∧ g.phLen (selectorOf b) ≤ n ∧ (unpackPH g b).tfvn = g.version
        ∧ g.rejectsSpare (unpackPH g b).spare = false ∧ k = .commit c nz := by
  simp [checkHeader]

theorem phDecodeEffect_commit {s c : State} {nz : Bool} :
    phDecodeEffect s = .commit c nz
      ↔ s.frameLen.toNat ≤ Config.frameSize ∧ 7 ≤ s.frameLen.toNat
        ∧ s.cfg.phLen (selectorOf (inputFrame s)) ≤ s.frameLen.toNat
        ∧ (unpackPH s.cfg (inputFrame s)).tfvn = s.cfg.version
        ∧ s.cfg.rejectsSpare (unpackPH s.cfg (inputFrame s)).spare = false
        ∧ c = { s with hdr := unpackPH s.cfg (inputFrame s) }
        ∧ nz = ((unpackPH s.cfg (inputFrame s)).spare != 0) := by
  simp [phDecodeEffect, checkHeader_commit, inputFrame, Effect.commit_eq_commit, -Effect.commit.injEq]

theorem dfEncodeEffect_commit {s c : State} {nz : Bool} :
    dfEncodeEffect s = .commit c nz
      ↔ s.payloadLen.toNat ≤ Config.payloadSize ∧ s.dfh.selectorsFit = true ∧ s.dfh.pointerFits = true
        ∧ dfLen s.dfh.rule.toNat s.payloadLen.toNat ≤ Config.frameSize
        ∧ c = { s.store .frame 0 (dataFieldOctets s) with
                frameLen := BitVec.ofNat 32 (dfLen s.dfh.rule.toNat s.payloadLen.toNat)
                dfhFhpPresent := flagWord (present s.dfh.rule.toNat) }
        ∧ nz = false := by
  simp [dfEncodeEffect, Effect.commit_eq_commit, -Effect.commit.injEq]

/-- ParseDF answers exactly when its fixed regions are there (R192). -/
theorem parseDF_eq_some {n : Nat} {b : List Byte} {f : DataField} :
    parseDF n b = some f
      ↔ 7 ≤ n ∧ 22 + dfhLen (getBits b 48 3) ≤ n
        ∧ f = { secHdr := b.take 6
                rule := getBits b 48 3
                protoId := getBits b 51 5
                fhp := if dfhLen (getBits b 48 3) = 3 then (b.getD 7 0).toNat * 256 + (b.getD 8 0).toNat else 0
                payload := (b.drop (6 + dfhLen (getBits b 48 3))).take (parsedPayloadLength n b)
                secTrl := (b.drop (6 + dfhLen (getBits b 48 3) + parsedPayloadLength n b)).take 16 } := by
  unfold parseDF parsedPayloadLength
  by_cases h1 : n < 7
  · simp [h1]
  · by_cases h2 : n < 22 + dfhLen (getBits b 48 3)
    · simp [h1, h2]
    · simp only [h1, h2, if_false, Option.some.injEq]
      exact ⟨fun h => ⟨by omega, by omega, h.symm⟩, fun h => h.2.2.symm⟩

theorem dfDecodeEffect_commit {s c : State} {nz : Bool} :
    dfDecodeEffect s = .commit c nz
      ↔ s.frameLen.toNat ≤ Config.frameSize
        ∧ ∃ f, parseDF s.frameLen.toNat (inputFrame s) = some f ∧ c = storeDataField s f ∧ nz = false := by
  have key : dfDecodeEffect s
      = (raiseIf (decide (Config.frameSize < s.frameLen.toNat)) .range <|
        match parseDF s.frameLen.toNat (inputFrame s) with
        | none => .raise .truncatedData
        | some f => .commit (storeDataField s f) false) := rfl
  rw [key]
  cases hp : parseDF s.frameLen.toNat (inputFrame s) <;> simp [Effect.commit_eq_commit, -Effect.commit.injEq]

theorem tfEncodeEffect_commit {h : Bool} {s c : State} {nz : Bool} :
    tfEncodeEffect h s = .commit c nz
      ↔ (h = true → s.cfg.fecfEn ≠ 0) ∧ s.payloadLen.toNat ≤ Config.payloadSize
        ∧ s.hdr.perFrameFit = true ∧ fits 1 s.ocfValid = true ∧ s.hdr.countFits s.cfg = true
        ∧ s.dfh.selectorsFit = true ∧ s.dfh.pointerFits = true ∧ s.hdr.ocfFlag = s.ocfValid
        ∧ s.cfg.rejectsSpare s.hdr.spare = false ∧ frameLength s - 1 ≤ 65535
        ∧ c = { storeHookValue (s.store .frame 0 (frameOctets s h)) h (fecfRegion s h) with
                frameLen := BitVec.ofNat 32 (frameLength s)
                hdr := frameHeader s
                dfhFhpPresent := flagWord (present s.dfh.rule.toNat) }
        ∧ nz = (s.hdr.spare != 0) := by
  simp [tfEncodeEffect, and_assoc, Effect.commit_eq_commit, -Effect.commit.injEq]

theorem tfDecodeEffect_commit {s c : State} {nz : Bool} :
    tfDecodeEffect s = .commit c nz
      ↔ s.frameLen.toNat ≤ Config.frameSize ∧ 7 ≤ s.frameLen.toNat
        ∧ s.cfg.phLen (selectorOf (inputFrame s)) ≤ s.frameLen.toNat
        ∧ (unpackPH s.cfg (inputFrame s)).tfvn = s.cfg.version
        ∧ s.cfg.rejectsSpare (unpackPH s.cfg (inputFrame s)).spare = false
        ∧ (unpackPH s.cfg (inputFrame s)).tfLength.toNat + 1 = s.frameLen.toNat
        ∧ overhead s.cfg (unpackPH s.cfg (inputFrame s)) ≤ s.frameLen.toNat
        ∧ ∃ f, parseDF (inputFieldLength s) (inputField s) = some f
          ∧ c = storeFrame s s.frameLen.toNat (inputFrame s) (inputFieldLength s) f
          ∧ nz = ((unpackPH s.cfg (inputFrame s)).spare != 0) := by
  have key : tfDecodeEffect s
      = (raiseIf (decide (Config.frameSize < s.frameLen.toNat)) .range <|
        checkHeader s.cfg s.frameLen.toNat (inputFrame s) <|
        raiseIf ((unpackPH s.cfg (inputFrame s)).tfLength.toNat + 1 != s.frameLen.toNat) .lengthMismatch <|
        raiseIf (decide (s.frameLen.toNat < overhead s.cfg (unpackPH s.cfg (inputFrame s)))) .underflow <|
        match parseDF (inputFieldLength s) (inputField s) with
        | none => .raise .truncatedData
        | some f =>
          .commit (storeFrame s s.frameLen.toNat (inputFrame s) (inputFieldLength s) f)
            ((unpackPH s.cfg (inputFrame s)).spare != 0)) := rfl
  rw [key]
  cases hp : parseDF (inputFieldLength s) (inputField s) <;>
    simp [checkHeader_commit, Effect.commit_eq_commit, -Effect.commit.injEq]

theorem spEncodeEffect_commit {s c : State} {nz : Bool} :
    spEncodeEffect s = .commit c nz
      ↔ s.payloadLen.toNat ≤ Config.payloadSize ∧ s.sp.fieldsFit = true ∧ packetDataLength s ≠ 0
        ∧ packetDataLength s - 1 ≤ 65535
        ∧ c = { s.store .frame 0 (packetOctets s) with
                frameLen := BitVec.ofNat 32 (6 + packetDataLength s)
                sp := { s.sp with dataLen := BitVec.ofNat 32 (packetDataLength s - 1) } }
        ∧ nz = false := by
  simp [spEncodeEffect, Effect.commit_eq_commit, -Effect.commit.injEq]

theorem spDecodeEffect_commit {s c : State} {nz : Bool} :
    spDecodeEffect s = .commit c nz
      ↔ s.frameLen.toNat ≤ Config.frameSize ∧ 6 ≤ s.frameLen.toNat
        ∧ s.frameLen.toNat = 7 + (unpackSP (inputFrame s)).dataLen.toNat
        ∧ s.cfg.secHdrLen (unpackSP (inputFrame s)).shFlag ≤ (unpackSP (inputFrame s)).dataLen.toNat + 1
        ∧ c = storePacket s (inputFrame s) (s.cfg.secHdrLen (unpackSP (inputFrame s)).shFlag)
                ((unpackSP (inputFrame s)).dataLen.toNat + 1 - s.cfg.secHdrLen (unpackSP (inputFrame s)).shFlag)
        ∧ nz = false := by
  simp only [spDecodeEffect, inputFrame, raiseIf_eq_commit, Effect.commit_eq_commit, decide_eq_false_iff_not]
  constructor
  · rintro ⟨h1, h2, h3, h4, h5, h6⟩
    exact ⟨by omega, by omega, by omega, by omega, h6⟩
  · rintro ⟨h1, h2, h3, h4, h5⟩
    exact ⟨by omega, by omega, by omega, by omega, by omega, h5⟩

end Sys2Proof.Machine
end

