-- ==== Sys2Proof/Laws/Stores.lean ====
section
/-! SUPPORT. What the stores of the decoders change: one lemma per field, and the octets they write and leave alone. -/
namespace Sys2Proof.Machine

/-! ## The FECF buffer with H = 1 (R214) -/

@[simp] theorem storeHookValue_frameLen (s : State) (h : Bool) (f : List Byte) :
    (storeHookValue s h f).frameLen = s.frameLen := by cases h <;> rfl
@[simp] theorem storeHookValue_payloadLen (s : State) (h : Bool) (f : List Byte) :
    (storeHookValue s h f).payloadLen = s.payloadLen := by cases h <;> rfl
@[simp] theorem storeHookValue_ocfValid (s : State) (h : Bool) (f : List Byte) :
    (storeHookValue s h f).ocfValid = s.ocfValid := by cases h <;> rfl
@[simp] theorem storeHookValue_dfhFhpPresent (s : State) (h : Bool) (f : List Byte) :
    (storeHookValue s h f).dfhFhpPresent = s.dfhFhpPresent := by cases h <;> rfl
@[simp] theorem storeHookValue_cfg (s : State) (h : Bool) (f : List Byte) :
    (storeHookValue s h f).cfg = s.cfg := by cases h <;> rfl
@[simp] theorem storeHookValue_hdr (s : State) (h : Bool) (f : List Byte) :
    (storeHookValue s h f).hdr = s.hdr := by cases h <;> rfl
@[simp] theorem storeHookValue_dfh (s : State) (h : Bool) (f : List Byte) :
    (storeHookValue s h f).dfh = s.dfh := by cases h <;> rfl
@[simp] theorem storeHookValue_sp (s : State) (h : Bool) (f : List Byte) :
    (storeHookValue s h f).sp = s.sp := by cases h <;> rfl
@[simp] theorem storeHookValue_fld (s : State) (h : Bool) (f : List Byte) :
    (storeHookValue s h f).fld = s.fld := by cases h <;> rfl
@[simp] theorem storeHookValue_latched (s : State) (h : Bool) (f : List Byte) :
    (storeHookValue s h f).latched = s.latched := by cases h <;> rfl
@[simp] theorem storeHookValue_status (s : State) (h : Bool) (f : List Byte) :
    (storeHookValue s h f).status = s.status := by cases h <;> rfl
@[simp] theorem storeHookValue_draws (s : State) (h : Bool) (f : List Byte) :
    (storeHookValue s h f).draws = s.draws := by cases h <;> rfl
@[simp] theorem storeHookValue_hazardWindow (s : State) (h : Bool) (f : List Byte) :
    (storeHookValue s h f).hazardWindow = s.hazardWindow := by cases h <;> rfl
@[simp] theorem storeHookValue_program (s : State) (h : Bool) (f : List Byte) :
    (storeHookValue s h f).program = s.program := by cases h <;> rfl
@[simp] theorem storeHookValue_schedule (s : State) (h : Bool) (f : List Byte) :
    (storeHookValue s h f).schedule = s.schedule := by cases h <;> rfl
@[simp] theorem storeHookValue_observed (s : State) (h : Bool) (f : List Byte) :
    (storeHookValue s h f).observed = s.observed := by cases h <;> rfl

/-! ## A parsed data field (R191) -/

@[simp] theorem storeDataField_frameLen (s : State) (f : DataField) :
    (storeDataField s f).frameLen = s.frameLen := rfl
@[simp] theorem storeDataField_ocfValid (s : State) (f : DataField) :
    (storeDataField s f).ocfValid = s.ocfValid := rfl
@[simp] theorem storeDataField_cfg (s : State) (f : DataField) :
    (storeDataField s f).cfg = s.cfg := rfl
@[simp] theorem storeDataField_hdr (s : State) (f : DataField) :
    (storeDataField s f).hdr = s.hdr := rfl
@[simp] theorem storeDataField_sp (s : State) (f : DataField) :
    (storeDataField s f).sp = s.sp := rfl
@[simp] theorem storeDataField_fld (s : State) (f : DataField) :
    (storeDataField s f).fld = s.fld := rfl
@[simp] theorem storeDataField_latched (s : State) (f : DataField) :
    (storeDataField s f).latched = s.latched := rfl
@[simp] theorem storeDataField_status (s : State) (f : DataField) :
    (storeDataField s f).status = s.status := rfl
@[simp] theorem storeDataField_draws (s : State) (f : DataField) :
    (storeDataField s f).draws = s.draws := rfl
@[simp] theorem storeDataField_hazardWindow (s : State) (f : DataField) :
    (storeDataField s f).hazardWindow = s.hazardWindow := rfl
@[simp] theorem storeDataField_program (s : State) (f : DataField) :
    (storeDataField s f).program = s.program := rfl
@[simp] theorem storeDataField_schedule (s : State) (f : DataField) :
    (storeDataField s f).schedule = s.schedule := rfl
@[simp] theorem storeDataField_observed (s : State) (f : DataField) :
    (storeDataField s f).observed = s.observed := rfl
@[simp] theorem storeDataField_payloadLen (s : State) (f : DataField) :
    (storeDataField s f).payloadLen = BitVec.ofNat 32 f.payload.length := rfl
@[simp] theorem storeDataField_dfhFhpPresent (s : State) (f : DataField) :
    (storeDataField s f).dfhFhpPresent = flagWord (present f.rule) := rfl
@[simp] theorem storeDataField_dfh (s : State) (f : DataField) :
    (storeDataField s f).dfh = ⟨BitVec.ofNat 32 f.rule, BitVec.ofNat 32 f.protoId, BitVec.ofNat 32 f.fhp⟩ := rfl

/-! ## The OCF of a received frame (R212) -/

@[simp] theorem storeOcf_frameLen (s : State) (h : HdrRegs) (b : List Byte) (p : Nat) :
    (storeOcf s h b p).frameLen = s.frameLen := by unfold storeOcf; split <;> rfl
@[simp] theorem storeOcf_payloadLen (s : State) (h : HdrRegs) (b : List Byte) (p : Nat) :
    (storeOcf s h b p).payloadLen = s.payloadLen := by unfold storeOcf; split <;> rfl
@[simp] theorem storeOcf_ocfValid (s : State) (h : HdrRegs) (b : List Byte) (p : Nat) :
    (storeOcf s h b p).ocfValid = s.ocfValid := by unfold storeOcf; split <;> rfl
@[simp] theorem storeOcf_dfhFhpPresent (s : State) (h : HdrRegs) (b : List Byte) (p : Nat) :
    (storeOcf s h b p).dfhFhpPresent = s.dfhFhpPresent := by unfold storeOcf; split <;> rfl
@[simp] theorem storeOcf_cfg (s : State) (h : HdrRegs) (b : List Byte) (p : Nat) :
    (storeOcf s h b p).cfg = s.cfg := by unfold storeOcf; split <;> rfl
@[simp] theorem storeOcf_hdr (s : State) (h : HdrRegs) (b : List Byte) (p : Nat) :
    (storeOcf s h b p).hdr = s.hdr := by unfold storeOcf; split <;> rfl
@[simp] theorem storeOcf_dfh (s : State) (h : HdrRegs) (b : List Byte) (p : Nat) :
    (storeOcf s h b p).dfh = s.dfh := by unfold storeOcf; split <;> rfl
@[simp] theorem storeOcf_sp (s : State) (h : HdrRegs) (b : List Byte) (p : Nat) :
    (storeOcf s h b p).sp = s.sp := by unfold storeOcf; split <;> rfl
@[simp] theorem storeOcf_fld (s : State) (h : HdrRegs) (b : List Byte) (p : Nat) :
    (storeOcf s h b p).fld = s.fld := by unfold storeOcf; split <;> rfl
@[simp] theorem storeOcf_latched (s : State) (h : HdrRegs) (b : List Byte) (p : Nat) :
    (storeOcf s h b p).latched = s.latched := by unfold storeOcf; split <;> rfl
@[simp] theorem storeOcf_status (s : State) (h : HdrRegs) (b : List Byte) (p : Nat) :
    (storeOcf s h b p).status = s.status := by unfold storeOcf; split <;> rfl
@[simp] theorem storeOcf_draws (s : State) (h : HdrRegs) (b : List Byte) (p : Nat) :
    (storeOcf s h b p).draws = s.draws := by unfold storeOcf; split <;> rfl
@[simp] theorem storeOcf_hazardWindow (s : State) (h : HdrRegs) (b : List Byte) (p : Nat) :
    (storeOcf s h b p).hazardWindow = s.hazardWindow := by unfold storeOcf; split <;> rfl
@[simp] theorem storeOcf_program (s : State) (h : HdrRegs) (b : List Byte) (p : Nat) :
    (storeOcf s h b p).program = s.program := by unfold storeOcf; split <;> rfl
@[simp] theorem storeOcf_schedule (s : State) (h : HdrRegs) (b : List Byte) (p : Nat) :
    (storeOcf s h b p).schedule = s.schedule := by unfold storeOcf; split <;> rfl
@[simp] theorem storeOcf_observed (s : State) (h : HdrRegs) (b : List Byte) (p : Nat) :
    (storeOcf s h b p).observed = s.observed := by unfold storeOcf; split <;> rfl

/-! ## The FECF of a received frame (R217) -/

@[simp] theorem storeFecf_frameLen (s : State) (b : List Byte) (n : Nat) :
    (storeFecf s b n).frameLen = s.frameLen := by unfold storeFecf; split <;> rfl
@[simp] theorem storeFecf_payloadLen (s : State) (b : List Byte) (n : Nat) :
    (storeFecf s b n).payloadLen = s.payloadLen := by unfold storeFecf; split <;> rfl
@[simp] theorem storeFecf_ocfValid (s : State) (b : List Byte) (n : Nat) :
    (storeFecf s b n).ocfValid = s.ocfValid := by unfold storeFecf; split <;> rfl
@[simp] theorem storeFecf_dfhFhpPresent (s : State) (b : List Byte) (n : Nat) :
    (storeFecf s b n).dfhFhpPresent = s.dfhFhpPresent := by unfold storeFecf; split <;> rfl
@[simp] theorem storeFecf_cfg (s : State) (b : List Byte) (n : Nat) :
    (storeFecf s b n).cfg = s.cfg := by unfold storeFecf; split <;> rfl
@[simp] theorem storeFecf_hdr (s : State) (b : List Byte) (n : Nat) :
    (storeFecf s b n).hdr = s.hdr := by unfold storeFecf; split <;> rfl
@[simp] theorem storeFecf_dfh (s : State) (b : List Byte) (n : Nat) :
    (storeFecf s b n).dfh = s.dfh := by unfold storeFecf; split <;> rfl
@[simp] theorem storeFecf_sp (s : State) (b : List Byte) (n : Nat) :
    (storeFecf s b n).sp = s.sp := by unfold storeFecf; split <;> rfl
@[simp] theorem storeFecf_fld (s : State) (b : List Byte) (n : Nat) :
    (storeFecf s b n).fld = s.fld := by unfold storeFecf; split <;> rfl
@[simp] theorem storeFecf_latched (s : State) (b : List Byte) (n : Nat) :
    (storeFecf s b n).latched = s.latched := by unfold storeFecf; split <;> rfl
@[simp] theorem storeFecf_status (s : State) (b : List Byte) (n : Nat) :
    (storeFecf s b n).status = s.status := by unfold storeFecf; split <;> rfl
@[simp] theorem storeFecf_draws (s : State) (b : List Byte) (n : Nat) :
    (storeFecf s b n).draws = s.draws := by unfold storeFecf; split <;> rfl
@[simp] theorem storeFecf_hazardWindow (s : State) (b : List Byte) (n : Nat) :
    (storeFecf s b n).hazardWindow = s.hazardWindow := by unfold storeFecf; split <;> rfl
@[simp] theorem storeFecf_program (s : State) (b : List Byte) (n : Nat) :
    (storeFecf s b n).program = s.program := by unfold storeFecf; split <;> rfl
@[simp] theorem storeFecf_schedule (s : State) (b : List Byte) (n : Nat) :
    (storeFecf s b n).schedule = s.schedule := by unfold storeFecf; split <;> rfl
@[simp] theorem storeFecf_observed (s : State) (b : List Byte) (n : Nat) :
    (storeFecf s b n).observed = s.observed := by unfold storeFecf; split <;> rfl

/-! ## A parsed frame (R231) -/

@[simp] theorem storeFrame_frameLen (s : State) (n : Nat) (b : List Byte) (dl : Nat) (f : DataField) :
    (storeFrame s n b dl f).frameLen = s.frameLen := by simp [storeFrame]
@[simp] theorem storeFrame_cfg (s : State) (n : Nat) (b : List Byte) (dl : Nat) (f : DataField) :
    (storeFrame s n b dl f).cfg = s.cfg := by simp [storeFrame]
@[simp] theorem storeFrame_sp (s : State) (n : Nat) (b : List Byte) (dl : Nat) (f : DataField) :
    (storeFrame s n b dl f).sp = s.sp := by simp [storeFrame]
@[simp] theorem storeFrame_fld (s : State) (n : Nat) (b : List Byte) (dl : Nat) (f : DataField) :
    (storeFrame s n b dl f).fld = s.fld := by simp [storeFrame]
@[simp] theorem storeFrame_latched (s : State) (n : Nat) (b : List Byte) (dl : Nat) (f : DataField) :
    (storeFrame s n b dl f).latched = s.latched := by simp [storeFrame]
@[simp] theorem storeFrame_status (s : State) (n : Nat) (b : List Byte) (dl : Nat) (f : DataField) :
    (storeFrame s n b dl f).status = s.status := by simp [storeFrame]
@[simp] theorem storeFrame_draws (s : State) (n : Nat) (b : List Byte) (dl : Nat) (f : DataField) :
    (storeFrame s n b dl f).draws = s.draws := by simp [storeFrame]
@[simp] theorem storeFrame_hazardWindow (s : State) (n : Nat) (b : List Byte) (dl : Nat) (f : DataField) :
    (storeFrame s n b dl f).hazardWindow = s.hazardWindow := by simp [storeFrame]
@[simp] theorem storeFrame_program (s : State) (n : Nat) (b : List Byte) (dl : Nat) (f : DataField) :
    (storeFrame s n b dl f).program = s.program := by simp [storeFrame]
@[simp] theorem storeFrame_schedule (s : State) (n : Nat) (b : List Byte) (dl : Nat) (f : DataField) :
    (storeFrame s n b dl f).schedule = s.schedule := by simp [storeFrame]
@[simp] theorem storeFrame_observed (s : State) (n : Nat) (b : List Byte) (dl : Nat) (f : DataField) :
    (storeFrame s n b dl f).observed = s.observed := by simp [storeFrame]
@[simp] theorem storeFrame_hdr (s : State) (n : Nat) (b : List Byte) (dl : Nat) (f : DataField) :
    (storeFrame s n b dl f).hdr = unpackPH s.cfg b := by simp [storeFrame]
@[simp] theorem storeFrame_ocfValid (s : State) (n : Nat) (b : List Byte) (dl : Nat) (f : DataField) :
    (storeFrame s n b dl f).ocfValid = (unpackPH s.cfg b).ocfFlag := by simp [storeFrame]
@[simp] theorem storeFrame_payloadLen (s : State) (n : Nat) (b : List Byte) (dl : Nat) (f : DataField) :
    (storeFrame s n b dl f).payloadLen = BitVec.ofNat 32 f.payload.length := by simp [storeFrame]
@[simp] theorem storeFrame_dfhFhpPresent (s : State) (n : Nat) (b : List Byte) (dl : Nat) (f : DataField) :
    (storeFrame s n b dl f).dfhFhpPresent = flagWord (present f.rule) := by simp [storeFrame]
@[simp] theorem storeFrame_dfh (s : State) (n : Nat) (b : List Byte) (dl : Nat) (f : DataField) :
    (storeFrame s n b dl f).dfh = ⟨BitVec.ofNat 32 f.rule, BitVec.ofNat 32 f.protoId, BitVec.ofNat 32 f.fhp⟩ := by simp [storeFrame]

/-! ## A parsed packet (R261) -/

@[simp] theorem storePacket_frameLen (s : State) (b : List Byte) (sl n : Nat) :
    (storePacket s b sl n).frameLen = s.frameLen := rfl
@[simp] theorem storePacket_ocfValid (s : State) (b : List Byte) (sl n : Nat) :
    (storePacket s b sl n).ocfValid = s.ocfValid := rfl
@[simp] theorem storePacket_dfhFhpPresent (s : State) (b : List Byte) (sl n : Nat) :
    (storePacket s b sl n).dfhFhpPresent = s.dfhFhpPresent := rfl
@[simp] theorem storePacket_cfg (s : State) (b : List Byte) (sl n : Nat) :
    (storePacket s b sl n).cfg = s.cfg := rfl
@[simp] theorem storePacket_hdr (s : State) (b : List Byte) (sl n : Nat) :
    (storePacket s b sl n).hdr = s.hdr := rfl
@[simp] theorem storePacket_dfh (s : State) (b : List Byte) (sl n : Nat) :
    (storePacket s b sl n).dfh = s.dfh := rfl
@[simp] theorem storePacket_fld (s : State) (b : List Byte) (sl n : Nat) :
    (storePacket s b sl n).fld = s.fld := rfl
@[simp] theorem storePacket_latched (s : State) (b : List Byte) (sl n : Nat) :
    (storePacket s b sl n).latched = s.latched := rfl
@[simp] theorem storePacket_status (s : State) (b : List Byte) (sl n : Nat) :
    (storePacket s b sl n).status = s.status := rfl
@[simp] theorem storePacket_draws (s : State) (b : List Byte) (sl n : Nat) :
    (storePacket s b sl n).draws = s.draws := rfl
@[simp] theorem storePacket_hazardWindow (s : State) (b : List Byte) (sl n : Nat) :
    (storePacket s b sl n).hazardWindow = s.hazardWindow := rfl
@[simp] theorem storePacket_program (s : State) (b : List Byte) (sl n : Nat) :
    (storePacket s b sl n).program = s.program := rfl
@[simp] theorem storePacket_schedule (s : State) (b : List Byte) (sl n : Nat) :
    (storePacket s b sl n).schedule = s.schedule := rfl
@[simp] theorem storePacket_observed (s : State) (b : List Byte) (sl n : Nat) :
    (storePacket s b sl n).observed = s.observed := rfl
@[simp] theorem storePacket_sp (s : State) (b : List Byte) (sl n : Nat) :
    (storePacket s b sl n).sp = unpackSP b := rfl
@[simp] theorem storePacket_payloadLen (s : State) (b : List Byte) (sl n : Nat) :
    (storePacket s b sl n).payloadLen = BitVec.ofNat 32 n := rfl

/-! ## Registers by name after a store or a completion -/

@[simp] theorem State.readReg_store (s : State) (b : Buf) (i : Nat) (vs : List Byte) (r : Reg) :
    (s.store b i vs).readReg r = s.readReg r := by
  cases r <;> rfl

theorem readReg_complete_commit (s t : State) (nz : Bool) {r : Reg} (h : r ≠ .status) :
    (complete s (.commit t nz)).readReg r = t.readReg r := by
  cases r <;> first | rfl | exact absurd rfl h

theorem readReg_complete_raise (s : State) (e : ErrorKind) {r : Reg} (h : r ≠ .status) :
    (complete s (.raise e)).readReg r = s.readReg r := by
  cases r <;> first | rfl | exact absurd rfl h

/-- The two cases of the optional stores, registers by name alike. -/
@[simp] theorem readReg_storeOcf (s : State) (h : HdrRegs) (b : List Byte) (p : Nat) (r : Reg) :
    (storeOcf s h b p).readReg r = s.readReg r := by
  unfold storeOcf; split <;> simp

@[simp] theorem readReg_storeFecf (s : State) (b : List Byte) (n : Nat) (r : Reg) :
    (storeFecf s b n).readReg r = s.readReg r := by
  unfold storeFecf; split <;> simp

@[simp] theorem readReg_storeHookValue (s : State) (h : Bool) (f : List Byte) (r : Reg) :
    (storeHookValue s h f).readReg r = s.readReg r := by
  cases h <;> simp [storeHookValue]

/-! ## Octets after the stores -/

/-- An octet outside a block that holds all that was stored keeps its value (R13). -/
theorem State.byte_store_apart (s : State) (b : Buf) (i n : Nat) (vs : List Byte) (a : Nat) (hn : vs.length ≤ n)
    (h : Block.covers ⟨b, i, n⟩ a = false) : (s.store b i vs).byte a = s.byte a := by
  rw [State.byte_store, if_neg]
  simp only [Block.covers, Bool.and_eq_false_iff, decide_eq_false_iff_not] at h
  omega

/-- Where a state's memory is another's with one block written, the block reads as what was written. -/
theorem State.octets_of_mem (t : State) (m : Memory) (b : Buf) (i n : Nat) (vs : List Byte)
    (hm : t.mem = Memory.writeBlock m (bufBase b + i) vs) (hn : n = vs.length) : t.octets b i n = vs := by
  subst hn
  calc t.octets b i vs.length
      = (({ t with mem := m } : State).store b i vs).octets b i vs.length :=
        State.bytes_congr _ _ _ fun _ _ => by apply State.byte_congr; exact hm; rfl
    _ = vs := State.octets_store_same _ _ _ _

/-- A store into one buffer leaves the octets of another as they are (R37). -/
theorem State.octets_store_other (s : State) {b c : Buf} (i j n : Nat) (vs : List Byte) (h : c ≠ b)
    (hi : i + vs.length ≤ b.size) (hj : j + n ≤ c.size) : (s.store b i vs).octets c j n = s.octets c j n :=
  State.octets_store_apart s b c i j n vs hi hj (.inl h)

@[simp] theorem State.octets_complete_commit (s t : State) (nz : Bool) (b : Buf) (i n : Nat) :
    (complete s (.commit t nz)).octets b i n = t.octets b i n := State.octets_congr _ _ _ fun _ _ => rfl

@[simp] theorem State.octets_complete_raise (s : State) (e : ErrorKind) (b : Buf) (i n : Nat) :
    (complete s (.raise e)).octets b i n = s.octets b i n := State.octets_congr _ _ _ fun _ _ => rfl

/-- The octets of a state depend on its memory and its draws alone. -/
theorem State.octets_mem_congr {s t : State} (hm : s.mem = t.mem) (hd : s.draws = t.draws) (b : Buf) (i n : Nat) :
    s.octets b i n = t.octets b i n := State.octets_congr _ _ _ fun _ _ => State.byte_congr hm hd _

/-! ### A parsed data field (R191, R192) -/

/-- The lengths of a parsed data field's regions. -/
theorem parseDF_lengths {n : Nat} {b : List Byte} {f : DataField} (h : parseDF n b = some f) (hb : b.length = n) :
    f.secHdr.length = 6 ∧ f.payload.length = parsedPayloadLength n b ∧ f.secTrl.length = 16 := by
  obtain ⟨h1, h2, rfl⟩ := parseDF_eq_some.mp h
  simp only [List.length_take, List.length_drop, hb, parsedPayloadLength]
  omega

theorem State.octets_storeDataField_secHdr (s : State) (f : DataField) (h1 : f.secHdr.length = 6)
    (h2 : f.payload.length ≤ Buf.payload.size) (h3 : f.secTrl.length = 16) :
    (storeDataField s f).octets .sechdr 0 6 = f.secHdr := by
  calc (storeDataField s f).octets .sechdr 0 6
      = (((s.store .sechdr 0 f.secHdr).store .payload 0 f.payload).store .sectrl 0 f.secTrl).octets .sechdr 0 6 :=
        by apply State.octets_mem_congr <;> rfl
    _ = (s.store .sechdr 0 f.secHdr).octets .sechdr 0 6 := by
        rw [State.octets_store_other _ _ _ _ _ (by decide) (by rw [h3]; decide) (by decide),
          State.octets_store_other _ _ _ _ _ (by decide) (by omega) (by decide)]
    _ = f.secHdr := State.octets_of_mem _ s.mem _ _ _ _ rfl h1.symm

theorem State.octets_storeDataField_payload (s : State) (f : DataField) (h2 : f.payload.length ≤ Buf.payload.size)
    (h3 : f.secTrl.length = 16) : (storeDataField s f).octets .payload 0 f.payload.length = f.payload := by
  calc (storeDataField s f).octets .payload 0 f.payload.length
      = (((s.store .sechdr 0 f.secHdr).store .payload 0 f.payload).store .sectrl 0 f.secTrl).octets .payload 0
          f.payload.length := by apply State.octets_mem_congr <;> rfl
    _ = ((s.store .sechdr 0 f.secHdr).store .payload 0 f.payload).octets .payload 0 f.payload.length :=
        State.octets_store_other _ _ _ _ _ (by decide) (by rw [h3]; decide) (by omega)
    _ = f.payload := State.octets_of_mem _ (s.store .sechdr 0 f.secHdr).mem _ _ _ _ rfl rfl

theorem State.octets_storeDataField_secTrl (s : State) (f : DataField) (h3 : f.secTrl.length = 16) :
    (storeDataField s f).octets .sectrl 0 16 = f.secTrl :=
  State.octets_of_mem _ ((s.store .sechdr 0 f.secHdr).store .payload 0 f.payload).mem _ _ _ _ rfl h3.symm

theorem State.octets_storeDataField_other (s : State) (f : DataField) (c : Buf) (j n : Nat)
    (hc : c ≠ .sechdr ∧ c ≠ .payload ∧ c ≠ .sectrl) (h1 : f.secHdr.length = 6)
    (h2 : f.payload.length ≤ Buf.payload.size) (h3 : f.secTrl.length = 16) (hj : j + n ≤ c.size) :
    (storeDataField s f).octets c j n = s.octets c j n := by
  calc (storeDataField s f).octets c j n
      = (((s.store .sechdr 0 f.secHdr).store .payload 0 f.payload).store .sectrl 0 f.secTrl).octets c j n :=
        by apply State.octets_mem_congr <;> rfl
    _ = s.octets c j n := by
        rw [State.octets_store_other _ _ _ _ _ hc.2.2 (by rw [h3]; decide) hj,
          State.octets_store_other _ _ _ _ _ hc.2.1 (by omega) hj,
          State.octets_store_other _ _ _ _ _ hc.1 (by rw [h1]; decide) hj]

/-! ### The optional regions of a received frame (R212, R217) -/

theorem State.octets_storeOcf_other (s : State) (h : HdrRegs) (b : List Byte) (p : Nat) (c : Buf) (j n : Nat)
    (hc : c ≠ .ocf) (hj : j + n ≤ c.size) : (storeOcf s h b p).octets c j n = s.octets c j n := by
  unfold storeOcf
  split
  · exact State.octets_store_other _ _ _ _ _ hc (by simp [Buf.size, Config.ocfSize]) hj
  · rfl

theorem State.octets_storeFecf_other (s : State) (b : List Byte) (n : Nat) (c : Buf) (j k : Nat) (hc : c ≠ .fecf)
    (hj : j + k ≤ c.size) : (storeFecf s b n).octets c j k = s.octets c j k := by
  unfold storeFecf
  split
  · exact State.octets_store_other _ _ _ _ _ hc (by simp [Buf.size, Config.fecfSize]) hj
  · rfl

theorem State.octets_storeOcf (s : State) (h : HdrRegs) (b : List Byte) (p : Nat) (hp : h.ocfFlag = 1 → p + 4 ≤ b.length) :
    (storeOcf s h b p).octets .ocf 0 4 = if h.ocfFlag = 1 then (b.drop p).take 4 else s.octets .ocf 0 4 := by
  unfold storeOcf
  split
  · rename_i hf
    have := hp hf
    exact State.octets_of_mem _ s.mem _ _ _ _ rfl (by rw [List.length_take, List.length_drop]; omega)
  · rfl

theorem State.octets_storeFecf (s : State) (b : List Byte) (n : Nat) (hn : s.cfg.fecfEn = 1 → 4 ≤ n)
    (hb : b.length = n) :
    (storeFecf s b n).octets .fecf 0 4 = if s.cfg.fecfEn = 1 then (b.drop (n - 4)).take 4 else s.octets .fecf 0 4 := by
  unfold storeFecf
  split
  · rename_i hf
    have := hn hf
    exact State.octets_of_mem _ s.mem _ _ _ _ rfl (by rw [List.length_take, List.length_drop]; omega)
  · rfl

/-! ### A frame in another state's hands (R174, R195, R234, R264) -/

/-- Overwriting registers that are neither FRAME_LEN nor LOCKED leaves the frame in place. -/
theorem State.holdsFrameOf_of_mem {v t : State} (hl : v.status.locked = t.status.locked) (hn : v.frameLen = t.frameLen)
    (hm : v.mem = t.mem) (hd : v.draws = t.draws) : v.holdsFrameOf t :=
  ⟨hl, hn, by rw [inputFrame, inputFrame, hn]; exact State.octets_mem_congr hm hd _ _ _⟩

/-- With no command between, the accept of the next one leaves the frame in place (R23). -/
theorem State.accept_holdsFrameOf (t : State) (w : Word) : (t.accept w).holdsFrameOf t :=
  State.holdsFrameOf_of_mem rfl rfl rfl rfl

/-- The octets of FRAME below FRAME_LEN are the ones put there. -/
theorem State.holdsFrameOf.octets {v t : State} (h : v.holdsFrameOf t) {i n : Nat} (hi : i + n ≤ t.frameLen.toNat) :
    v.octets .frame i n = t.octets .frame i n := by
  have hv := State.drop_octets v .frame 0 v.frameLen.toNat i (by rw [h.2.1]; omega)
  have ht := State.drop_octets t .frame 0 t.frameLen.toNat i (by omega)
  rw [Nat.zero_add] at hv ht
  rw [← State.take_octets v .frame i (v.frameLen.toNat - i) n (by rw [h.2.1]; omega), ← hv,
    ← State.take_octets t .frame i (t.frameLen.toNat - i) n (by omega), ← ht]
  exact congrArg (fun b => (b.drop i).take n) h.2.2

end Sys2Proof.Machine
end

