-- ==== Sys2Proof/Laws/Codecs.lean ====
section
/-! SUPPORT. The codecs' helpers said once: the "fits" checks as bounds on numbers (R10), the lengths of what is packed
(R111 to R116), and what the packed headers read back as (R173, R192, R193). -/
namespace Sys2Proof.Machine

/-! ## Words as numbers -/

theorem word_eq_one_iff (v : Word) : v = 1 ↔ v.toNat = 1 :=
  ⟨by rintro rfl; rfl, fun h => BitVec.eq_of_toNat_eq (by simpa using h)⟩

theorem word_eq_zero_iff (v : Word) : v = 0 ↔ v.toNat = 0 :=
  ⟨by rintro rfl; rfl, fun h => BitVec.eq_of_toNat_eq (by simpa using h)⟩

theorem bne_zero_eq_decide (v : Word) : (v != 0) = decide (v.toNat ≠ 0) := by
  rw [Bool.eq_iff_iff]; simp [bne_iff_ne, ← word_eq_zero_iff]

/-- A 64-bit operand split over two registers is that operand again (R32, R103). -/
theorem pairValue_split (v : Nat) (h : v < 2 ^ 64) : pairValue (pairHi v) (pairLo v) = v := by
  simp only [pairValue, pairHi, pairLo, BitVec.toNat_ofNat]; omega

theorem pairLo_pairValue (hi lo : Word) : pairLo (pairValue hi lo) = lo := by
  apply BitVec.eq_of_toNat_eq; simp only [pairValue, pairLo, BitVec.toNat_ofNat]; omega

theorem pairHi_pairValue (hi lo : Word) : pairHi (pairValue hi lo) = hi := by
  apply BitVec.eq_of_toNat_eq; simp only [pairValue, pairHi, BitVec.toNat_ofNat]; omega

theorem FldRegs.value_split (f : FldRegs) (v : Nat) (h : v < 2 ^ 64) :
    FldRegs.value { f with valueLo := pairLo v, valueHi := pairHi v } = v := pairValue_split v h

/-! ## The checks as bounds -/

theorem fits_iff (w : Nat) (v : Word) : fits w v = true ↔ v.toNat < 2 ^ w := by simp [fits]

theorem CfgRegs.legal_iff (c : CfgRegs) : c.legal = true ↔ legalRanges c := by
  simp only [CfgRegs.legal, Bool.and_eq_true, fits_iff, legalRanges]; omega

theorem HdrRegs.perFrameFit_iff (h : HdrRegs) : h.perFrameFit = true ↔ perFrameBounds h := by
  simp only [HdrRegs.perFrameFit, Bool.and_eq_true, fits_iff, perFrameBounds]; omega

theorem HdrRegs.fixedFit_iff (h : HdrRegs) : h.fixedFit = true ↔ headerBounds h := by
  simp only [HdrRegs.fixedFit, Bool.and_eq_true, fits_iff, headerBounds, HdrRegs.perFrameFit_iff]; omega

theorem CfgRegs.fcw_eq (c : CfgRegs) (k : Nat) : c.fcw k = if c.fcMode.toNat = 0 then 32 else 8 * k := by
  simp only [CfgRegs.fcw, word_eq_zero_iff]

theorem CfgRegs.phLen_eq (c : CfgRegs) (k : Nat) : c.phLen k = if c.fcMode.toNat = 0 then 11 else 7 + k := by
  unfold CfgRegs.phLen; rw [CfgRegs.fcw_eq]; split <;> omega

/-- The header ends with the frame count: 56 fixed bits, then the count (R110, R111). -/
theorem CfgRegs.bits_phLen (c : CfgRegs) (k : Nat) : 8 * c.phLen k = 56 + c.fcw k := by
  unfold CfgRegs.phLen; rw [CfgRegs.fcw_eq]; split <;> omega

theorem CfgRegs.phLen_le (c : CfgRegs) (k : Nat) (h : k ≤ 7) : c.phLen k ≤ 14 := by
  rw [CfgRegs.phLen_eq]; split <;> omega

theorem HdrRegs.countFits_iff (h : HdrRegs) (c : CfgRegs) (hc : c.fcMode.toNat ≤ 1) :
    h.countFits c = true ↔ countBound c h := by
  simp only [HdrRegs.countFits, decide_eq_true_iff, CfgRegs.fcw_eq, countBound]
  rcases (by omega : c.fcMode.toNat = 0 ∨ c.fcMode.toNat = 1) with h | h <;> simp [h]

theorem DfhRegs.selectorsFit_iff (d : DfhRegs) :
    d.selectorsFit = true ↔ d.rule.toNat ≤ 7 ∧ d.protoId.toNat ≤ 31 := by
  simp only [DfhRegs.selectorsFit, Bool.and_eq_true, fits_iff]; omega

theorem present_iff (r : Nat) : present r = true ↔ r ≤ 1 := by
  simp only [present, Bool.or_eq_true, beq_iff_eq]; omega

theorem DfhRegs.pointerFits_iff (d : DfhRegs) :
    d.pointerFits = true ↔ (d.rule.toNat ≤ 1 → d.fhp.toNat ≤ 65535) := by
  simp only [DfhRegs.pointerFits, Bool.or_eq_true, Bool.not_eq_true', fits_iff]
  rw [← Bool.not_eq_true, present_iff]; omega

theorem CfgRegs.rejectsSpare_iff (c : CfgRegs) (v : Word) : c.rejectsSpare v = true ↔ strictSpareHit c v := by
  simp only [CfgRegs.rejectsSpare, Bool.and_eq_true, bne_iff_ne, beq_iff_eq, strictSpareHit, ne_eq, word_eq_one_iff,
    word_eq_zero_iff]

theorem CfgRegs.rejectsSpare_eq_false_iff (c : CfgRegs) (v : Word) :
    c.rejectsSpare v = false ↔ ¬ strictSpareHit c v := by
  rw [← CfgRegs.rejectsSpare_iff]; simp

theorem SpRegs.fieldsFit_iff (p : SpRegs) : p.fieldsFit = true ↔ packetBounds p := by
  simp only [SpRegs.fieldsFit, Bool.and_eq_true, fits_iff, packetBounds]; omega

theorem dfhLen_eq (r : Nat) : dfhLen r = if r ≤ 1 then 3 else 1 := by simp only [dfhLen, present_iff]

theorem flagWord_present (r : Nat) : flagWord (present r) = if r ≤ 1 then 1 else 0 := by
  simp only [flagWord, present_iff]

theorem CfgRegs.secHdrLen_eq (c : CfgRegs) (v : Word) :
    c.secHdrLen v = if v.toNat = 1 then c.spShLen.toNat else 0 := by
  simp only [CfgRegs.secHdrLen, word_eq_one_iff]

/-! ## Lengths of what is packed -/

@[simp] theorem length_packPH (c : CfgRegs) (h : HdrRegs) : (packPH c h).length = c.phLen h.fcLen.toNat := by
  simp [packPH]

@[simp] theorem length_packDFH (d : DfhRegs) : (packDFH d).length = dfhLen d.rule.toNat := by
  unfold packDFH dfhLen; cases present d.rule.toNat <;> simp

@[simp] theorem length_dataFieldOctets (s : State) :
    (dataFieldOctets s).length = dfLen s.dfh.rule.toNat s.payloadLen.toNat := by
  simp [dataFieldOctets, dfLen]; omega

@[simp] theorem length_packSP (p : SpRegs) (n : Nat) : (packSP p n).length = 6 := by simp [packSP]

@[simp] theorem length_packetOctets (s : State) : (packetOctets s).length = 6 + packetDataLength s := by
  simp [packetOctets, packetDataLength]

@[simp] theorem length_fecfRegion (s : State) (h : Bool) : (fecfRegion s h).length = 4 := by
  cases h <;> simp [fecfRegion, fecfOf]

theorem length_ocfRegion (s : State) (h : s.hdr.ocfFlag.toNat ≤ 1) :
    (ocfRegion s).length = 4 * s.hdr.ocfFlag.toNat := by
  unfold ocfRegion
  by_cases h1 : s.hdr.ocfFlag = 1
  · simp [h1]
  · rw [if_neg h1]
    have := mt (word_eq_one_iff _).mpr h1
    simp only [List.length_nil]; omega

/-- The octets before the FECF (R214). -/
theorem length_frameBody (s : State) (h : s.hdr.ocfFlag.toNat ≤ 1) :
    (frameBody s).length + 4 * s.cfg.fecfEn.toNat = frameLength s := by
  simp [frameBody, length_ocfRegion s h, frameHeader, frameLength]; omega

theorem length_frameOctets (s : State) (b : Bool) (h : s.hdr.ocfFlag.toNat ≤ 1) (h2 : s.cfg.fecfEn.toNat ≤ 1) :
    (frameOctets s b).length = frameLength s := by
  rw [frameOctets, List.length_append, ← length_frameBody s h]
  by_cases h1 : s.cfg.fecfEn = 1
  · simp [h1]
  · rw [if_neg h1]
    have := mt (word_eq_one_iff _).mpr h1
    simp only [List.length_nil]; omega

/-! ## The primary header reads back (R173) -/

theorem fieldWord_toNat (b : List Byte) (o w : Nat) (hw : w ≤ 32) : (fieldWord b o w).toNat = getBits b o w := by
  simp only [fieldWord, BitVec.toNat_ofNat]
  exact Nat.mod_eq_of_lt (Nat.lt_of_lt_of_le (getBits_lt b o w) (Nat.pow_le_pow_right (by decide) hw))

/-- The rows of the header layout lie inside the header, fit, and share no bit (R110). -/
theorem phFields_within (c : CfgRegs) (h : HdrRegs) :
    ∀ f ∈ phFields c h, f.offset + f.width ≤ 8 * (List.replicate (c.phLen h.fcLen.toNat) (0 : Byte)).length := by
  rw [List.length_replicate, CfgRegs.bits_phLen]; simp [phFields]; omega

theorem phFields_apart (c : CfgRegs) (h : HdrRegs) : (phFields c h).Pairwise Field.apart := by
  simp [phFields, Field.apart]

theorem phFields_fit (c : CfgRegs) (h : HdrRegs) (h1 : h.fixedFit = true) (h2 : h.countFits c = true) :
    ∀ f ∈ phFields c h, f.value < 2 ^ f.width := by
  have := (HdrRegs.fixedFit_iff h).mp h1
  simp only [HdrRegs.countFits, decide_eq_true_iff] at h2
  simp [phFields, h2]; simp only [headerBounds, perFrameBounds] at this; omega

theorem getBits_packPH (c : CfgRegs) (h : HdrRegs) (h1 : h.fixedFit = true) (h2 : h.countFits c = true) :
    ∀ f ∈ phFields c h, getBits (packPH c h) f.offset f.width = f.value :=
  fun f hf => getBits_placeFields _ _ (phFields_within c h) (phFields_apart c h) f hf (phFields_fit c h h1 h2 f hf)

/-- PackPH puts every field at its place. -/
theorem headerOnWire_packPH (c : CfgRegs) (h : HdrRegs) (h1 : h.fixedFit = true) (h2 : h.countFits c = true) :
    headerOnWire c (packPH c h) h := by
  have := getBits_packPH c h h1 h2
  simp only [phFields, List.forall_mem_cons, List.not_mem_nil, false_imp_iff, implies_true, CfgRegs.fcw_eq] at this
  simp only [headerOnWire]; tauto

/-- Octets after the header do not show in it (R171). -/
theorem headerOnWire_append (c : CfgRegs) (h : HdrRegs) (b t : List Byte) (hl : c.phLen h.fcLen.toNat ≤ b.length)
    (hw : headerOnWire c b h) : headerOnWire c (b ++ t) h := by
  have h8 : 56 + c.fcw h.fcLen.toNat ≤ 8 * b.length := by have := c.bits_phLen h.fcLen.toNat; omega
  simp only [CfgRegs.fcw_eq] at h8
  have key : ∀ {o w v : Nat}, o + w ≤ 8 * b.length → getBits b o w = v → getBits (b ++ t) o w = v :=
    fun h e => by rw [getBits_append_left _ _ _ _ h]; exact e
  obtain ⟨e1, e2, e3, e4, e5, e6, e7, e8, e9, e10, e11, e12, e13⟩ := hw
  exact ⟨key (by omega) e1, key (by omega) e2, key (by omega) e3, key (by omega) e4, key (by omega) e5,
    key (by omega) e6, key (by omega) e7, key (by omega) e8, key (by omega) e9, key (by omega) e10,
    key (by omega) e11, key (by omega) e12, key h8 e13⟩

/-- The registers whose fields stand on the wire are what UnpackPH answers. -/
theorem unpackPH_of_headerOnWire (c : CfgRegs) (b : List Byte) (h : HdrRegs) (hw : headerOnWire c b h) :
    unpackPH c b = h := by
  obtain ⟨e1, e2, e3, e4, e5, e6, e7, e8, e9, e10, e11, e12, e13⟩ := hw
  have hc : getBits b 56 (c.fcw (selectorOf b)) = h.fcv := by rw [selectorOf, e12, CfgRegs.fcw_eq, e13]
  unfold unpackPH fieldWord
  rw [hc, e1, e2, e3, e4, e5, e6, e7, e8, e9, e10, e11, e12]
  simp only [BitVec.ofNat_toNat, BitVec.setWidth_eq, HdrRegs.fcv, pairLo_pairValue, pairHi_pairValue]

/-- What UnpackPH answers stands on the wire. -/
theorem headerOnWire_unpackPH (c : CfgRegs) (b : List Byte) : headerOnWire c b (unpackPH c b) := by
  have hs : selectorOf b < 8 := getBits_lt b 53 3
  have hf : c.fcw (selectorOf b) ≤ 64 := by rw [CfgRegs.fcw_eq]; split <;> omega
  have hfc : (unpackPH c b).fcLen.toNat = selectorOf b := fieldWord_toNat _ _ _ (by decide)
  simp only [headerOnWire]
  rw [hfc, ← CfgRegs.fcw_eq]
  refine ⟨?_, ?_, ?_, ?_, ?_, ?_, ?_, ?_, ?_, ?_, ?_, ?_, ?_⟩
  case refine_13 =>
    simp only [HdrRegs.fcv, unpackPH]
    rw [pairValue_split]
    exact Nat.lt_of_lt_of_le (getBits_lt _ _ _) (Nat.pow_le_pow_right (by decide) hf)
  case refine_12 => rw [selectorOf]
  all_goals (simp only [unpackPH]; rw [fieldWord_toNat _ _ _ (by decide)])

/-! ## The packet header reads back (R115) -/

theorem packetOnWire_packSP (p : SpRegs) (n : Nat) (hp : p.fieldsFit = true) (hn : n ≤ 65535) :
    packetOnWire (packSP p n) { p with dataLen := BitVec.ofNat 32 n } := by
  have hin : ∀ f ∈ spFields p n, f.offset + f.width ≤ 8 * (List.replicate 6 (0 : Byte)).length := by
    rw [List.length_replicate]; simp [spFields]
  have hap : (spFields p n).Pairwise Field.apart := by simp [spFields, Field.apart]
  have hfit : ∀ f ∈ spFields p n, f.value < 2 ^ f.width := by
    have := (SpRegs.fieldsFit_iff p).mp hp
    simp [spFields]; simp only [packetBounds] at this; omega
  have := fun f hf => getBits_placeFields _ _ hin hap f hf (hfit f hf)
  simp only [spFields, List.forall_mem_cons, List.not_mem_nil, false_imp_iff, implies_true] at this
  have hm : (BitVec.ofNat 32 n).toNat = n := by rw [BitVec.toNat_ofNat]; omega
  simp only [packetOnWire, hm]; tauto

theorem packetOnWire_append (p : SpRegs) (b t : List Byte) (hl : 6 ≤ b.length) (hw : packetOnWire b p) :
    packetOnWire (b ++ t) p := by
  have key : ∀ {o w v : Nat}, o + w ≤ 8 * b.length → getBits b o w = v → getBits (b ++ t) o w = v :=
    fun h e => by rw [getBits_append_left _ _ _ _ h]; exact e
  obtain ⟨e1, e2, e3, e4, e5, e6, e7⟩ := hw
  exact ⟨key (by omega) e1, key (by omega) e2, key (by omega) e3, key (by omega) e4, key (by omega) e5,
    key (by omega) e6, key (by omega) e7⟩

theorem unpackSP_of_packetOnWire (b : List Byte) (p : SpRegs) (hw : packetOnWire b p) : unpackSP b = p := by
  obtain ⟨e1, e2, e3, e4, e5, e6, e7⟩ := hw
  unfold unpackSP
  rw [e1, e2, e3, e4, e5, e6, e7]
  simp only [BitVec.ofNat_toNat, BitVec.setWidth_eq]

theorem packetOnWire_unpackSP (b : List Byte) : packetOnWire b (unpackSP b) := by
  have h : ∀ o w, w ≤ 32 → (BitVec.ofNat 32 (getBits b o w)).toNat = getBits b o w :=
    fun o w hw => fieldWord_toNat b o w hw
  refine ⟨?_, ?_, ?_, ?_, ?_, ?_, ?_⟩ <;> exact (h _ _ (by decide)).symm

/-! ## The data field reads back (R192, R193) -/

/-- The two octets of a pointer, or none, and the selectors before them, as ParseDF reads them. -/
theorem packDFH_getD_zero (d : DfhRegs) (h : d.selectorsFit = true) :
    ((packDFH d).getD 0 0).toNat = d.rule.toNat * 32 + d.protoId.toNat := by
  have := (DfhRegs.selectorsFit_iff d).mp h
  simp only [packDFH, List.getD_cons_zero, BitVec.toNat_ofNat]; omega

theorem packDFH_pointer (d : DfhRegs) (hp : d.pointerFits = true) (h : d.rule.toNat ≤ 1) :
    ((packDFH d).getD 1 0).toNat * 256 + ((packDFH d).getD 2 0).toNat = d.fhp.toNat := by
  have hf := (DfhRegs.pointerFits_iff d).mp hp h
  have := be16_value d.fhp.toNat (by omega)
  rw [packDFH, if_pos ((present_iff _).mpr h), List.getD_cons_succ, List.getD_cons_succ]
  exact this

/-- ParseDF of a packed data field gives its regions back; an absent pointer becomes 0. -/
theorem parseDF_pack (d : DfhRegs) (sh pl st : List Byte) (hs : d.selectorsFit = true) (hp : d.pointerFits = true)
    (h6 : sh.length = 6) (h16 : st.length = 16) :
    parseDF (22 + dfhLen d.rule.toNat + pl.length) (sh ++ packDFH d ++ pl ++ st)
      = some { secHdr := sh, rule := d.rule.toNat, protoId := d.protoId.toNat
               fhp := if d.rule.toNat ≤ 1 then d.fhp.toNat else 0, payload := pl, secTrl := st } := by
  have hb := (DfhRegs.selectorsFit_iff d).mp hs
  have hd := length_packDFH d
  have hd1 : 1 ≤ dfhLen d.rule.toNat := by rw [dfhLen_eq]; split <;> omega
  have hget : ∀ k, k < dfhLen d.rule.toNat →
      (sh ++ packDFH d ++ pl ++ st).getD (6 + k) 0 = (packDFH d).getD k 0 := by
    intro k hk
    rw [List.append_assoc, List.append_assoc, List.getD_append_right _ _ _ _ (by omega),
      List.getD_append _ _ _ _ (by omega), h6, Nat.add_sub_cancel_left]
  have h48 : getBits (sh ++ packDFH d ++ pl ++ st) 48 8 = d.rule.toNat * 32 + d.protoId.toNat := by
    rw [show (48 : Nat) = 8 * 6 from rfl, getBits_octet, show (6 : Nat) = 6 + 0 from rfl, hget 0 (by omega),
      packDFH_getD_zero d hs]
  have hsum : getBits (sh ++ packDFH d ++ pl ++ st) 48 8
      = getBits (sh ++ packDFH d ++ pl ++ st) 48 3 * 2 ^ 5 + getBits (sh ++ packDFH d ++ pl ++ st) 51 5 :=
    getBits_add _ 48 3 5
  have hlt3 := getBits_lt (sh ++ packDFH d ++ pl ++ st) 48 3
  have hlt5 := getBits_lt (sh ++ packDFH d ++ pl ++ st) 51 5
  have hrule : getBits (sh ++ packDFH d ++ pl ++ st) 48 3 = d.rule.toNat := by omega
  have hpid : getBits (sh ++ packDFH d ++ pl ++ st) 51 5 = d.protoId.toNat := by omega
  rw [parseDF_eq_some, hrule, hpid]
  have hP : parsedPayloadLength (22 + dfhLen d.rule.toNat + pl.length) (sh ++ packDFH d ++ pl ++ st) = pl.length := by
    rw [parsedPayloadLength, hrule]; omega
  rw [hP]
  refine ⟨by omega, by omega, ?_⟩
  congr 1
  · rw [List.append_assoc, List.append_assoc, List.take_left' h6]
  · rw [dfhLen_eq]
    by_cases hr : d.rule.toNat ≤ 1
    · have h3 : dfhLen d.rule.toNat = 3 := by rw [dfhLen_eq, if_pos hr]
      have h1 := hget 1 (by omega)
      have h2 := hget 2 (by omega)
      rw [if_pos hr, if_pos hr, if_pos rfl, h1, h2, packDFH_pointer d hp hr]
    · simp [hr]
  · rw [List.append_assoc (sh ++ packDFH d), List.drop_left' (by rw [List.length_append, h6, hd]),
      List.take_left' rfl]
  · rw [List.drop_left' (by rw [List.length_append, List.length_append, h6, hd]), List.take_of_length_le (by omega)]

end Sys2Proof.Machine
end

