-- ==== Sys2Proof/Laws/PerInstr.lean ====
section
/-! SUPPORT. One statement for every command, proved constructor by constructor: how its word is laid out. -/
namespace Sys2Proof.Laws.Encoding

/-- The word of a command: RSV is 0, OPCODE and H stand in their fields, H is set only beside OPCODE 0x30, the
command's own row of the opcode map accepts the word, and no other row does (R100 to R102). -/
def Statement (i : Instr) : Prop :=
  rsvField (encode i) = 0 ∧ opcodeField (encode i) = opcodeOf i ∧ hookField (encode i) = hookOf i
  ∧ (hookOf i = true → opcodeOf i = 0x30)
  ∧ (opcodeRow i).accepts (encode i) = true
  ∧ ∀ r ∈ opcodeTable, r.accepts (encode i) = true → r = opcodeRow i

theorem lockConfig : Statement .lockConfig := by unfold Statement; decide

theorem writeField : Statement .writeField := by unfold Statement; decide

theorem readField : Statement .readField := by unfold Statement; decide

theorem phEncode : Statement .phEncode := by unfold Statement; decide

theorem phDecode : Statement .phDecode := by unfold Statement; decide

theorem dfEncode : Statement .dfEncode := by unfold Statement; decide

theorem dfDecode : Statement .dfDecode := by unfold Statement; decide

theorem tfEncode (h : Bool) : Statement (.tfEncode h) := by unfold Statement; cases h <;> decide

theorem tfDecode : Statement .tfDecode := by unfold Statement; decide

theorem spEncode : Statement .spEncode := by unfold Statement; decide

theorem spDecode : Statement .spDecode := by unfold Statement; decide

end Sys2Proof.Laws.Encoding
end

