-- ==== Sys2Proof/Laws/Steps.lean ====
section
/-! SUPPORT. What a host access, a turn of an agent and a step can do, said once as inversions (R72 to R75, R80, R301,
R340, R350). -/
namespace Sys2Proof.Machine

/-! ## Register offsets and buffer windows (R71) -/

theorem regAt_offset (r : Reg) : regAt (regOffset r) = some r := by
  cases r <;> rfl

theorem regOffset_of_regAt {o : Nat} {r : Reg} (h : regAt o = some r) : regOffset r = o := by
  have := List.find?_some h
  simpa using this

theorem regOffset_lt (r : Reg) : regOffset r < 0x100 := by
  cases r <;> decide

theorem regAt_window (b : Buf) (i : Nat) : regAt (bufBase b + i) = none := by
  cases h : regAt (bufBase b + i) with
  | none => rfl
  | some r =>
    have h1 := regOffset_of_regAt h
    have h2 := regOffset_lt r
    have h3 : 0x100 ≤ bufBase b := by cases b <;> decide
    omega

theorem window_of_bufAt {o : Nat} {b : Buf} (h : bufAt o = some b) : ∃ i, i < b.size ∧ bufBase b + i = o := by
  have := List.find?_some h
  simp only [inWindow, Bool.and_eq_true, decide_eq_true_iff] at this
  exact ⟨o - bufBase b, by omega, by omega⟩

/-! ## Host accesses -/

theorem hostRead_inversion {s : State} {o w : Nat} {ob : Observation} (h : hostRead s o w = .ok ob) :
    (∃ r, regAt o = some r ∧ w = 32 ∧ ob = .word o (s.readReg r))
    ∨ (∃ b, regAt o = none ∧ bufAt o = some b ∧ w = 8 ∧ ob = .octet o (s.byte o)) := by
  unfold hostRead at h
  cases hr : regAt o with
  | some r =>
    by_cases hw : w = 32
    · simp only [hr, hw, if_true, Except.ok.injEq] at h
      exact .inl ⟨r, rfl, hw, h.symm⟩
    · simp [hr, hw] at h
  | none =>
    cases hb : bufAt o with
    | some b =>
      by_cases hw : w = 8
      · simp only [hr, hb, hw, if_true, Except.ok.injEq] at h
        exact .inr ⟨b, rfl, rfl, hw, h.symm⟩
      · simp [hr, hb, hw] at h
    | none => simp [hr, hb] at h

theorem hostWrite_inversion {s t : State} {o w : Nat} {v : BitVec w} (h : hostWrite s o w v = .ok t) :
    (∃ r, regAt o = some r ∧ w = 32 ∧ t = hostWriteReg s r (v.setWidth 32))
    ∨ (∃ b, regAt o = none ∧ bufAt o = some b ∧ w = 8
        ∧ t = { s with mem := Memory.writeBlock s.mem o [v.setWidth 8] }) := by
  unfold hostWrite at h
  cases hr : regAt o with
  | some r =>
    by_cases hw : w = 32
    · simp only [hr, hw, if_true, Except.ok.injEq] at h
      exact .inl ⟨r, rfl, hw, h.symm⟩
    · simp [hr, hw] at h
  | none =>
    cases hb : bufAt o with
    | some b =>
      by_cases hw : w = 8
      · simp only [hr, hb, hw, if_true, Except.ok.injEq] at h
        exact .inr ⟨b, rfl, rfl, hw, h.symm⟩
      · simp [hr, hb, hw] at h
    | none => simp [hr, hb] at h

/-- A host access that goes through is no hazard, and is a legal read or a legal write (R74, R350). -/
theorem hostAccess_inversion {s t : State} {a : Access} (h : hostAccess s a = .next t) :
    hazardous s a = false
    ∧ ((∃ o w ob, a = .read o w ∧ hostRead s o w = .ok ob
          ∧ t = { s with observed := s.observed ++ [ob], hazardWindow := s.status.busy })
      ∨ (∃ o w v, a = .write o w v ∧ hostWrite s o w v = .ok t)) := by
  unfold hostAccess at h
  cases hz : hazardous s a with
  | true => simp [hz] at h
  | false =>
    refine ⟨rfl, ?_⟩
    simp only [hz, Bool.false_eq_true, if_false] at h
    cases a with
    | read o w =>
      simp only at h
      cases hr : hostRead s o w with
      | ok ob => rw [hr] at h; injection h with h; exact .inl ⟨o, w, ob, rfl, hr, h.symm⟩
      | error f => rw [hr] at h; cases h
    | write o w v =>
      simp only at h
      cases hr : hostWrite s o w v with
      | ok u => rw [hr] at h; injection h with h; exact .inr ⟨o, w, v, rfl, by rw [hr, h]⟩
      | error f => rw [hr] at h; cases h

/-- A STATUS read is never a hazard and never illegal: it always goes through (R24, R350). -/
theorem hostAccess_statusRead (s : State) :
    hostAccess s statusRead
      = .next { s with
          observed := s.observed ++ [.word (regOffset .status) s.status.word], hazardWindow := s.status.busy } := by
  have hz : hazardous s statusRead = false := by simp [hazardous]
  have hr : hostRead s (regOffset .status) 32 = .ok (.word (regOffset .status) s.status.word) := by
    simp [hostRead, regAt_offset, State.readReg]
  rw [hostAccess.eq_def, hz]
  simp [statusRead, hr]

/-! ## Turns and steps -/

/-- The engine's turn performs LATCHED or ends it as an illegal command; with BUSY = 0 nothing happens (R301). -/
theorem engineTurn_inversion {s t : State} (h : engineTurn s = .next t) :
    (s.status.busy = false ∧ t = s)
    ∨ (s.status.busy = true ∧ ∃ i, decode s.latched = .ok i ∧ exec i s = .next t)
    ∨ (s.status.busy = true ∧ (∃ e, decode s.latched = .error e) ∧ t = complete s (.raise .illegalCommand)) := by
  unfold engineTurn at h
  cases hb : s.status.busy with
  | false => simp only [hb, Bool.false_eq_true, if_false] at h; injection h with h; exact .inl ⟨rfl, h.symm⟩
  | true =>
    simp only [hb, if_true] at h
    cases hd : decode s.latched with
    | ok i => rw [hd] at h; exact .inr (.inl ⟨rfl, i, rfl, h⟩)
    | error e => rw [hd] at h; injection h with h; exact .inr (.inr ⟨rfl, ⟨e, rfl⟩, h.symm⟩)

/-- The host's turn makes one access of its program, or nothing when the program is at an end (R80, R106). -/
theorem hostTurn_inversion {s t : State} (h : hostTurn s = .next t) :
    (s.program = [] ∧ t = s)
    ∨ (∃ a rest, s.program = .access a :: rest ∧ hostAccess { s with program := rest } a = .next t)
    ∨ (∃ rest, s.program = .wait :: rest
        ∧ hostAccess (if waitDone s then { s with program := rest } else s) statusRead = .next t) := by
  unfold hostTurn at h
  cases hp : s.program with
  | nil => rw [hp] at h; injection h with h; exact .inl ⟨rfl, h.symm⟩
  | cons op rest =>
    cases op with
    | access a => rw [hp] at h; exact .inr (.inl ⟨a, rest, rfl, h⟩)
    | wait => rw [hp] at h; exact .inr (.inr ⟨rest, rfl, h⟩)

/-- A step is a turn of the agent whose turn it is, the schedule advanced (R80). -/
theorem step_inversion {s t : State} (h : step s = .next t) :
    (s.mover = .engine ∧ engineTurn s.advanceSchedule = .next t)
    ∨ (s.mover = .host ∧ hostTurn s.advanceSchedule = .next t)
    ∨ (s.mover = .reset ∧ t = resetEvent s.advanceSchedule) := by
  unfold step at h
  cases hm : s.mover with
  | engine => rw [hm] at h; exact .inl ⟨rfl, h⟩
  | host => rw [hm] at h; exact .inr (.inl ⟨rfl, h⟩)
  | reset => rw [hm] at h; injection h with h; exact .inr (.inr ⟨rfl, h.symm⟩)

end Sys2Proof.Machine
end

