-- ==== Sys2Proof/Tests/Slice0.lean ====
section
/-! SUPPORT. Tests on values the spec writes out (95_test_vectors.md, named V-…; words of 30_encoding.md), ill-formed
terms that the checks refuse, and for each statement with hypotheses a state that meets them. -/
namespace Sys2Proof.Tests
open Sys2Proof.Machine

set_option maxRecDepth 20000

/-! ## Helpers -/

/-- "cfg T" of 95_test_vectors.md. -/
def cfgT : CfgRegs := ⟨4, 2, 1, 0, 0, 0, 0, 0, 0⟩

/-- The state after reset with this configuration locked. -/
def lockedWith (c : CfgRegs) : State := { State.reset with cfg := c, status := ⟨.ok, false, true, true, false⟩ }

/-- Octets written as numbers. -/
def octs (ns : List Nat) : List Byte := ns.map fun n => BitVec.ofNat 8 n

/-- A state with a buffer's first octets set. -/
def fill (s : State) (b : Buf) (ns : List Nat) : State := s.store b 0 (octs ns)

/-- Does a step answer a next state of which this holds? -/
def answers (o : Host.Outcome State Fault Refusal) (p : State → Bool) : Bool :=
  match o with
  | .next t => p t
  | .fault _ => false
  | .refused _ => false

/-- Does a command end with this code? -/
def endsWith (c : StatusCode) (o : Host.Outcome State Fault Refusal) : Bool := answers o fun t => t.status.code == c

/-- FRAME holding these octets, FRAME_LEN their number. -/
def withFrame (s : State) (ns : List Nat) : State :=
  { fill s .frame ns with frameLen := BitVec.ofNat 32 ns.length }

/-- Does FRAME[0..FRAME_LEN) hold exactly these octets? -/
def frameIs (ns : List Nat) (t : State) : Bool :=
  t.frameLen.toNat == ns.length && t.octets .frame 0 ns.length == octs ns

/-- FRAME_LEN, FLD_OFFSET, FLD_WIDTH and FLD_VALUE set under cfg T. -/
def fieldState (ns : List Nat) (off w lo hi : Word) : State :=
  { withFrame (lockedWith cfgT) ns with fld := ⟨off, w, lo, hi⟩ }

/-- The header of V-PH-1. -/
def hdr1 : HdrRegs := ⟨4, 2, 1, 2, 0, 1, 512, 0, 0, 0, 1, 2, 5, 0⟩

/-- "V-PH-1 registers" under a configuration. -/
def headerState (c : CfgRegs) (h : HdrRegs) : State := { lockedWith c with hdr := h }

/-- SECHDR = A0..A5, SECTRL = B0..BF, a payload and the data-field header registers (V-DFH-1, V-DF). -/
def fieldInputs (d : DfhRegs) (payload : List Nat) : State :=
  { fill (fill (fill (lockedWith cfgT) .sechdr [0xA0, 0xA1, 0xA2, 0xA3, 0xA4, 0xA5])
      .sectrl [0xB0, 0xB1, 0xB2, 0xB3, 0xB4, 0xB5, 0xB6, 0xB7, 0xB8, 0xB9, 0xBA, 0xBB, 0xBC, 0xBD, 0xBE, 0xBF])
      .payload payload with
    dfh := d
    payloadLen := BitVec.ofNat 32 payload.length }

/-- "V-TF-1 inputs" with a configuration, a header and OCF_VALID of their own. -/
def tf1 (c : CfgRegs) (h : HdrRegs) (ocfValid : Word) : State :=
  { fill (fill (lockedWith c) .sechdr (List.replicate 6 0)) .sectrl (List.replicate 16 0) with
    hdr := h
    dfh := ⟨7, 0, 0⟩
    ocfValid := ocfValid }

/-- The header registers of "V-TF-1 inputs". -/
def hdrTf1 : HdrRegs := ⟨0, 0, 0, 2, 0, 1, 0, 0, 0, 0, 0, 2, 5, 0⟩

/-- The configuration of "V-TF-2 inputs". -/
def cfgTf2 : CfgRegs := { cfgT with izLen := 2, fecfEn := 1 }

/-- "V-TF-2 inputs". -/
def tf2 : State :=
  let s := fill (fill (lockedWith cfgTf2) .iz [0xCA, 0xFE]) .sechdr [0x51, 0x52, 0x53, 0x54, 0x55, 0x56]
  let s := fill (fill s .payload [0xDE, 0xAD, 0xBE]) .sectrl
    [0x60, 0x61, 0x62, 0x63, 0x64, 0x65, 0x66, 0x67, 0x68, 0x69, 0x6A, 0x6B, 0x6C, 0x6D, 0x6E, 0x6F]
  let s := fill (fill s .ocf [0x0C, 0x0C, 0x0C, 0x0C]) .fecf [0xF1, 0xF2, 0xF3, 0xF4]
  { s with
    hdr := ⟨0, 0, 0, 2, 0, 1, 0, 0, 0, 0, 1, 2, 5, 0⟩
    ocfValid := 1
    dfh := ⟨0, 3, 0⟩
    payloadLen := 3 }

/-- The frame of V-TF-1. -/
def frameTf1 : List Nat :=
  [0x40, 0x00, 0x28, 0x41, 0x00, 0x21, 0x02, 0x00, 0x00, 0x00, 0x05, 0, 0, 0, 0, 0, 0, 0xE0] ++ List.replicate 16 0

/-- The frame of V-TF-2. -/
def frameTf2 : List Nat :=
  [0x40, 0x00, 0x28, 0x41, 0x00, 0x30, 0x0A, 0x00, 0x00, 0x00, 0x05, 0xCA, 0xFE] ++
  [0x51, 0x52, 0x53, 0x54, 0x55, 0x56, 0x03, 0x00, 0x00, 0xDE, 0xAD, 0xBE] ++
  [0x60, 0x61, 0x62, 0x63, 0x64, 0x65, 0x66, 0x67, 0x68, 0x69, 0x6A, 0x6B, 0x6C, 0x6D, 0x6E, 0x6F] ++
  [0x0C, 0x0C, 0x0C, 0x0C, 0xF1, 0xF2, 0xF3, 0xF4]

/-- The registers of V-SP-1. -/
def sp1 : SpRegs := ⟨0, 1, 0, 0x123, 3, 5, 0⟩

/-- The registers of "SP2 inputs". -/
def sp2 : SpRegs := ⟨0, 0, 1, 2047, 1, 16383, 0⟩

/-- "SP2 inputs", with packet registers of its own. -/
def sp2State (p : SpRegs) : State :=
  { fill (fill (lockedWith { cfgT with spShLen := 4 }) .spsh [1, 2, 3, 4]) .payload [0xAA, 0xBB] with
    sp := p
    payloadLen := 2 }

/-- The packet of V-SP-2. -/
def packetSp2 : List Nat := [0x0F, 0xFF, 0x7F, 0xFF, 0x00, 0x05, 0x01, 0x02, 0x03, 0x04, 0xAA, 0xBB]

/-! ## Decoding: each word written out from R100 and R102 as RSV, H, OPCODE -/

theorem test_decode_lockConfig : decode 0b00000000000000000000000_0_00000001 = .ok .lockConfig := by decide

theorem test_decode_writeField : decode 0b00000000000000000000000_0_00000010 = .ok .writeField := by decide

theorem test_decode_readField : decode 0b00000000000000000000000_0_00000011 = .ok .readField := by decide

theorem test_decode_phEncode : decode 0b00000000000000000000000_0_00010000 = .ok .phEncode := by decide

theorem test_decode_phDecode : decode 0b00000000000000000000000_0_00010001 = .ok .phDecode := by decide

theorem test_decode_dfEncode : decode 0b00000000000000000000000_0_00100000 = .ok .dfEncode := by decide

theorem test_decode_dfDecode : decode 0b00000000000000000000000_0_00100001 = .ok .dfDecode := by decide

theorem test_decode_tfEncode : decode 0b00000000000000000000000_0_00110000 = .ok (.tfEncode false) := by decide

theorem test_decode_tfEncode_hook : decode 0b00000000000000000000000_1_00110000 = .ok (.tfEncode true) := by decide

theorem test_decode_tfDecode : decode 0b00000000000000000000000_0_00110001 = .ok .tfDecode := by decide

theorem test_decode_spEncode : decode 0b00000000000000000000000_0_01000000 = .ok .spEncode := by decide

theorem test_decode_spDecode : decode 0b00000000000000000000000_0_01000001 = .ok .spDecode := by decide

/-- V-CD-6: unassigned opcodes. -/
theorem test_decode_unknownOpcode :
    [0x00000000, 0x00000004, 0x0000000F, 0x00000012, 0x0000001F, 0x00000022, 0x00000032, 0x00000042, 0x000000FF].map decode
      = List.replicate 9 (.error .unknownOpcode) := by decide

/-- V-CD-5: RSV bit 9 beside PH_ENCODE; and the highest RSV bit. -/
theorem test_decode_reservedBits :
    decode 0x00000210 = .error .reservedBitsSet ∧ decode 0x80000130 = .error .reservedBitsSet := by decide

/-- V-CD-3: WRITE_FIELD with H = 1. -/
theorem test_decode_hookElsewhere : decode 0x00000102 = .error .hookOnOtherCommand := by decide

/-- TF_ENCODE.H is the word 0x130 (R102). -/
theorem test_encode_hook : encode (.tfEncode true) = 0x00000130 ∧ encode .spDecode = 0x00000041 := by decide

/-! ## Well-formedness: an ill-formed term for each check -/

theorem test_wf_octetOutside :
    (HostLine.wb .sechdr 6 0).wf = false ∧ (HostLine.wb .sechdr 5 0).wf = true
    ∧ (HostLine.rb .frame 131072).wf = false ∧ (HostLine.rb .frame 131071).wf = true := by decide

theorem test_wf_octetsOutside :
    (HostLine.wbs .ocf 2 [1, 2, 3]).wf = false ∧ (HostLine.wbs .ocf 2 [1, 2]).wf = true
    ∧ (HostLine.rbs .spsh 65530 7).wf = false ∧ (HostLine.rbs .spsh 65530 6).wf = true := by decide

theorem test_wf_commandWord :
    wfCommandWord 0x00000012 = false ∧ wfCommandWord 0x00000210 = false ∧ wfCommandWord 0x00000102 = false
    ∧ wfCommandWord 0x00000130 = true := by decide

/-! ## Commands: the vectors of 95_test_vectors.md -/

/-- V-LK-1: the lock answers OK, and STATUS reads 0x60. -/
theorem test_lockConfig :
    answers (exec .lockConfig { State.reset with cfg := { State.reset.cfg with version := 4 } })
      (fun t => t.status.word == 0x60) = true := by decide

/-- V-LK-2, V-LK-4, V-LK-6: second lock, and ranges just exceeded. -/
theorem test_lockConfig_checks :
    endsWith (.err .configuration) (exec .lockConfig (lockedWith cfgT)) = true
    ∧ endsWith (.err .fieldOverflow) (exec .lockConfig { State.reset with cfg := { cfgT with izLen := 65536 } }) = true
    ∧ endsWith (.err .fieldOverflow) (exec .lockConfig { State.reset with cfg := { cfgT with fcMode := 2 } }) = true
    ∧ endsWith .ok (exec .lockConfig { State.reset with cfg := { cfgT with izLen := 65535 } }) = true := by decide

/-- V-BF-1 and V-BF-10: a field across an octet boundary. -/
theorem test_writeField :
    answers (exec .writeField (fieldState [0, 0] 4 8 0xAB 0)) (frameIs [0x0A, 0xB0]) = true
    ∧ answers (exec .writeField (fieldState [0, 0] 7 2 3 0)) (frameIs [0x01, 0x80]) = true := by decide

/-- V-BF-3 to V-BF-8, V-BF-14, V-BF-15 on WRITE_FIELD. -/
theorem test_writeField_checks :
    endsWith (.err .range) (exec .writeField (fieldState [0, 0] 0 65 0 0)) = true
    ∧ endsWith (.err .range) (exec .writeField { fieldState [] 0 8 0 0 with frameLen := 131073 }) = true
    ∧ endsWith (.err .range) (exec .writeField (fieldState [0, 0] 0xFFFFFFFF 8 0 0)) = true
    ∧ endsWith (.err .fieldOverflow) (exec .writeField (fieldState [0, 0] 0 16 0x10000 0)) = true
    ∧ endsWith (.err .fieldOverflow) (exec .writeField (fieldState [0, 0] 16 0 1 0)) = true
    ∧ endsWith .ok (exec .writeField (fieldState [0, 0] 16 0 0 0)) = true := by decide

/-- V-BF-12: 64 bits into the register pair. -/
theorem test_readField :
    answers (exec .readField (fieldState [0x01, 0x23, 0x45, 0x67, 0x89, 0xAB, 0xCD, 0xEF] 0 64 0 0))
      (fun t => t.fld.valueHi == 0x01234567 && t.fld.valueLo == 0x89ABCDEF) = true := by decide

/-- V-BF-3, V-BF-5, V-BF-13 to V-BF-15 on READ_FIELD. -/
theorem test_readField_checks :
    endsWith (.err .range) (exec .readField (fieldState [0, 0] 0 65 0 0)) = true
    ∧ endsWith (.err .range) (exec .readField { fieldState [] 0 8 0 0 with frameLen := 131073 }) = true
    ∧ endsWith (.err .range) (exec .readField (fieldState [0, 0] 9 8 0 0)) = true
    ∧ answers (exec .readField (fieldState [] 0 0 7 0)) (fun t => t.fld.value == 0) = true := by decide

/-- V-PH-1a and V-PH-1b. -/
theorem test_phEncode :
    answers (exec .phEncode (headerState cfgT hdr1))
      (fun t => frameIs [0x40, 0x00, 0x28, 0x41, 0x02, 0x00, 0x0A, 0x00, 0x00, 0x00, 0x05] t && t.status.word == 0x60) = true
    ∧ answers (exec .phEncode (headerState { cfgT with fcMode := 1 } hdr1))
        (frameIs [0x40, 0x00, 0x28, 0x41, 0x02, 0x00, 0x0A, 0x00, 0x05]) = true := by decide

/-- V-PH-D5 to V-PH-D9, V-PH-D12, V-PH-D14. -/
theorem test_phEncode_checks :
    answers (exec .phEncode (headerState cfgT { hdr1 with spare := 1 })) (fun t => t.status.word == 0xE0) = true
    ∧ endsWith (.err .spareNonzero)
        (exec .phEncode (headerState { cfgT with strictSpare := 1 } { hdr1 with spare := 1 })) = true
    ∧ endsWith (.err .fieldOverflow) (exec .phEncode (headerState cfgT { hdr1 with spare := 4 })) = true
    ∧ endsWith (.err .versionMismatch) (exec .phEncode (headerState cfgT { hdr1 with tfvn := 5 })) = true
    ∧ endsWith (.err .fieldOverflow) (exec .phEncode (headerState cfgT { hdr1 with fcValueHi := 1 })) = true
    ∧ endsWith (.err .fieldOverflow)
        (exec .phEncode (headerState { cfgT with fcMode := 1 } { hdr1 with fcLen := 0, fcValueLo := 1 })) = true
    ∧ endsWith (.err .fieldOverflow) (exec .phEncode (headerState cfgT { hdr1 with vcid := 0x100 })) = true := by decide

/-- V-PH-1c and V-PH-1d, with V-PH-D21's octets after the header. -/
theorem test_phDecode :
    answers (exec .phDecode (withFrame (lockedWith cfgT)
        [0x40, 0x00, 0x28, 0x41, 0x02, 0x00, 0x0A, 0x00, 0x00, 0x00, 0x05, 1, 2, 3, 4, 5])) (fun t => t.hdr == hdr1) = true
    ∧ answers (exec .phDecode (withFrame (lockedWith { cfgT with fcMode := 1 })
        [0x40, 0x00, 0x28, 0x41, 0x02, 0x00, 0x0A, 0x00, 0x05])) (fun t => t.hdr == hdr1) = true := by decide

/-- V-PH-D15 to V-PH-D20, V-PH-D22. -/
theorem test_phDecode_checks :
    endsWith (.err .range) (exec .phDecode { lockedWith cfgT with frameLen := 131073 }) = true
    ∧ endsWith (.err .truncatedData) (exec .phDecode { lockedWith cfgT with frameLen := 6 }) = true
    ∧ endsWith (.err .truncatedData) (exec .phDecode (withFrame (lockedWith { cfgT with fcMode := 1 })
        [0x40, 0x00, 0x28, 0x41, 0x02, 0x00, 0x0A, 0x00])) = true
    ∧ endsWith (.err .versionMismatch) (exec .phDecode (withFrame (lockedWith cfgT)
        [0x50, 0x00, 0x28, 0x41, 0x02, 0x00, 0x0A, 0x00, 0x00, 0x00, 0x05])) = true
    ∧ endsWith (.err .spareNonzero) (exec .phDecode (withFrame (lockedWith { cfgT with strictSpare := 1 })
        [0x40, 0x00, 0x28, 0x41, 0x02, 0x00, 0x1A, 0x00, 0x00, 0x00, 0x05])) = true
    ∧ answers (exec .phDecode (withFrame (lockedWith cfgT)
        [0x40, 0x00, 0x28, 0x41, 0x02, 0x00, 0x1A, 0x00, 0x00, 0x00, 0x05])) (fun t => t.status.word == 0xE0) = true := by
  decide

/-- V-DFH-1a and V-DF-1. -/
theorem test_dfEncode :
    answers (exec .dfEncode (fieldInputs ⟨3, 1, 0⟩ [0x11, 0x22]))
      (frameIs [0xA0, 0xA1, 0xA2, 0xA3, 0xA4, 0xA5, 0x61, 0x11, 0x22, 0xB0, 0xB1, 0xB2, 0xB3, 0xB4, 0xB5, 0xB6, 0xB7,
        0xB8, 0xB9, 0xBA, 0xBB, 0xBC, 0xBD, 0xBE, 0xBF]) = true
    ∧ answers (exec .dfEncode (fieldInputs ⟨0, 1, 2⟩ []))
        (fun t => frameIs [0xA0, 0xA1, 0xA2, 0xA3, 0xA4, 0xA5, 0x01, 0x00, 0x02, 0xB0, 0xB1, 0xB2, 0xB3, 0xB4, 0xB5,
          0xB6, 0xB7, 0xB8, 0xB9, 0xBA, 0xBB, 0xBC, 0xBD, 0xBE, 0xBF] t && t.dfhFhpPresent == 1) = true := by decide

/-- V-DF-5 to V-DF-7, V-DF-11 to V-DF-13, V-DFH-1d. -/
theorem test_dfEncode_checks :
    endsWith (.err .range) (exec .dfEncode { fieldInputs ⟨0, 0, 0⟩ [] with payloadLen := 131073 }) = true
    ∧ endsWith (.err .fieldOverflow) (exec .dfEncode (fieldInputs ⟨8, 0, 0⟩ [])) = true
    ∧ endsWith (.err .fieldOverflow) (exec .dfEncode (fieldInputs ⟨0, 32, 0⟩ [])) = true
    ∧ endsWith (.err .fieldOverflow) (exec .dfEncode (fieldInputs ⟨0, 0, 65536⟩ [])) = true
    ∧ endsWith .ok (exec .dfEncode (fieldInputs ⟨2, 5, 65536⟩ [])) = true
    ∧ endsWith .ok (exec .dfEncode { fieldInputs ⟨0, 0, 0⟩ [] with payloadLen := 131047 }) = true
    ∧ endsWith (.err .range) (exec .dfEncode { fieldInputs ⟨0, 0, 0⟩ [] with payloadLen := 131048 }) = true := by decide

/-- V-DFH-1b: payload octets are not read as a pointer. -/
theorem test_dfDecode :
    answers (exec .dfDecode { withFrame (lockedWith cfgT)
        [0xA0, 0xA1, 0xA2, 0xA3, 0xA4, 0xA5, 0x61, 0x11, 0x22, 0xB0, 0xB1, 0xB2, 0xB3, 0xB4, 0xB5, 0xB6, 0xB7, 0xB8, 0xB9,
          0xBA, 0xBB, 0xBC, 0xBD, 0xBE, 0xBF] with dfh := ⟨0, 0, 99⟩ })
      (fun t => t.dfh == ⟨3, 1, 0⟩ && t.dfhFhpPresent == 0 && t.payloadLen == 2
        && t.octets .payload 0 2 == octs [0x11, 0x22]) = true := by decide

/-- V-DF-8, V-DF-9, V-DF-14, V-DF-10. -/
theorem test_dfDecode_checks :
    endsWith (.err .range) (exec .dfDecode { lockedWith cfgT with frameLen := 131073 }) = true
    ∧ endsWith (.err .truncatedData) (exec .dfDecode { lockedWith cfgT with frameLen := 6 }) = true
    ∧ endsWith (.err .truncatedData) (exec .dfDecode (withFrame (lockedWith cfgT)
        ([0xA0, 0xA1, 0xA2, 0xA3, 0xA4, 0xA5, 0x01, 0x00, 0x02] ++ List.replicate 15 0xB0))) = true
    ∧ endsWith .ok (exec .dfDecode (withFrame (lockedWith cfgT)
        ([0xA0, 0xA1, 0xA2, 0xA3, 0xA4, 0xA5, 0xE0] ++ List.replicate 16 0xB0))) = true := by decide

/-- V-TF-1 and V-TF-2. -/
theorem test_tfEncode :
    answers (exec (.tfEncode false) (tf1 cfgT hdrTf1 0))
      (fun t => frameIs frameTf1 t && t.hdr.scid == 2 && t.hdr.tfLength == 33) = true
    ∧ answers (exec (.tfEncode false) tf2)
        (fun t => frameIs frameTf2 t && t.hdr.tfLength == 48 && t.octets .fecf 0 4 == octs [0xF1, 0xF2, 0xF3, 0xF4]) = true := by
  decide

/-- V-TF-4 to V-TF-8, V-TF-10, V-VC-1d, V-BND-1b, V-BND-1d. -/
theorem test_tfEncode_checks :
    endsWith (.err .configuration) (exec (.tfEncode true) (tf1 cfgT hdrTf1 0)) = true
    ∧ endsWith (.err .range) (exec (.tfEncode false) { tf1 cfgT hdrTf1 0 with payloadLen := 131073 }) = true
    ∧ endsWith (.err .fieldOverflow) (exec (.tfEncode false) (tf1 cfgT { hdrTf1 with vcid := 64 } 0)) = true
    ∧ endsWith (.err .fieldOverflow) (exec (.tfEncode false) (tf1 cfgT { hdrTf1 with ocfFlag := 1 } 2)) = true
    ∧ endsWith (.err .configuration) (exec (.tfEncode false) (tf1 cfgT hdrTf1 1)) = true
    ∧ endsWith (.err .configuration) (exec (.tfEncode false) (tf1 cfgT { hdrTf1 with ocfFlag := 1 } 0)) = true
    ∧ endsWith (.err .spareNonzero)
        (exec (.tfEncode false) (tf1 { cfgT with strictSpare := 1 } { hdrTf1 with spare := 3 } 0)) = true
    ∧ endsWith .ok (exec (.tfEncode false) { tf1 cfgT hdrTf1 0 with payloadLen := 65502 }) = true
    ∧ endsWith (.err .fieldOverflow) (exec (.tfEncode false) { tf1 cfgT hdrTf1 0 with payloadLen := 65503 }) = true := by
  decide

/-- V-TF-2r. -/
theorem test_tfDecode :
    answers (exec .tfDecode (withFrame (lockedWith cfgTf2) frameTf2))
      (fun t => t.dfh == ⟨0, 3, 0⟩ && t.payloadLen == 3 && t.ocfValid == 1
        && t.octets .payload 0 3 == octs [0xDE, 0xAD, 0xBE] && t.octets .iz 0 2 == octs [0xCA, 0xFE]
        && t.octets .sechdr 0 6 == octs [0x51, 0x52, 0x53, 0x54, 0x55, 0x56]
        && t.octets .ocf 0 4 == octs [0x0C, 0x0C, 0x0C, 0x0C]
        && t.octets .fecf 0 4 == octs [0xF1, 0xF2, 0xF3, 0xF4]) = true := by decide

/-- V-TF-D1, V-TF-D3 to V-TF-D10. -/
theorem test_tfDecode_checks :
    endsWith (.err .lengthMismatch) (exec .tfDecode (withFrame (lockedWith cfgT) (frameTf1 ++ [0]))) = true
    ∧ endsWith (.err .truncatedData) (exec .tfDecode (withFrame (lockedWith cfgT) (frameTf1.take 10))) = true
    ∧ endsWith (.err .versionMismatch) (exec .tfDecode (withFrame (lockedWith cfgT) (0x50 :: frameTf1.drop 1))) = true
    ∧ endsWith (.err .spareNonzero) (exec .tfDecode (withFrame (lockedWith { cfgT with strictSpare := 1 })
        (frameTf1.take 6 ++ 0x32 :: frameTf1.drop 7))) = true
    ∧ endsWith (.err .underflow) (exec .tfDecode (withFrame (lockedWith { cfgT with fecfEn := 1 })
        [0x40, 0x00, 0x28, 0x41, 0x00, 0x0A, 0x0A, 0x00, 0x00, 0x00, 0x05])) = true
    ∧ endsWith (.err .truncatedData) (exec .tfDecode (withFrame (lockedWith cfgT)
        [0x40, 0x00, 0x28, 0x41, 0x00, 0x0F, 0x02, 0x00, 0x00, 0x00, 0x05, 0, 0, 0, 0, 0])) = true
    ∧ endsWith (.err .truncatedData) (exec .tfDecode (withFrame (lockedWith cfgT)
        (frameTf1.take 17 ++ List.replicate 17 0))) = true
    ∧ endsWith .ok (exec .tfDecode (withFrame (lockedWith cfgT) frameTf1)) = true := by decide

/-- V-SP-2. -/
theorem test_spEncode :
    answers (exec .spEncode (sp2State sp2)) (fun t => frameIs packetSp2 t && t.sp.dataLen == 5) = true := by decide

/-- V-SP-4, V-SP-6 to V-SP-8. -/
theorem test_spEncode_checks :
    endsWith (.err .underflow) (exec .spEncode { lockedWith cfgT with sp := { sp2 with shFlag := 0 } }) = true
    ∧ endsWith (.err .fieldOverflow) (exec .spEncode (sp2State { sp2 with apid := 2048 })) = true
    ∧ endsWith (.err .range) (exec .spEncode { lockedWith cfgT with payloadLen := 131073 }) = true
    ∧ endsWith .ok (exec .spEncode { lockedWith cfgT with sp := sp1, payloadLen := 65536 }) = true
    ∧ endsWith (.err .fieldOverflow) (exec .spEncode { lockedWith cfgT with sp := sp1, payloadLen := 65537 }) = true := by
  decide

/-- V-SP-2r. -/
theorem test_spDecode :
    answers (exec .spDecode (withFrame (lockedWith { cfgT with spShLen := 4 }) packetSp2))
      (fun t => t.sp == { sp2 with dataLen := 5 } && t.payloadLen == 2
        && t.octets .spsh 0 4 == octs [1, 2, 3, 4] && t.octets .payload 0 2 == octs [0xAA, 0xBB]) = true := by decide

/-- V-SP-1b, V-SP-1c, V-SP-10 to V-SP-12. -/
theorem test_spDecode_checks :
    endsWith (.err .range) (exec .spDecode { lockedWith cfgT with frameLen := 131073 }) = true
    ∧ endsWith (.err .truncatedData) (exec .spDecode { lockedWith cfgT with frameLen := 5 }) = true
    ∧ endsWith (.err .truncatedData) (exec .spDecode (withFrame (lockedWith cfgT)
        [0x11, 0x23, 0xC0, 0x05, 0x00, 0x09, 1, 2, 3, 4, 5, 6, 7, 8])) = true
    ∧ endsWith (.err .lengthMismatch) (exec .spDecode (withFrame (lockedWith cfgT)
        [0x11, 0x23, 0xC0, 0x05, 0x00, 0x09, 1, 2, 3, 4, 5, 6, 7, 8, 9, 10, 11])) = true
    ∧ endsWith (.err .underflow) (exec .spDecode (withFrame (lockedWith { cfgT with spShLen := 8 }) packetSp2)) = true := by
  decide

/-! ## Steps: V-CD-1, V-CD-2 and the first lines of program P1 -/

/-- V-CD-1 and V-CD-2: one step from the accepted word. -/
theorem test_step_runs_latched :
    answers (step (State.reset.withFetchWord 32 0x10)) (fun t => t.status.word == 0x26) = true
    ∧ answers (step (State.reset.withFetchWord 32 0x12)) (fun t => t.status.word == 0x29 && t.latched == 0x12) = true := by
  decide

/-- P1: the write of CFG_VERSION is the access (W, 0x020, 32, 4). -/
theorem test_step_host_write :
    answers (step { State.reset with program := expandLine (.wr .cfgVersion 4) }) (fun t => t.cfg.version == 4) = true
    ∧ expandLine (.wr .cfgVersion 4) = [.access (.write 0x020 32 4)] := by decide

/-! ## Witnesses: for each statement with hypotheses, a state and operands that meet all of them, clause by clause -/

/-- A pending command word on the engine's turn. -/
def pending (w : Word) : State := (lockedWith cfgT).accept w

/-- What a command leaves behind when it commits or raises: its next state. -/
def after (o : Host.Outcome State Fault Refusal) (s : State) : State :=
  match o with
  | .next t => t
  | .fault _ => s
  | .refused _ => s

/-- A row that accepts a word, for the second half of DecodeFollowsOpcodeMap. -/
theorem witness_decodeFollowsOpcodeMap :
    opcodeRow (.tfEncode false) ∈ opcodeTable
    ∧ (0x00000130 : Word) &&& (opcodeRow (.tfEncode false)).mask = (opcodeRow (.tfEncode false)).pattern := by decide

/-- Busy states with an illegal word of each kind, and with a legal one. -/
theorem witness_illegalWordsRaiseIllegalCommand :
    ((pending 0x42).status.busy = true ∧ (pending 0x42).latched.toNat % 256 = 0x42)
    ∧ ((pending 0x201).status.busy = true ∧ (pending 0x201).latched.toNat / 512 ≠ 0)
    ∧ ((pending 0x131).status.busy = true ∧ (pending 0x131).latched.toNat / 256 % 2 = 1
        ∧ (pending 0x131).latched.toNat % 256 ≠ 0x30)
    ∧ ((pending 0x130).status.busy = true ∧ decode (pending 0x130).latched = .ok (.tfEncode true)) := by decide

theorem witness_stepPerformsLatchedCommand :
    ((pending 0x41).mover = .engine ∧ (pending 0x41).status.busy = true ∧ decode (pending 0x41).latched = .ok .spDecode)
    ∧ (let s := { State.reset with schedule := [.engine] }
       s.mover = .engine ∧ s.status.busy = false) := by decide

theorem witness_stepMakesNextHostAccess :
    (let s := { State.reset with program := [.access (.read 0x020 32), .wait] }
     s.mover = .host ∧ s.program = .access (.read 0x020 32) :: [.wait])
    ∧ (let s := { lockedWith cfgT with program := [.wait] }
       s.mover = .host ∧ s.program = .wait :: [] ∧ s.status.busy = false ∧ s.status.done = true)
    ∧ (let s := { pending 0x41 with program := [.wait], schedule := [.host] }
       s.mover = .host ∧ s.program = .wait :: [] ∧ ¬(s.status.busy = false ∧ s.status.done = true))
    ∧ (State.reset.mover = .host ∧ State.reset.program = []) := by decide

theorem witness_engineStepAlwaysCompletes :
    (pending 0xFFFFFFFF).mover = .engine ∧ (pending 0xFFFFFFFF).status.busy = true := by decide

theorem witness_failureWritesOnlyStatus :
    exec .phEncode State.reset = .next (State.reset.failed .configuration)
    ∧ (State.reset.failed .configuration).status.code ≠ .ok := ⟨rfl, by decide⟩

theorem witness_lockCheckComesFirst : Instr.tfEncode true ≠ .lockConfig ∧ State.reset.status.locked = false := by decide

/-- A success with SPARE_NZ set, one without, and a failure. -/
theorem witness_spareFlagTellsNonzeroSpare :
    (∃ t, exec .phEncode (headerState cfgT { hdr1 with spare := 1 }) = .next t ∧ t.status.spareNz = true)
    ∧ (∃ t, exec .phEncode (headerState cfgT hdr1) = .next t ∧ t.status.spareNz = false)
    ∧ (∃ t, exec .readField (fieldState [0, 0] 9 8 0 0) = .next t ∧ t.status.code ≠ .ok) :=
  ⟨⟨_, rfl, by decide⟩, ⟨_, rfl, by decide⟩, ⟨_, rfl, by decide⟩⟩

/-- Two states that differ in PAYLOAD_LEN, which READ_FIELD does not read. -/
theorem witness_commandsReadOnlyTheirOperands :
    let s := fieldState [0x0A, 0xB0] 4 8 0 0
    let s' := { s with payloadLen := 9 }
    s.status.locked = s'.status.locked
    ∧ (s.status.locked = true → s.cfg.legal = true ∧ s'.cfg.legal = true)
    ∧ (∀ r ∈ readRegs .readField, s.readReg r = s'.readReg r)
    ∧ (∀ b ∈ readBufs .readField, ∀ k, k < b.size → s.octet b k = s'.octet b k)
    ∧ (∃ t, exec .readField s = .next t ∧ t.status.code = .ok) ∧ ∃ t', exec .readField s' = .next t' :=
  ⟨rfl, by decide, by decide, fun _ _ _ _ => rfl, ⟨_, rfl, by decide⟩, ⟨_, rfl⟩⟩

theorem witness_everyStepKeepsInvariant :
    State.reset.Inv ∧ step State.reset = .next State.reset
    ∧ (State.reset.accept 0x12).Inv ∧ ∃ t, step (State.reset.accept 0x12) = .next t :=
  ⟨by decide, rfl, by decide, ⟨_, rfl⟩⟩

theorem witness_resetClearsEveryRegister :
    let s := { pending 0x41 with schedule := [.reset] }
    s.mover = .reset ∧ s.status.busy = true ∧ s.cfg.version = 4 := by decide

/-- A locked machine that meets a configuration write and then an engine turn. -/
theorem witness_lockedConfigurationIsConstant :
    let s := { lockedWith cfgT with program := expandLine (.wr .cfgVersion 5), schedule := [.host, .engine] }
    s.status.locked = true ∧ Agent.reset ∉ s.schedule ∧ ∃ t, core.run 2 s = .next t :=
  ⟨rfl, by decide, ⟨_, rfl⟩⟩

theorem witness_acceptedCommandCompletes :
    let s := { pending 0x41 with program := [.wait], schedule := [.host, .host] }
    s.status.busy = true ∧ onlyWaiting s.program = true ∧ Agent.reset ∉ s.schedule := by decide

theorem witness_execLineAcceptsPerformsAndWaits :
    let s := { lockedWith cfgT with program := expandLine (.exec .phEncode) ++ [HostOp.access statusRead] }
    s.idle ∧ s.schedule = [] ∧ s.program = expandLine (.exec .phEncode) ++ [HostOp.access statusRead] := by decide

/-- The last octets of two windows that lie side by side, and the first of the next. -/
theorem witness_addressMapIsDisjoint :
    15 < Buf.sectrl.size ∧ 3 < Buf.ocf.size ∧ 0 < Buf.fecf.size ∧ bufBase .ocf + 3 ≠ bufBase .fecf + 0
    ∧ bufBase .fecf + 0 = bufBase .fecf + 0 := by decide

/-- The three classes: a RW register, a CFG register before the lock, a RO register. -/
theorem witness_registerWritesFollowTheirClass :
    (lockedWith cfgT).idle ∧ (Reg.fldValueHi ≠ .cmd ∧ Reg.fldValueHi ∉ [.status, .dfhFhpPresent, .spDataLen])
    ∧ State.reset.idle ∧ (Reg.cfgSpShLen ∈ cfgRegs ∧ State.reset.status.locked = false)
    ∧ Reg.spDataLen ∈ [.status, .dfhFhpPresent, .spDataLen] := by decide

theorem witness_lockedConfigurationIgnoresWrites :
    (lockedWith cfgT).idle ∧ (lockedWith cfgT).status.locked = true ∧ Reg.cfgVersion ∈ cfgRegs
    ∧ (lockedWith cfgT).mover ≠ .reset ∧ ∃ t, step (lockedWith cfgT) = .next t :=
  ⟨by decide, rfl, by decide, by decide, ⟨_, rfl⟩⟩

theorem witness_commandWriteAccepts : (lockedWith cfgT).idle ∧ State.reset.idle := by decide

/-- Offsets beside the edges of the register region and of the windows, legal and not. -/
theorem witness_illegalAccessesAreBusErrors :
    State.reset.idle
    ∧ (regAt 0x0EC = some .fldValueHi ∧ regAt 0x0F0 = none ∧ regAt 0x0ED = none)
    ∧ (bufAt 0x105 = some .sechdr ∧ bufAt 0x106 = none ∧ bufAt 0x127 = some .fecf ∧ bufAt 0x128 = none)
    ∧ (bufAt 0x1FFFF = none ∧ bufAt 0x20000 = some .frame ∧ bufAt 0x7FFFF = some .spsh ∧ bufAt 0x80000 = none) := by
  decide

theorem witness_accessesWhilePendingAreHazards :
    (pending 0x41).status.busy = true
    ∧ ({ pending 0x41 with status := okStatus false }).hazardWindow = true
    ∧ Access.read 0x008 32 ≠ Access.read 0x004 32 := by decide

theorem witness_readsHaveNoSideEffects :
    (∃ t, hostAccess State.reset (.read 0x0EC 32) = .next t)
    ∧ ∃ t, hostAccess (withFrame State.reset [7]) (.read 0x20000 8) = .next t := ⟨⟨_, rfl⟩, ⟨_, rfl⟩⟩

theorem witness_octetWritesReplaceOneOctet :
    State.reset.idle ∧ 131071 < Buf.frame.size ∧ 0 < Buf.sechdr.size ∧ 5 < Buf.sechdr.size := by decide

/-- Locked; one range exceeded by one; every range at its limit. -/
theorem witness_lockConfigFreezesLegalConfiguration :
    (lockedWith cfgT).status.locked = true
    ∧ (State.reset.status.locked = false ∧ ¬ legalRanges { cfgT with version := 16 })
    ∧ legalRanges ⟨15, 65535, 1, 15, 65535, 1, 1, 1, 65535⟩ := by decide

/-- A field that ends at the last bit, with the greatest value of its width. -/
theorem witness_writeFieldSetsItsWireBits :
    let s := fieldState [0, 0, 0, 0, 0, 0, 0, 0] 0 64 0xFFFFFFFF 0xFFFFFFFF
    s.status.locked = true ∧ s.fld.width.toNat ≤ 64 ∧ s.frameLen.toNat ≤ 131072
    ∧ s.fld.offset.toNat + s.fld.width.toNat ≤ 8 * s.frameLen.toNat ∧ s.fld.value < 2 ^ s.fld.width.toNat := by decide

theorem witness_readFieldReadsItsWireBits :
    let s := fieldState [0x01, 0x23, 0x45, 0x67, 0x89, 0xAB, 0xCD, 0xEF] 0 64 0 0
    s.status.locked = true ∧ s.fld.width.toNat ≤ 64 ∧ s.frameLen.toNat ≤ 131072
    ∧ s.fld.offset.toNat + s.fld.width.toNat ≤ 8 * s.frameLen.toNat := by decide

theorem witness_bitFieldCheckOrder : (fieldState [0, 0] 4 8 0xAB 0).status.locked = true := by decide

theorem witness_bitFieldFrame :
    (∃ t, exec .writeField (fieldState [0, 0] 4 8 0xAB 0) = .next t)
    ∧ ∃ t, exec .readField (fieldState [0, 0] 4 8 0xAB 0) = .next t := ⟨⟨_, rfl⟩, ⟨_, rfl⟩⟩

/-- READ_FIELD runs on FLD_VALUE registers that hold something else than the value written (V-BF-10). -/
theorem witness_writeFieldReadFieldInverse :
    (∃ t, exec .writeField (fieldState [0, 0] 7 2 3 0) = .next t ∧ t.status.code = .ok
      ∧ (fieldState [0x01, 0x80] 7 2 0 0).holdsFrameOf t)
    ∧ ∃ t, exec .readField (fieldState [0, 0] 7 2 3 0) = .next t ∧ t.status.code = .ok :=
  ⟨⟨_, rfl, by decide, by decide⟩, ⟨_, rfl, by decide⟩⟩

/-- The header of V-PH-D1: every field at its limit. -/
def hdrFull : HdrRegs := ⟨15, 65535, 1, 63, 15, 1, 65535, 1, 1, 3, 1, 7, 0xFFFFFFFF, 0⟩

/-- The conditions under which PH_ENCODE succeeds. -/
abbrev phInputsGood (s : State) : Prop :=
  s.status.locked = true ∧ legalRanges s.cfg ∧ headerBounds s.hdr ∧ countBound s.cfg s.hdr
  ∧ s.hdr.tfvn = s.cfg.version ∧ ¬ strictSpareHit s.cfg s.hdr.spare

/-- V-PH-1, and every field at its limit in both modes (V-PH-D1, V-PH-D2). -/
theorem witness_primaryHeaderEncodeLaysOutFields :
    phInputsGood (headerState cfgT hdr1)
    ∧ phInputsGood (headerState { cfgT with version := 15 } hdrFull)
    ∧ phInputsGood (headerState { cfgT with version := 15, fcMode := 1 } { hdrFull with fcValueHi := 0x00FFFFFF }) :=
  ⟨by decide, by decide, by decide⟩

theorem witness_primaryHeaderDecodeReadsFields :
    let s := withFrame (lockedWith { cfgT with fcMode := 1 }) [0x40, 0x00, 0x28, 0x41, 0x02, 0x00, 0x0A, 0x00, 0x05]
    s.status.locked = true ∧ legalRanges s.cfg ∧ s.frameLen.toNat ≤ 131072 ∧ 7 ≤ s.frameLen.toNat
    ∧ (if s.cfg.fcMode.toNat = 0 then 11 else 7 + getBits (inputFrame s) 53 3) ≤ s.frameLen.toNat
    ∧ getBits (inputFrame s) 0 4 = s.cfg.version.toNat
    ∧ ¬(getBits (inputFrame s) 50 2 ≠ 0 ∧ s.cfg.strictSpare.toNat = 1) := by decide

theorem witness_primaryHeaderCheckOrder :
    (headerState cfgT hdr1).status.locked = true ∧ legalRanges (headerState cfgT hdr1).cfg := by decide

theorem witness_primaryHeaderFrame :
    (∃ t, exec .phEncode (headerState cfgT hdr1) = .next t)
    ∧ ∃ t, exec .phDecode (withFrame (lockedWith cfgT) frameTf1) = .next t := ⟨⟨_, rfl⟩, ⟨_, rfl⟩⟩

theorem witness_primaryHeaderRoundTrip :
    ∃ t, exec .phEncode (headerState cfgT hdr1) = .next t ∧ t.status.code = .ok := ⟨_, rfl, by decide⟩

/-- A pointer present with an empty payload, and one absent with the longest payload. -/
theorem witness_dataFieldEncodeLaysOutRegions :
    let good := fun s : State =>
      s.status.locked = true ∧ s.payloadLen.toNat ≤ 131072 ∧ dfhBounds s.dfh
      ∧ 22 + (if s.dfh.rule.toNat ≤ 1 then 3 else 1) + s.payloadLen.toNat ≤ 131072
    good (fieldInputs ⟨1, 31, 65535⟩ []) ∧ good { fieldInputs ⟨7, 31, 65536⟩ [] with payloadLen := 131049 } := by decide

theorem witness_dataFieldDecodeSplitsRegions :
    let s := withFrame (lockedWith cfgT) ([0xA0, 0xA1, 0xA2, 0xA3, 0xA4, 0xA5, 0xE0] ++ List.replicate 16 0xB0)
    s.status.locked = true ∧ s.frameLen.toNat ≤ 131072 ∧ 7 ≤ s.frameLen.toNat
    ∧ 22 + (if getBits (inputFrame s) 48 3 ≤ 1 then 3 else 1) ≤ s.frameLen.toNat := by decide

theorem witness_dataFieldCheckOrder : (fieldInputs ⟨0, 1, 2⟩ []).status.locked = true := by decide

theorem witness_dataFieldFrame :
    (∃ t, exec .dfEncode (fieldInputs ⟨0, 1, 2⟩ []) = .next t)
    ∧ ∃ t, exec .dfDecode (withFrame (lockedWith cfgT) frameTf1) = .next t := ⟨⟨_, rfl⟩, ⟨_, rfl⟩⟩

theorem witness_dataFieldRoundTrip :
    ∃ t, exec .dfEncode (fieldInputs ⟨3, 1, 0⟩ [0x11, 0x22]) = .next t ∧ t.status.code = .ok
      ∧ (withFrame (lockedWith cfgT) ([0xA0, 0xA1, 0xA2, 0xA3, 0xA4, 0xA5, 0x61, 0x11, 0x22] ++
          [0xB0, 0xB1, 0xB2, 0xB3, 0xB4, 0xB5, 0xB6, 0xB7, 0xB8, 0xB9, 0xBA, 0xBB, 0xBC, 0xBD, 0xBE, 0xBF])).holdsFrameOf t :=
  ⟨_, rfl, by decide, by decide⟩

/-- "V-TF-1 inputs" with a payload length. -/
def tf1Long (n : Word) : State := { tf1 cfgT hdrTf1 0 with payloadLen := n }

/-- V-TF-2 with both values of H, and the longest frame (V-BND-1b). -/
theorem witness_frameEncodeLaysOutRegions :
    (frameInputsGood false tf2 ∧ layoutLength tf2 ≤ 65536) ∧ (frameInputsGood true tf2 ∧ tf2.cfg.fecfEn.toNat = 1)
    ∧ frameInputsGood false (tf1Long 65502) ∧ layoutLength (tf1Long 65502) = 65536 :=
  ⟨⟨by decide, by decide⟩, ⟨by decide, by decide⟩, by decide, by decide⟩

theorem witness_frameDecodeSplitsRegions :
    let s := withFrame (lockedWith cfgTf2) frameTf2
    let b := inputFrame s
    s.status.locked = true ∧ legalRanges s.cfg ∧ s.frameLen.toNat ≤ 131072 ∧ 7 ≤ s.frameLen.toNat
    ∧ (if s.cfg.fcMode.toNat = 0 then 11 else 7 + getBits b 53 3) ≤ s.frameLen.toNat
    ∧ getBits b 0 4 = s.cfg.version.toNat ∧ ¬(getBits b 50 2 ≠ 0 ∧ s.cfg.strictSpare.toNat = 1)
    ∧ getBits b 32 16 + 1 = s.frameLen.toNat
    ∧ (if s.cfg.fcMode.toNat = 0 then 11 else 7 + getBits b 53 3) + s.cfg.izLen.toNat
        + (4 * getBits b 52 1 + 4 * s.cfg.fecfEn.toNat) + 22 + 3 ≤ s.frameLen.toNat
    ∧ getBits b (8 * (11 + 2 + 6)) 3 ≤ 1 := by decide

theorem witness_frameEncodeCheckOrder : tf2.status.locked = true ∧ legalRanges tf2.cfg := by decide

theorem witness_frameDecodeCheckOrder :
    (withFrame (lockedWith cfgTf2) frameTf2).status.locked = true ∧ legalRanges (withFrame (lockedWith cfgTf2) frameTf2).cfg := by
  decide

theorem witness_frameCodecFrame :
    (∃ t, exec (.tfEncode false) tf2 = .next t) ∧ (∃ t, exec (.tfEncode true) tf2 = .next t)
    ∧ ∃ t, exec .tfDecode (withFrame (lockedWith cfgTf2) frameTf2) = .next t := ⟨⟨_, rfl⟩, ⟨_, rfl⟩, ⟨_, rfl⟩⟩

/-- V-TF-2r with every decode output still as reset left it; V-TF-1r without OCF and FECF; and H = 1. -/
theorem witness_frameRoundTrip :
    tf2.cfg.legal = true ∧ tf2.ocfValid = 1 ∧ tf2.cfg.fecfEn = 1
    ∧ (∃ t, exec (.tfEncode false) tf2 = .next t ∧ t.status.code = .ok
        ∧ (withFrame (lockedWith cfgTf2) frameTf2).holdsFrameOf t ∧ (withFrame (lockedWith cfgTf2) frameTf2).cfg = t.cfg)
    ∧ (∃ t, exec (.tfEncode false) (tf1 cfgT hdrTf1 0) = .next t ∧ t.status.code = .ok
        ∧ (withFrame (lockedWith cfgT) frameTf1).holdsFrameOf t ∧ (withFrame (lockedWith cfgT) frameTf1).cfg = t.cfg)
    ∧ (∃ t, exec (.tfEncode true) tf2 = .next t ∧ t.status.code = .ok ∧ (t.accept 0x31).holdsFrameOf t
        ∧ (t.accept 0x31).cfg = t.cfg) :=
  ⟨by decide, rfl, rfl, ⟨_, rfl, by decide, by decide, by decide⟩, ⟨_, rfl, by decide, by decide, by decide⟩,
    ⟨_, rfl, by decide, State.accept_holdsFrameOf _ _, rfl⟩⟩

theorem witness_frameLengthLaw :
    ∃ t, exec (.tfEncode true) tf2 = .next t ∧ t.status.code = .ok := ⟨_, rfl, by decide⟩

/-- The inputs of V-BND-2a: H = 1, every optional region present. -/
def tfFull : State :=
  { tf1 { cfgT with fecfEn := 1 } { hdrTf1 with ocfFlag := 1 } 1 with dfh := ⟨0, 0, 0⟩, payloadLen := 65492 }

/-- The payload at the bound and one octet above it (V-BND-1b, V-BND-1d, V-BND-2a). -/
theorem witness_framePayloadBound :
    (frameInputsGood false (tf1Long 65502) ∧ (tf1Long 65502).cfg.fcMode.toNat = 0 ∧ (tf1Long 65502).cfg.izLen.toNat = 0
      ∧ 2 ≤ (tf1Long 65502).dfh.rule.toNat ∧ (tf1Long 65502).hdr.ocfFlag.toNat = 0
      ∧ (tf1Long 65502).cfg.fecfEn.toNat = 0)
    ∧ frameInputsGood false (tf1Long 65503) ∧ frameInputsGood true tfFull :=
  ⟨⟨by decide, by decide⟩, by decide, by decide⟩

theorem witness_hookWithoutFecfIsConfigurationError :
    (tf1 cfgT hdrTf1 0).cfg.fecfEn.toNat = 0 ∧ State.reset.cfg.fecfEn.toNat = 0 := by decide

/-- V-SP-2, and the longest data field (V-SP-7). -/
theorem witness_packetEncodeLaysOutRegions :
    let good := fun s : State =>
      let sh := if s.sp.shFlag.toNat = 1 then s.cfg.spShLen.toNat else 0
      s.status.locked = true ∧ s.payloadLen.toNat ≤ 131072 ∧ packetBounds s.sp ∧ sh + s.payloadLen.toNat ≠ 0
      ∧ sh + s.payloadLen.toNat ≤ 65536
    good (sp2State sp2) ∧ good { lockedWith cfgT with sp := sp1, payloadLen := 65536 } := by decide

theorem witness_packetDecodeSplitsRegions :
    let s := withFrame (lockedWith { cfgT with spShLen := 4 }) packetSp2
    s.status.locked = true ∧ s.frameLen.toNat ≤ 131072 ∧ s.frameLen.toNat = 7 + getBits (inputFrame s) 32 16
    ∧ (if getBits (inputFrame s) 4 1 = 1 then s.cfg.spShLen.toNat else 0) ≤ getBits (inputFrame s) 32 16 + 1 := by decide

theorem witness_packetCheckOrder : (sp2State sp2).status.locked = true := by decide

theorem witness_packetFrame :
    (∃ t, exec .spEncode (sp2State sp2) = .next t)
    ∧ ∃ t, exec .spDecode (withFrame (lockedWith { cfgT with spShLen := 4 }) packetSp2) = .next t := ⟨⟨_, rfl⟩, ⟨_, rfl⟩⟩

theorem witness_packetRoundTrip :
    (sp2State sp2).sp.shFlag = 1
    ∧ ∃ t, exec .spEncode (sp2State sp2) = .next t ∧ t.status.code = .ok
      ∧ (withFrame (lockedWith { cfgT with spShLen := 4 }) packetSp2).holdsFrameOf t
      ∧ (withFrame (lockedWith { cfgT with spShLen := 4 }) packetSp2).cfg = t.cfg :=
  ⟨rfl, ⟨_, rfl, by decide, by decide, by decide⟩⟩

theorem witness_packetLengthLaw :
    (∃ t, exec .spEncode (sp2State sp2) = .next t ∧ t.status.code = .ok)
    ∧ ∃ t, exec .spDecode (withFrame (lockedWith { cfgT with spShLen := 4 }) packetSp2) = .next t ∧ t.status.code = .ok :=
  ⟨⟨_, rfl, by decide⟩, ⟨_, rfl, by decide⟩⟩

end Sys2Proof.Tests
end

section
/-! SUPPORT. The bit fields of FRAME: what the octets of a buffer and a store into them are wire bit by wire bit
(R11, R13), WRITE_FIELD's commit as PutBits over the whole frame (R150), and the two statements of WRITE_FIELD and
READ_FIELD (R150, R151). -/
namespace Sys2Proof.Machine

/-! ## Commands that succeed -/

/-- A command whose effect commits ends in completion of that commit (R302). -/
theorem exec_of_commit {i : Instr} {s c : State} {nz : Bool} (h : effectOf i s = .commit c nz) :
    exec i s = .next (complete s (.commit c nz)) := by
  rw [exec_eq, h]

/-- A completed commit hands its frame to the next command as committed (R25, R302). -/
@[simp] theorem inputFrame_complete_commit (s t : State) (nz : Bool) :
    inputFrame (complete s (.commit t nz)) = inputFrame t := State.octets_complete_commit s t nz _ _ _

/-! ## Digits of GetBits (R12) -/

/-- GetBits digit by digit: wire bits inside the field, zero above it (R12). -/
theorem testBit_getBits_eq_decide_and (s : List Byte) (off w i : Nat) :
    (getBits s off w).testBit i = (decide (i < w) && wireBit s (off + w - 1 - i)) := by
  by_cases hi : i < w
  · rw [testBit_getBits _ _ _ _ hi, decide_eq_true hi, Bool.true_and]
  · have hlt : getBits s off w < 2 ^ i :=
      Nat.lt_of_lt_of_le (getBits_lt s off w) (Nat.pow_le_pow_right (by omega) (by omega))
    rw [Nat.testBit_lt_two_pow hlt, decide_eq_false hi, Bool.false_and]

/-! ## Wire bits of a buffer -/

/-- Wire bit `k` of a block of octets is a bit of the octet it falls in (R11). -/
theorem wireBit_octets (s : State) (b : Buf) (i n k : Nat) (hk : k < 8 * n) :
    wireBit (s.octets b i n) k = (s.octet b (i + k / 8)).getLsbD (7 - k % 8) := by
  rw [wireBit, State.getD_octets _ _ _ _ _ (by omega)]

/-- The wire bits of a block, counted from the start of its buffer (R11). -/
theorem wireBit_octets_from_zero (s : State) (b : Buf) (i m n k : Nat) (h8 : 8 * i ≤ k) (hm : k - 8 * i < 8 * m)
    (hn : k < 8 * n) : wireBit (s.octets b i m) (k - 8 * i) = wireBit (s.octets b 0 n) k := by
  rw [wireBit_octets _ _ _ _ _ hm, wireBit_octets _ _ _ _ _ hn]
  have hoctet : i + (k - 8 * i) / 8 = 0 + k / 8 := by omega
  have hbit : (k - 8 * i) % 8 = k % 8 := by omega
  rw [hoctet, hbit]

/-- After a store a buffer's wire bits are those stored, inside the block, and as before outside it (R13). -/
theorem wireBit_octets_store (s : State) (b : Buf) (i n k : Nat) (vs : List Byte) (hi : i + vs.length ≤ b.size)
    (hn : n ≤ b.size) (hk : k < 8 * n) :
    wireBit ((s.store b i vs).octets b 0 n) k
      = if 8 * i ≤ k ∧ k < 8 * (i + vs.length) then wireBit vs (k - 8 * i) else wireBit (s.octets b 0 n) k := by
  rw [wireBit_octets _ _ _ _ _ hk, wireBit_octets _ _ _ _ _ hk, Nat.zero_add,
    State.octet_store _ _ _ _ _ _ hi (by omega)]
  by_cases hin : 8 * i ≤ k ∧ k < 8 * (i + vs.length)
  · have hoctet : (k - 8 * i) / 8 = k / 8 - i := by omega
    have hbit : (k - 8 * i) % 8 = k % 8 := by omega
    rw [if_pos hin, if_pos ⟨rfl, by omega⟩, wireBit, hoctet, hbit]
  · rw [if_neg hin, if_neg (by omega)]

/-! ## WRITE_FIELD's commit is PutBits over the frame (R150) -/

/-- A field inside `n` octets touches none beyond them. -/
theorem fieldOctets_le {off w n : Nat} (h : off + w ≤ 8 * n) : off / 8 + fieldOctets off w ≤ n := by
  unfold fieldOctets; split <;> omega

/-- A field lies in the octets it touches, counted from the first of them. -/
theorem field_le_fieldOctets {off w : Nat} (h : 0 < fieldOctets off w) : off % 8 + w ≤ 8 * fieldOctets off w := by
  obtain rfl | hw := Nat.eq_zero_or_pos w
  · simp [fieldOctets] at h
  · rw [fieldOctets, if_neg (by omega)]; omega

/-- Every wire bit of a field lies in an octet the field touches. -/
theorem field_subset_fieldOctets {off w k : Nat} (h1 : off ≤ k) (h2 : k < off + w) :
    8 * (off / 8) ≤ k ∧ k < 8 * (off / 8 + fieldOctets off w) := by
  unfold fieldOctets; split <;> omega

/-- Rewriting only the octets the field touches leaves FRAME as R150 has it, PutBits over the whole frame
(assumption log 13). -/
theorem octets_putFrameBits (s : State) (off w v n : Nat) (h : off + w ≤ 8 * n) (hn : n ≤ Buf.frame.size) :
    (putFrameBits s off w v).octets .frame 0 n = putBits (s.octets .frame 0 n) off w v := by
  have hin := fieldOctets_le h
  apply eq_of_wireBit_eq _ _ (by simp)
  intro k hk
  rw [State.length_octets] at hk
  rw [wireBit_putBits _ _ _ _ _ (by simpa using h), putFrameBits,
    wireBit_octets_store _ _ _ _ _ _ (by simp; omega) hn hk, length_putBits, State.length_octets]
  by_cases hblock : 8 * (off / 8) ≤ k ∧ k < 8 * (off / 8 + fieldOctets off w)
  · have hfield : off % 8 + w ≤ 8 * fieldOctets off w := field_le_fieldOctets (by omega)
    rw [if_pos hblock, wireBit_putBits _ _ _ _ _ (by simpa using hfield),
      wireBit_octets_from_zero s .frame _ _ n k hblock.1 (by omega) hk]
    by_cases hbit : off ≤ k ∧ k < off + w
    · have hdigit : off % 8 + w - 1 - (k - 8 * (off / 8)) = off + w - 1 - k := by omega
      rw [if_pos hbit, if_pos (by omega), hdigit]
    · rw [if_neg hbit, if_neg (by omega)]
  · rw [if_neg hblock, if_neg fun hbit => hblock (field_subset_fieldOctets hbit.1 hbit.2)]

/-- PutBits over FRAME[0..FRAME_LEN), as R150 states the commit of WRITE_FIELD. -/
theorem inputFrame_putFrameBits (s : State) (off w v : Nat) (h : off + w ≤ 8 * s.frameLen.toNat)
    (hn : s.frameLen.toNat ≤ Buf.frame.size) :
    inputFrame (putFrameBits s off w v) = putBits (inputFrame s) off w v :=
  octets_putFrameBits s off w v _ h hn

/-! ## The two statements -/

/-- Settles O29: the commit is PutBits over FRAME[0..FRAME_LEN), whose wire bits R12 gives. -/
theorem writeFieldSetsItsWireBits : Obligations.WriteFieldSetsItsWireBits := by
  intro s hlock hwidth hlen hbounds hvalue
  have heff := (underLock_eq_commit (s := s)).mpr
    ⟨hlock, writeFieldEffect_commit.mpr ⟨hwidth, hlen, hbounds, hvalue, rfl, rfl⟩⟩
  refine ⟨_, exec_of_commit heff, by simp [putFrameBits, hlock, okStatus], fun k _ => ?_⟩
  rw [inputFrame_complete_commit, inputFrame_putFrameBits _ _ _ _ hbounds hlen,
    wireBit_putBits _ _ _ _ _ (by simpa [inputFrame] using hbounds)]

/-- Settles O30: FLD_VALUE is GetBits of the frame, which 64 bits hold, and R12 gives its digits. -/
theorem readFieldReadsItsWireBits : Obligations.ReadFieldReadsItsWireBits := by
  intro s hlock hwidth hlen hbounds
  have heff := (underLock_eq_commit (s := s)).mpr
    ⟨hlock, readFieldEffect_commit.mpr ⟨hwidth, hlen, hbounds, rfl, rfl⟩⟩
  refine ⟨_, exec_of_commit heff, by simp [hlock, okStatus], fun i => ?_⟩
  have hfits : getBits (inputFrame s) s.fld.offset.toNat s.fld.width.toNat < 2 ^ 64 :=
    Nat.lt_of_lt_of_le (getBits_lt _ _ _) (Nat.pow_le_pow_right (by omega) hwidth)
  rw [complete_commit_fld, FldRegs.value_split _ _ hfits, testBit_getBits_eq_decide_and]

end Sys2Proof.Machine
end

section
/-! SUPPORT. What each command changes, said once for all of them (R42): the frames of the named updates compose into
the frame of every commit, and the five statements `…Frame` are its instances. -/
namespace Sys2Proof.Machine

/-! ## Frames compose -/

/-- The frame of a commit: besides the listed registers and blocks STATUS stays too, as completion alone writes it. -/
abbrev commitKeeps (regs : List Reg) (blocks : List Block) (s c : State) : Prop :=
  keepsAllBut regs blocks s c ∧ c.status = s.status

theorem anyCovers_append {ks ls : List Block} {a : Nat} :
    anyCovers (ks ++ ls) a = false ↔ anyCovers ks a = false ∧ anyCovers ls a = false := by
  simp [anyCovers]

theorem commitKeeps_refl (s : State) : commitKeeps [] [] s s :=
  ⟨⟨fun _ _ _ => rfl, fun _ _ => rfl, rfl, rfl, rfl, rfl, rfl⟩, rfl⟩

theorem commitKeeps_trans {rs rs' : List Reg} {ks ks' : List Block} {s t u : State} (h : commitKeeps rs ks s t)
    (h' : commitKeeps rs' ks' t u) : commitKeeps (rs ++ rs') (ks ++ ks') s u := by
  obtain ⟨⟨hr, hb, h1, h2, h3, h4, h5⟩, hs⟩ := h
  obtain ⟨⟨hr', hb', h1', h2', h3', h4', h5'⟩, hs'⟩ := h'
  refine ⟨⟨fun r hmem hne => ?_, fun a ha => ?_, h1'.trans h1, h2'.trans h2, h3'.trans h3, h4'.trans h4,
    h5'.trans h5⟩, hs'.trans hs⟩
  · obtain ⟨hm, hm'⟩ := not_or.mp (mt List.mem_append.mpr hmem)
    exact (hr' r hm' hne).trans (hr r hm hne)
  · obtain ⟨ha, ha'⟩ := anyCovers_append.mp ha
    exact (hb' a ha').trans (hb a ha)

/-- A frame may list more registers than are written, in any order. -/
theorem commitKeeps_of_subset {rs rs' : List Reg} {ks : List Block} {s t : State} (h : commitKeeps rs ks s t)
    (hsub : rs ⊆ rs') : commitKeeps rs' ks s t := by
  obtain ⟨⟨hr, hrest⟩, hs⟩ := h
  exact ⟨⟨fun r hmem => hr r fun hm => hmem (hsub hm), hrest⟩, hs⟩

/-! ## The frames of the named updates -/

theorem commitKeeps_store (s : State) (b : Buf) (i n : Nat) (vs : List Byte) (hn : vs.length ≤ n) :
    commitKeeps [] [⟨b, i, n⟩] s (s.store b i vs) :=
  ⟨⟨fun r _ _ => State.readReg_store s b i vs r,
    fun a ha => State.byte_store_apart s b i n vs a hn (by simpa [anyCovers] using ha), rfl, rfl, rfl, rfl, rfl⟩, rfl⟩

/-- A change of registers alone keeps whatever the changed registers' names leave out. -/
theorem commitKeeps_of_readReg {rs : List Reg} {s c : State} (hr : ∀ r, r ∉ rs → c.readReg r = s.readReg r)
    (hmem : c.mem = s.mem) (hrest : c.draws = s.draws ∧ c.hazardWindow = s.hazardWindow ∧ c.program = s.program
      ∧ c.schedule = s.schedule ∧ c.observed = s.observed) (hstatus : c.status = s.status) : commitKeeps rs [] s c :=
  ⟨⟨fun r hmem _ => hr r hmem, fun a _ => State.byte_congr hmem hrest.1 a, hrest⟩, hstatus⟩

theorem commitKeeps_setReg (s : State) (r : Reg) (v : Word) (h : r ≠ .cmd ∧ r ≠ .status) :
    commitKeeps [r] [] s (s.setReg r v) := by
  refine commitKeeps_of_readReg (fun q hq => ?_) (by simp) (by simp) (by simp)
  rw [State.readReg_setReg s r q v h, if_neg (by simpa using hq)]

theorem commitKeeps_hdr (s : State) (h : HdrRegs) : commitKeeps hdrRegs [] s { s with hdr := h } :=
  commitKeeps_of_readReg (fun r => by cases r <;> simp [hdrRegs, State.readReg]) rfl (by simp) rfl

/-- TF_ENCODE gives five of the header registers new values (R230, R236). -/
theorem commitKeeps_frameHeader (s c : State) (h : c.hdr = s.hdr) :
    commitKeeps [.hdrTfvn, .hdrScid, .hdrSrcDst, .hdrMapId, .hdrTfLength] [] c { c with hdr := frameHeader s } :=
  commitKeeps_of_readReg (fun r => by cases r <;> simp [frameHeader, State.readReg, h]) rfl (by simp) rfl

theorem commitKeeps_dfh (s : State) (d : DfhRegs) :
    commitKeeps [.dfhRule, .dfhProtoId, .dfhFhp] [] s { s with dfh := d } :=
  commitKeeps_of_readReg (fun r => by cases r <;> simp [State.readReg]) rfl (by simp) rfl

theorem commitKeeps_sp (s : State) (p : SpRegs) :
    commitKeeps [.spVersion, .spType, .spShFlag, .spApid, .spSeqFlags, .spSeqCount, .spDataLen] []
      s { s with sp := p } :=
  commitKeeps_of_readReg (fun r => by cases r <;> simp [State.readReg]) rfl (by simp) rfl

theorem commitKeeps_fldValue (s : State) (lo hi : Word) :
    commitKeeps [.fldValueLo, .fldValueHi] [] s { s with fld := { s.fld with valueLo := lo, valueHi := hi } } :=
  commitKeeps_of_readReg (fun r => by cases r <;> simp [State.readReg]) rfl (by simp) rfl

theorem commitKeeps_storeHookValue (s : State) (h : Bool) (f : List Byte) (hf : f.length ≤ 4) :
    commitKeeps [] (if h then [⟨.fecf, 0, 4⟩] else []) s (storeHookValue s h f) := by
  cases h
  · exact commitKeeps_refl s
  · exact commitKeeps_store s .fecf 0 4 f hf

theorem commitKeeps_storeOcf (s : State) (h : HdrRegs) (b : List Byte) (p : Nat) :
    commitKeeps [] (if h.ocfFlag = 1 then [⟨.ocf, 0, 4⟩] else []) s (storeOcf s h b p) := by
  unfold storeOcf
  split
  · exact commitKeeps_store s .ocf 0 4 _ (by simp)
  · exact commitKeeps_refl s

theorem commitKeeps_storeFecf (s : State) (b : List Byte) (n : Nat) :
    commitKeeps [] (if s.cfg.fecfEn = 1 then [⟨.fecf, 0, 4⟩] else []) s (storeFecf s b n) := by
  unfold storeFecf
  split
  · exact commitKeeps_store s .fecf 0 4 _ (by simp)
  · exact commitKeeps_refl s

/-! ## The stores of the codecs -/

/-- The OCF and FECF of an encode are no longer than the layout has them, also where CFG_FECF_EN is above 1 (R114). -/
theorem length_frameOctets_le (s : State) (h : Bool) (hf : s.hdr.ocfFlag.toNat ≤ 1) :
    (frameOctets s h).length ≤ frameLength s := by
  rw [frameOctets, List.length_append, ← length_frameBody s hf]
  by_cases h1 : s.cfg.fecfEn = 1
  · simp [h1]
  · rw [if_neg h1, List.length_nil]; omega

/-- What TF_ENCODE's commit leaves unchanged (R230). -/
theorem commitKeeps_frameCommit (s : State) (h : Bool) (hfit : s.hdr.perFrameFit = true) :
    commitKeeps (writtenRegs (.tfEncode h)) (writtenBlocks (.tfEncode h) s) s
      { storeHookValue (s.store .frame 0 (frameOctets s h)) h (fecfRegion s h) with
        frameLen := BitVec.ofNat 32 (frameLength s)
        hdr := frameHeader s
        dfhFhpPresent := flagWord (present s.dfh.rule.toNat) } := by
  obtain ⟨-, -, -, -, -, hocf, -⟩ := (HdrRegs.perFrameFit_iff _).mp hfit
  have hstores := commitKeeps_trans
    (commitKeeps_store s .frame 0 (frameLength s) (frameOctets s h) (length_frameOctets_le s h hocf))
    (commitKeeps_storeHookValue _ h (fecfRegion s h) (by simp))
  have hregs := commitKeeps_trans
    (commitKeeps_trans (commitKeeps_trans hstores
      (commitKeeps_setReg _ .frameLen (BitVec.ofNat 32 (frameLength s)) (by decide)))
      (commitKeeps_frameHeader s _ (by simp [State.setReg])))
    (commitKeeps_setReg _ .dfhFhpPresent (flagWord (present s.dfh.rule.toNat)) (by decide))
  simp only [List.append_nil] at hregs
  exact hregs

/-- The regions ParseDF answers are no longer than R192 has them, however short the sequence. -/
theorem parseDF_lengths_le {n : Nat} {b : List Byte} {f : DataField} (h : parseDF n b = some f) :
    f.secHdr.length ≤ 6 ∧ f.payload.length ≤ parsedPayloadLength n b ∧ f.secTrl.length ≤ 16 := by
  obtain ⟨-, -, rfl⟩ := parseDF_eq_some.mp h
  exact ⟨List.length_take_le _ _, List.length_take_le _ _, List.length_take_le _ _⟩

/-- The registers and blocks a parsed data field goes to (R191). -/
theorem commitKeeps_storeDataField (s : State) {n : Nat} {b : List Byte} {f : DataField} (h : parseDF n b = some f) :
    commitKeeps [.dfhRule, .dfhProtoId, .dfhFhp, .dfhFhpPresent, .payloadLen]
      [⟨.sechdr, 0, 6⟩, ⟨.payload, 0, parsedPayloadLength n b⟩, ⟨.sectrl, 0, 16⟩] s (storeDataField s f) := by
  obtain ⟨h1, h2, h3⟩ := parseDF_lengths_le h
  have hstores := commitKeeps_trans
    (commitKeeps_trans (commitKeeps_store s .sechdr 0 6 f.secHdr h1)
      (commitKeeps_store _ .payload 0 (parsedPayloadLength n b) f.payload h2))
    (commitKeeps_store _ .sectrl 0 16 f.secTrl h3)
  have hregs := commitKeeps_trans
    (commitKeeps_trans
      (commitKeeps_trans hstores
        (commitKeeps_dfh _ ⟨BitVec.ofNat 32 f.rule, BitVec.ofNat 32 f.protoId, BitVec.ofNat 32 f.fhp⟩))
      (commitKeeps_setReg _ .dfhFhpPresent (flagWord (present f.rule)) (by decide)))
    (commitKeeps_setReg _ .payloadLen (BitVec.ofNat 32 f.payload.length) (by decide))
  exact hregs

/-- The registers and blocks a parsed packet goes to (R261). -/
theorem commitKeeps_storePacket (s : State) (b : List Byte) (sl n : Nat) :
    commitKeeps [.spVersion, .spType, .spShFlag, .spApid, .spSeqFlags, .spSeqCount, .spDataLen, .payloadLen]
      [⟨.spsh, 0, sl⟩, ⟨.payload, 0, n⟩] s (storePacket s b sl n) := by
  have hstores := commitKeeps_trans (commitKeeps_store s .spsh 0 sl ((b.drop 6).take sl) (by simp))
    (commitKeeps_store _ .payload 0 n ((b.drop (6 + sl)).take n) (by simp))
  have hregs := commitKeeps_trans (commitKeeps_trans hstores (commitKeeps_sp _ (unpackSP b)))
    (commitKeeps_setReg _ .payloadLen (BitVec.ofNat 32 n) (by decide))
  exact hregs

/-- The registers and blocks a parsed frame goes to (R231). -/
theorem commitKeeps_storeFrame (s : State) (n dl : Nat) (b d : List Byte) {f : DataField} (h : parseDF dl d = some f) :
    commitKeeps (hdrRegs ++ [.dfhRule, .dfhProtoId, .dfhFhp, .dfhFhpPresent, .payloadLen, .ocfValid])
      ([⟨.iz, 0, s.cfg.izLen.toNat⟩, ⟨.sechdr, 0, 6⟩, ⟨.payload, 0, parsedPayloadLength dl d⟩, ⟨.sectrl, 0, 16⟩]
        ++ (if (unpackPH s.cfg b).ocfFlag = 1 then [⟨.ocf, 0, 4⟩] else [])
        ++ (if s.cfg.fecfEn = 1 then [⟨.fecf, 0, 4⟩] else [])) s (storeFrame s n b dl f) := by
  have hzone := commitKeeps_store s .iz 0 s.cfg.izLen.toNat
    ((b.drop (s.cfg.phLen (selectorOf b))).take s.cfg.izLen.toNat) (by simp)
  have hfield := commitKeeps_trans hzone (commitKeeps_storeDataField _ h)
  have hocf := commitKeeps_trans hfield (commitKeeps_storeOcf _ (unpackPH s.cfg b) b
    (s.cfg.phLen (selectorOf b) + s.cfg.izLen.toNat + dl))
  have hfecf := commitKeeps_trans hocf (commitKeeps_storeFecf _ b n)
  have hregs := commitKeeps_trans (commitKeeps_trans hfecf (commitKeeps_hdr _ (unpackPH s.cfg b)))
    (commitKeeps_setReg _ .ocfValid (unpackPH s.cfg b).ocfFlag (by decide))
  simp only [storeOcf_cfg, storeDataField_cfg, State.store_cfg, List.append_nil] at hregs
  exact commitKeeps_of_subset hregs (by decide)

/-! ## The frame of every command (R42) -/

/-- A command that commits under the lock check was locked and passed its own checks (R304). -/
theorem commit_under_lock {s c : State} {k : Effect} {nz : Bool} {P : Prop} (hk : k = .commit c nz ↔ P)
    (h : underLock s k = .commit c nz) : s.status.locked = true ∧ P :=
  (underLock_eq_commit.mp h).imp_right hk.mp

/-- What a command's commit leaves unchanged; LOCK_CONFIG's alone writes STATUS before completion. -/
theorem commitKeeps_of_effectOf {i : Instr} {s c : State} {nz : Bool} (hi : i ≠ .lockConfig)
    (h : effectOf i s = .commit c nz) : commitKeeps (writtenRegs i) (writtenBlocks i s) s c := by
  cases i with
  | lockConfig => exact absurd rfl hi
  | writeField =>
    obtain ⟨-, -, -, -, -, rfl, -⟩ := commit_under_lock writeFieldEffect_commit h
    exact commitKeeps_store s .frame _ _ _ (by simp)
  | readField =>
    obtain ⟨-, -, -, -, rfl, -⟩ := commit_under_lock readFieldEffect_commit h
    exact commitKeeps_fldValue s _ _
  | phEncode =>
    obtain ⟨-, -, -, -, -, rfl, -⟩ := commit_under_lock phEncodeEffect_commit h
    exact commitKeeps_trans (commitKeeps_store s .frame 0 _ _ (by simp)) (commitKeeps_setReg _ .frameLen _ (by simp))
  | phDecode =>
    obtain ⟨-, -, -, -, -, -, rfl, -⟩ := commit_under_lock phDecodeEffect_commit h
    exact commitKeeps_hdr s _
  | dfEncode =>
    obtain ⟨-, -, -, -, -, rfl, -⟩ := commit_under_lock dfEncodeEffect_commit h
    exact commitKeeps_trans (commitKeeps_store s .frame 0 _ _ (by simp))
      (commitKeeps_trans (commitKeeps_setReg _ .frameLen _ (by decide))
        (commitKeeps_setReg _ .dfhFhpPresent _ (by decide)))
  | dfDecode =>
    obtain ⟨-, -, f, hf, rfl, -⟩ := commit_under_lock dfDecodeEffect_commit h
    exact commitKeeps_storeDataField s hf
  | tfEncode hook =>
    obtain ⟨-, -, -, hfit, -, -, -, -, -, -, -, rfl, -⟩ :=
      commit_under_lock tfEncodeEffect_commit h
    exact commitKeeps_frameCommit s hook hfit
  | tfDecode =>
    obtain ⟨-, -, -, -, -, -, -, -, f, hf, rfl, -⟩ :=
      commit_under_lock tfDecodeEffect_commit h
    exact commitKeeps_storeFrame s _ _ _ _ hf
  | spEncode =>
    obtain ⟨-, -, -, -, -, rfl, -⟩ := commit_under_lock spEncodeEffect_commit h
    exact commitKeeps_trans (commitKeeps_store s .frame 0 _ _ (by simp))
      (commitKeeps_trans (commitKeeps_setReg _ .frameLen _ (by decide))
        (commitKeeps_setReg _ .spDataLen _ (by decide)))
  | spDecode =>
    obtain ⟨-, -, -, -, -, rfl, -⟩ := commit_under_lock spDecodeEffect_commit h
    exact commitKeeps_storePacket s _ _ _

theorem State.readReg_withStatus (s : State) (st : Status) {r : Reg} (h : r ≠ .status) :
    ({ s with status := st } : State).readReg r = s.readReg r := by
  revert h
  cases r <;> simp [State.readReg]

/-- The frame of every command in every state (R42): a failure changes STATUS alone, a success what its row lists. -/
theorem exec_keepsAllBut {i : Instr} {s t : State} (h : exec i s = .next t) :
    keepsAllBut (writtenRegs i) (writtenBlocks i s) s t := by
  rcases exec_inversion h with ⟨c, nz, he, rfl, -⟩ | ⟨e, -, rfl, -⟩
  · by_cases hi : i = .lockConfig
    · subst hi
      obtain ⟨-, -, rfl, -⟩ := lockConfigEffect_commit.mp he
      exact ⟨fun r _ hne => State.readReg_withStatus s _ hne, fun _ _ => rfl, rfl, rfl, rfl, rfl, rfl⟩
    · obtain ⟨⟨hr, hb, hrest⟩, -⟩ := commitKeeps_of_effectOf hi he
      exact ⟨fun r hm hne => (readReg_complete_commit s c nz hne).trans (hr r hm hne), hb, hrest⟩
  · exact ⟨fun r _ hne => readReg_complete_raise s e hne, fun _ _ => rfl, rfl, rfl, rfl, rfl, rfl⟩

/-- LOCKED is written by LOCK_CONFIG alone (R30, R302). -/
theorem exec_locked {i : Instr} {s t : State} (hi : i ≠ .lockConfig) (h : exec i s = .next t) :
    t.status.locked = s.status.locked := by
  rcases exec_inversion h with ⟨c, nz, he, rfl, -⟩ | ⟨e, -, rfl, -⟩
  · obtain ⟨-, hs⟩ := commitKeeps_of_effectOf hi he
    rw [complete_commit_status, hs]
  · rfl

/-! ## The five statements -/

/-- Settles O32: the frame of every command, read for WRITE_FIELD and READ_FIELD. -/
theorem bitFieldFrame : Obligations.BitFieldFrame := fun _ _ =>
  ⟨fun h => ⟨exec_keepsAllBut h, exec_locked (by decide) h⟩, fun h => ⟨exec_keepsAllBut h, exec_locked (by decide) h⟩⟩

/-- Settles O37: the frame of every command, read for PH_ENCODE and PH_DECODE. -/
theorem primaryHeaderFrame : Obligations.PrimaryHeaderFrame := fun _ _ =>
  ⟨fun h => ⟨exec_keepsAllBut h, exec_locked (by decide) h⟩, fun h => ⟨exec_keepsAllBut h, exec_locked (by decide) h⟩⟩

/-- Settles O42: the frame of every command, read for DF_ENCODE and DF_DECODE. -/
theorem dataFieldFrame : Obligations.DataFieldFrame := fun _ _ =>
  ⟨fun h => ⟨exec_keepsAllBut h, exec_locked (by decide) h⟩, fun h => ⟨exec_keepsAllBut h, exec_locked (by decide) h⟩⟩

/-- Settles O48: the frame of every command, read for TF_ENCODE, with either H, and TF_DECODE. -/
theorem frameCodecFrame : Obligations.FrameCodecFrame := fun _ _ =>
  ⟨fun _ h => ⟨exec_keepsAllBut h, exec_locked (by simp) h⟩, fun h => ⟨exec_keepsAllBut h, exec_locked (by decide) h⟩⟩

/-- Settles O56: the frame of every command, read for SP_ENCODE and SP_DECODE. -/
theorem packetFrame : Obligations.PacketFrame := fun _ _ =>
  ⟨fun h => ⟨exec_keepsAllBut h, exec_locked (by decide) h⟩, fun h => ⟨exec_keepsAllBut h, exec_locked (by decide) h⟩⟩

end Sys2Proof.Machine
end

section
/-! SUPPORT. The host's accesses at a register's offset and in a buffer's window as the operations they come down to
(R72, R73), and the statements about them. -/
namespace Sys2Proof.Machine

/-! ## Register classes (R22 to R35) -/

theorem regClass_eq_cmd_iff (r : Reg) : regClass r = .cmd ↔ r = .cmd := by
  cases r <;> decide

theorem regClass_eq_cfg_iff (r : Reg) : regClass r = .cfg ↔ r ∈ cfgRegs := by
  cases r <;> decide

theorem regClass_eq_ro_iff (r : Reg) : regClass r = .ro ↔ r ∈ [.status, .dfhFhpPresent, .spDataLen] := by
  cases r <;> decide

/-- A write that its class lets through stores the value (R22, R30). -/
theorem hostWriteReg_eq_setReg (s : State) {r : Reg} (v : Word) (hcmd : r ≠ .cmd)
    (hro : r ∉ [.status, .dfhFhpPresent, .spDataLen]) (hcfg : r ∈ cfgRegs → s.status.locked = false) :
    hostWriteReg s r v = s.setReg r v := by
  unfold hostWriteReg
  split
  case h_1 => rfl
  case h_2 hc => simp [hcfg ((regClass_eq_cfg_iff r).mp hc)]
  case h_3 hc => exact absurd ((regClass_eq_ro_iff r).mp hc) hro
  case h_4 hc => exact absurd ((regClass_eq_cmd_iff r).mp hc) hcmd

theorem hostWriteReg_ro (s : State) {r : Reg} (v : Word) (h : r ∈ [.status, .dfhFhpPresent, .spDataLen]) :
    hostWriteReg s r v = s := by
  rw [hostWriteReg, (regClass_eq_ro_iff r).mpr h]

theorem hostWriteReg_cfg_locked (s : State) {r : Reg} (v : Word) (h : r ∈ cfgRegs) (hl : s.status.locked = true) :
    hostWriteReg s r v = s := by
  simp [hostWriteReg, (regClass_eq_cfg_iff r).mpr h, hl]

/-- A register write is an accept, or stores nothing, or stores the value where the class allows it (R22, R23). -/
theorem hostWriteReg_cases (s : State) (r : Reg) (v : Word) :
    hostWriteReg s r v = s.accept v ∨ hostWriteReg s r v = s
    ∨ (hostWriteReg s r v = s.setReg r v ∧ r ≠ .cmd ∧ r ∉ [.status, .dfhFhpPresent, .spDataLen]
        ∧ (r ∈ cfgRegs → s.status.locked = false)) := by
  by_cases hcmd : r = .cmd
  · subst hcmd; exact .inl rfl
  · by_cases hro : r ∈ [.status, .dfhFhpPresent, .spDataLen]
    · exact .inr (.inl (hostWriteReg_ro s v hro))
    · by_cases hcfg : r ∈ cfgRegs → s.status.locked = false
      · exact .inr (.inr ⟨hostWriteReg_eq_setReg s v hcmd hro hcfg, hcmd, hro, hcfg⟩)
      · obtain ⟨hmem, hl⟩ := Classical.not_imp.mp hcfg
        exact .inr (.inl (hostWriteReg_cfg_locked s v hmem (by simpa using hl)))

/-! ## Accesses of an idle TFC -/

/-- An idle TFC holds no access back (R350). -/
theorem hazardous_of_idle {s : State} (h : s.idle) (a : Access) : hazardous s a = false := by
  obtain ⟨hbusy, hwindow⟩ := h
  simp [hazardous, hbusy, hwindow]

theorem hostAccess_writeReg {s : State} (h : s.idle) (r : Reg) (v : Word) :
    hostAccess s (.write (regOffset r) 32 v) = .next (hostWriteReg s r v) := by
  rw [hostAccess.eq_def, hazardous_of_idle h]
  simp [hostWrite, regAt_offset]

/-- An idle TFC answers a legal read and closes no window (R72, R73, R75). -/
theorem hostAccess_read {s : State} (h : s.idle) {o w : Nat} {ob : Observation} (hr : hostRead s o w = .ok ob) :
    hostAccess s (.read o w) = .next { s with observed := s.observed ++ [ob] } := by
  obtain ⟨hbusy, hwindow⟩ := id h
  rw [hostAccess.eq_def, hazardous_of_idle h]
  simp [hr, hbusy, ← hwindow]

theorem hostRead_reg (s : State) (r : Reg) : hostRead s (regOffset r) 32 = .ok (.word (regOffset r) (s.readReg r)) := by
  simp [hostRead, regAt_offset]

theorem hostRead_octet (s : State) (b : Buf) {i : Nat} (hi : i < b.size) :
    hostRead s (bufBase b + i) 8 = .ok (.octet (bufBase b + i) (s.octet b i)) := by
  simp [hostRead, regAt_window, bufAt_window b i hi, State.octet]

theorem hostAccess_writeOctet {s : State} (h : s.idle) (b : Buf) {i : Nat} (hi : i < b.size) (v : Byte) :
    hostAccess s (.write (bufBase b + i) 8 v) = .next (s.store b i [v]) := by
  rw [hostAccess.eq_def, hazardous_of_idle h]
  simp [hostWrite, regAt_window, bufAt_window b i hi, State.store]

/-! ## The statements -/

/-- Settles O20: a register is found again by its offset, and octets of windows share none. -/
theorem addressMapIsDisjoint : Obligations.AddressMapIsDisjoint := by
  refine ⟨fun r => ⟨by cases r <;> decide, regOffset_lt r⟩, fun r q h => ?_, fun b => by cases b <;> decide,
    fun b c i j hi hj h => window_injective hi hj h⟩
  have hat := regAt_offset r
  rw [h, regAt_offset q] at hat
  exact (Option.some.inj hat).symm

/-- Settles O21: a write its class lets through is `setReg`, and no other write does anything. -/
theorem registerWritesFollowTheirClass : Obligations.RegisterWritesFollowTheirClass := by
  intro s r v hidle
  refine ⟨fun hcmd hro hcfg => ⟨s.setReg r v, ?_, ?_, fun q hq => ?_, by simp, by simp, ?_⟩, fun hro => ?_,
    hostAccess_read hidle (hostRead_reg s r)⟩
  · rw [hostAccess_writeReg hidle, hostWriteReg_eq_setReg s v hcmd hro hcfg]
  · rw [State.readReg_setReg s r r v ⟨hcmd, by rintro rfl; simp at hro⟩, if_pos rfl]
  · rw [State.readReg_setReg s r q v ⟨hcmd, by rintro rfl; simp at hro⟩, if_neg hq]
  · simpa [State.idle] using hidle
  · rw [hostAccess_writeReg hidle, hostWriteReg_ro s v hro]

/-- Settles O27: an 8-bit write is a store of one octet. -/
theorem octetWritesReplaceOneOctet : Obligations.OctetWritesReplaceOneOctet := by
  intro s b i v hidle hi
  have hfit : i + [v].length ≤ b.size := hi
  refine ⟨⟨s.store b i [v], hostAccess_writeOctet hidle b hi v, ?_, fun c j hj hne => ?_, by simp⟩,
    hostAccess_read hidle (hostRead_octet s b hi)⟩
  · rw [State.octet_store _ _ _ _ _ _ hfit hi, if_pos (by simp)]
    simp
  · rw [State.octet_store _ _ _ _ _ _ hfit hj, if_neg]
    rintro ⟨hc, hle, hlt⟩
    exact hne ⟨hc, by simp at hlt; omega⟩

/-- Settles O23: a write of CMD is the accept of its word. -/
theorem commandWriteAccepts : Obligations.CommandWriteAccepts := by
  intro s w hidle
  refine ⟨s.accept w, hostAccess_writeReg hidle .cmd w, rfl, rfl, rfl, rfl, fun r hcmd hstatus => ?_, fun _ => rfl⟩
  revert hcmd hstatus
  cases r <;> simp [State.readReg]

end Sys2Proof.Machine
end

section
/-! SUPPORT. What every step keeps: the lock with its configuration (R30, R142), and the invariant of the machine. -/
namespace Sys2Proof.Machine

/-! ## The configuration under the lock (R30, R142) -/

theorem State.cfg_of_readReg {s t : State} (h : ∀ r ∈ cfgRegs, t.readReg r = s.readReg r) : t.cfg = s.cfg := by
  simp only [cfgRegs, List.forall_mem_cons, List.not_mem_nil, false_imp_iff, implies_true, and_true,
    State.readReg] at h
  cases hs : s.cfg
  cases ht : t.cfg
  simp_all

/-- No command writes a configuration register (R42). -/
theorem cfgRegs_not_written (i : Instr) : ∀ r ∈ cfgRegs, r ∉ writtenRegs i ∧ r ≠ .status := by
  cases i <;> simp [cfgRegs, writtenRegs, hdrRegs]

theorem exec_cfg {i : Instr} {s t : State} (h : exec i s = .next t) : t.cfg = s.cfg := by
  obtain ⟨hr, -⟩ := exec_keepsAllBut h
  exact State.cfg_of_readReg fun r hmem => hr r (cfgRegs_not_written i r hmem).1 (cfgRegs_not_written i r hmem).2

theorem exec_schedule {i : Instr} {s t : State} (h : exec i s = .next t) : t.schedule = s.schedule := by
  obtain ⟨-, -, -, -, -, hschedule, -⟩ := exec_keepsAllBut h
  exact hschedule

/-- A locked LOCK_CONFIG fails, and no other command writes LOCKED (R140). -/
theorem exec_keeps_locked {i : Instr} {s t : State} (h : exec i s = .next t) (hl : s.status.locked = true) :
    t.status.locked = true := by
  by_cases hi : i = .lockConfig
  · subst hi
    rcases exec_inversion h with ⟨c, nz, he, -, -⟩ | ⟨e, -, rfl, -⟩
    · obtain ⟨hunlocked, -⟩ := lockConfigEffect_commit.mp he
      rw [hl] at hunlocked
      cases hunlocked
    · exact hl
  · rw [exec_locked hi h, hl]

/-- What a turn other than a reset does to the lock: the schedule is not its to change, and a locked configuration
stays locked and as it is. -/
abbrev keepsLock (s t : State) : Prop :=
  t.schedule = s.schedule ∧ (s.status.locked = true → t.status.locked = true ∧ t.cfg = s.cfg)

theorem engineTurn_keepsLock {s t : State} (h : engineTurn s = .next t) : keepsLock s t := by
  rcases engineTurn_inversion h with ⟨-, rfl⟩ | ⟨-, i, -, he⟩ | ⟨-, -, rfl⟩
  · exact ⟨rfl, fun hl => ⟨hl, rfl⟩⟩
  · exact ⟨exec_schedule he, fun hl => ⟨exec_keeps_locked he hl, exec_cfg he⟩⟩
  · exact ⟨rfl, fun hl => ⟨hl, rfl⟩⟩

/-- Setting a register other than a configuration register leaves the configuration. -/
theorem State.setReg_cfg (s : State) {r : Reg} (v : Word) (h : r ∉ cfgRegs) : (s.setReg r v).cfg = s.cfg := by
  revert h
  cases r <;> simp [cfgRegs, State.setReg]

theorem hostWriteReg_keepsLock (s : State) (r : Reg) (v : Word) : keepsLock s (hostWriteReg s r v) := by
  rcases hostWriteReg_cases s r v with h | h | ⟨h, -, -, hcfg⟩ <;> rw [h]
  · exact ⟨rfl, fun hl => ⟨hl, rfl⟩⟩
  · exact ⟨rfl, fun hl => ⟨hl, rfl⟩⟩
  · refine ⟨by simp, fun hl => ⟨by simpa using hl, State.setReg_cfg s v fun hmem => ?_⟩⟩
    rw [hcfg hmem] at hl
    cases hl

theorem hostAccess_keepsLock {s t : State} {a : Access} (h : hostAccess s a = .next t) : keepsLock s t := by
  obtain ⟨-, ⟨o, w, ob, -, -, rfl⟩ | ⟨o, w, v, -, hw⟩⟩ := hostAccess_inversion h
  · exact ⟨rfl, fun hl => ⟨hl, rfl⟩⟩
  · rcases hostWrite_inversion hw with ⟨r, -, -, rfl⟩ | ⟨b, -, -, -, rfl⟩
    · exact hostWriteReg_keepsLock s r _
    · exact ⟨rfl, fun hl => ⟨hl, rfl⟩⟩

theorem hostTurn_keepsLock {s t : State} (h : hostTurn s = .next t) : keepsLock s t := by
  rcases hostTurn_inversion h with ⟨-, rfl⟩ | ⟨a, rest, -, ha⟩ | ⟨rest, -, ha⟩
  · exact ⟨rfl, fun hl => ⟨hl, rfl⟩⟩
  · have hkeeps := hostAccess_keepsLock ha
    exact hkeeps
  · have hkeeps := hostAccess_keepsLock ha
    split at hkeeps <;> exact hkeeps

/-- A step of the engine or the host uses up one entry of the schedule and keeps the lock (R30, R142). -/
theorem step_keeps_lock {s t : State} (h : step s = .next t) (hm : s.mover ≠ .reset) :
    t.schedule = s.schedule.tail ∧ (s.status.locked = true → t.status.locked = true ∧ t.cfg = s.cfg) := by
  rcases step_inversion h with ⟨-, he⟩ | ⟨-, hh⟩ | ⟨hr, -⟩
  · exact engineTurn_keepsLock he
  · exact hostTurn_keepsLock hh
  · exact absurd hr hm

/-- A reset is taken only where the schedule says so (R340). -/
theorem mover_ne_reset {s : State} (h : Agent.reset ∉ s.schedule) : s.mover ≠ .reset := by
  unfold State.mover
  split
  case h_1 a as hs =>
    rintro rfl
    exact h (by rw [hs]; exact List.mem_cons_self)
  case h_2 => split <;> decide

/-- A run begins with a step (`Host.Core.run`). -/
theorem run_succ_inversion {k : Nat} {s t : State} (h : Sys2Proof.core.run (k + 1) s = .next t) :
    ∃ u, step s = .next u ∧ Sys2Proof.core.run k u = .next t := by
  cases hs : Sys2Proof.core.step s with
  | next u =>
    simp only [Host.Core.run, hs] at h
    exact ⟨u, hs, h⟩
  | fault r => simp [Host.Core.run, hs] at h
  | refused r => simp [Host.Core.run, hs] at h

/-- Settles O17, by induction on the number of steps: the rest of the schedule holds no reset either. -/
theorem lockedConfigurationIsConstant : Obligations.LockedConfigurationIsConstant := by
  intro k
  induction k with
  | zero =>
    intro s t hl _ h
    cases h
    exact ⟨hl, rfl⟩
  | succ k ih =>
    intro s t hl hsched h
    obtain ⟨u, hstep, hrun⟩ := run_succ_inversion h
    obtain ⟨htail, hlock⟩ := step_keeps_lock hstep (mover_ne_reset hsched)
    obtain ⟨hlu, hcu⟩ := hlock hl
    obtain ⟨hlt, hct⟩ := ih u t hlu (by rw [htail]; exact mt List.mem_of_mem_tail hsched) hrun
    exact ⟨hlt, hct.trans hcu⟩

/-- Settles O22: the write's class lets nothing through, and every step but a reset keeps the lock. -/
theorem lockedConfigurationIgnoresWrites : Obligations.LockedConfigurationIgnoresWrites := by
  refine ⟨fun s r v hidle hl hmem => ?_, fun s t hl hm h => ((step_keeps_lock h hm).2 hl).1⟩
  rw [hostAccess_writeReg hidle, hostWriteReg_cfg_locked s v hmem hl]

end Sys2Proof.Machine
end

section
/-! SUPPORT. What a commit leaves besides its frame: a locked legal configuration, canonical memory, flags and lengths
in range, and SPARE_NZ by the header's spare field. -/
namespace Sys2Proof.Machine

/-! ## The lock and the configuration -/

/-- Without the lock no command but LOCK_CONFIG commits (R304). -/
theorem locked_of_commit {i : Instr} {s c : State} {nz : Bool} (hi : i ≠ .lockConfig)
    (h : effectOf i s = .commit c nz) : s.status.locked = true := by
  cases i with
  | lockConfig => exact absurd rfl hi
  | _ => exact (underLock_eq_commit.mp h).1

/-- A command that commits ends locked: LOCK_CONFIG sets the lock, every other command needs it (R140, R304). -/
theorem commit_locked {i : Instr} {s c : State} {nz : Bool} (h : effectOf i s = .commit c nz) :
    c.status.locked = true := by
  by_cases hi : i = .lockConfig
  · subst hi
    obtain ⟨-, -, rfl, -⟩ := lockConfigEffect_commit.mp h
    rfl
  · obtain ⟨-, hstatus⟩ := commitKeeps_of_effectOf hi h
    rw [hstatus, locked_of_commit hi h]

theorem commit_cfg {i : Instr} {s c : State} {nz : Bool} (h : effectOf i s = .commit c nz) : c.cfg = s.cfg := by
  have hcfg := exec_cfg (exec_of_commit h)
  exact hcfg

/-- LOCK_CONFIG checks the configuration it locks; under the lock it was legal before (R141). -/
theorem commit_legal {i : Instr} {s c : State} {nz : Bool} (h : effectOf i s = .commit c nz)
    (hlegal : s.status.locked = true → s.cfg.legal = true) : s.cfg.legal = true := by
  by_cases hi : i = .lockConfig
  · subst hi
    obtain ⟨-, hc, -⟩ := lockConfigEffect_commit.mp h
    exact hc
  · exact hlegal (locked_of_commit hi h)

/-! ## SPARE_NZ (R172) -/

/-- The commands that pack or unpack a primary header. -/
abbrev handlesHeader (i : Instr) : Prop := i = .phEncode ∨ i = .phDecode ∨ (∃ h, i = .tfEncode h) ∨ i = .tfDecode

/-- A header command commits SPARE_NZ by its spare field, which strict handling has let through (R172). -/
theorem commit_spareNz {i : Instr} {s c : State} {nz : Bool} (hi : handlesHeader i) (h : effectOf i s = .commit c nz) :
    nz = (c.hdr.spare != 0) ∧ s.cfg.rejectsSpare c.hdr.spare = false := by
  rcases hi with rfl | rfl | ⟨hook, rfl⟩ | rfl
  · obtain ⟨-, -, -, -, hspare, rfl, hnz⟩ := commit_under_lock phEncodeEffect_commit h
    exact ⟨hnz, hspare⟩
  · obtain ⟨-, -, -, -, -, hspare, rfl, hnz⟩ := commit_under_lock phDecodeEffect_commit h
    exact ⟨hnz, hspare⟩
  · obtain ⟨-, -, -, -, -, -, -, -, -, hspare, -, rfl, hnz⟩ := commit_under_lock tfEncodeEffect_commit h
    exact ⟨hnz, hspare⟩
  · obtain ⟨-, -, -, -, -, hspare, -, -, f, -, rfl, hnz⟩ := commit_under_lock tfDecodeEffect_commit h
    rw [storeFrame_hdr]
    exact ⟨hnz, hspare⟩

theorem commit_spareNz_false {i : Instr} {s c : State} {nz : Bool} (hi : ¬ handlesHeader i)
    (h : effectOf i s = .commit c nz) : nz = false := by
  cases i with
  | lockConfig => exact (lockConfigEffect_commit.mp h).2.2.2
  | writeField =>
    obtain ⟨-, -, -, -, -, -, hnz⟩ := commit_under_lock writeFieldEffect_commit h
    exact hnz
  | readField =>
    obtain ⟨-, -, -, -, -, hnz⟩ := commit_under_lock readFieldEffect_commit h
    exact hnz
  | dfEncode =>
    obtain ⟨-, -, -, -, -, -, hnz⟩ := commit_under_lock dfEncodeEffect_commit h
    exact hnz
  | dfDecode =>
    obtain ⟨-, -, f, -, -, hnz⟩ := commit_under_lock dfDecodeEffect_commit h
    exact hnz
  | spEncode =>
    obtain ⟨-, -, -, -, -, -, hnz⟩ := commit_under_lock spEncodeEffect_commit h
    exact hnz
  | spDecode =>
    obtain ⟨-, -, -, -, -, -, hnz⟩ := commit_under_lock spDecodeEffect_commit h
    exact hnz
  | phEncode | phDecode | tfEncode hook | tfDecode => simp [handlesHeader] at hi

/-- SPARE_NZ is committed by a header command with a nonzero spare field and by nothing else (R24, R172). -/
theorem commit_spareNz_iff {i : Instr} {s c : State} {nz : Bool} (h : effectOf i s = .commit c nz) :
    nz = true ↔ handlesHeader i ∧ c.hdr.spare ≠ 0 := by
  by_cases hi : handlesHeader i
  · rw [(commit_spareNz hi h).1, bne_iff_ne]
    exact (and_iff_right hi).symm
  · rw [commit_spareNz_false hi h]
    simp [hi]

/-- SPARE_NZ is never committed under strict handling (R172). -/
theorem not_strict_of_commit_spareNz {i : Instr} {s c : State} (h : effectOf i s = .commit c true) :
    s.cfg.strictSpare ≠ 1 := by
  obtain ⟨hi, hspare⟩ := (commit_spareNz_iff h).mp rfl
  have hpass := (commit_spareNz hi h).2
  intro hstrict
  exact (CfgRegs.rejectsSpare_eq_false_iff _ _).mp hpass
    ⟨mt (word_eq_zero_iff _).mpr hspare, (word_eq_one_iff _).mp hstrict⟩

/-- Settles O12: by what a header command commits, and what the other commands commit. -/
theorem spareFlagTellsNonzeroSpare : Obligations.SpareFlagTellsNonzeroSpare := by
  intro i s t h
  rcases exec_inversion h with ⟨c, nz, he, rfl, hcode⟩ | ⟨e, -, rfl, -⟩
  · refine ⟨?_, ?_⟩
    · rw [complete_commit_status, complete_commit_hdr]
      exact (commit_spareNz_iff he).trans ⟨fun ⟨hi, hspare⟩ => ⟨rfl, hi, hspare⟩, fun ⟨_, hi, hspare⟩ => ⟨hi, hspare⟩⟩
    · rintro rfl
      exact not_strict_of_commit_spareNz he
  · simp

/-! ## Memory stays canonical -/

theorem wf_storeHookValue (s : State) (h : Bool) (f : List Byte) (hf : f.length ≤ 4) (hm : Memory.wf s.mem) :
    Memory.wf (storeHookValue s h f).mem := by
  cases h
  · exact hm
  · exact State.wf_store s .fecf 0 f hm (by simpa [Buf.size, Config.fecfSize] using hf)

theorem wf_storeOcf (s : State) (h : HdrRegs) (b : List Byte) (p : Nat) (hm : Memory.wf s.mem) :
    Memory.wf (storeOcf s h b p).mem := by
  unfold storeOcf
  split
  · exact State.wf_store s .ocf 0 _ hm (by simp [Buf.size, Config.ocfSize])
  · exact hm

theorem wf_storeFecf (s : State) (b : List Byte) (n : Nat) (hm : Memory.wf s.mem) :
    Memory.wf (storeFecf s b n).mem := by
  unfold storeFecf
  split
  · exact State.wf_store s .fecf 0 _ hm (by simp [Buf.size, Config.fecfSize])
  · exact hm

theorem wf_storeDataField (s : State) {n : Nat} {b : List Byte} {f : DataField} (h : parseDF n b = some f)
    (hn : n ≤ Config.payloadSize) (hm : Memory.wf s.mem) : Memory.wf (storeDataField s f).mem := by
  obtain ⟨h1, h2, h3⟩ := parseDF_lengths_le h
  have hpayload : parsedPayloadLength n b ≤ n := by unfold parsedPayloadLength; omega
  exact State.wf_store _ .sectrl 0 f.secTrl
    (State.wf_store _ .payload 0 f.payload
      (State.wf_store s .sechdr 0 f.secHdr hm (by simpa [Buf.size, Config.sechdrSize] using h1))
      (by rw [Buf.size]; omega))
    (by simpa [Buf.size, Config.sectrlSize] using h3)

/-- SP_DATA_LEN of a received packet is a 16-bit number (R115). -/
theorem unpackSP_dataLen_lt (b : List Byte) : (unpackSP b).dataLen.toNat < 65536 := by
  obtain ⟨-, -, -, -, -, -, hlen⟩ := packetOnWire_unpackSP b
  have hlt := getBits_lt b 32 16
  omega

/-- Every commit stores inside buffer windows: the checks and a legal configuration bound what it stores (R36). -/
theorem commit_wf {i : Instr} {s c : State} {nz : Bool} (h : effectOf i s = .commit c nz)
    (hlegal : s.cfg.legal = true) (hm : Memory.wf s.mem) : Memory.wf c.mem := by
  cases i with
  | lockConfig =>
    obtain ⟨-, -, rfl, -⟩ := lockConfigEffect_commit.mp h
    exact hm
  | writeField =>
    obtain ⟨-, -, hn, hb, -, rfl, -⟩ := commit_under_lock writeFieldEffect_commit h
    have hin := fieldOctets_le hb
    exact State.wf_store s .frame _ _ hm (by simp [Buf.size]; omega)
  | readField =>
    obtain ⟨-, -, -, -, rfl, -⟩ := commit_under_lock readFieldEffect_commit h
    exact hm
  | phEncode =>
    obtain ⟨-, hfit, -, -, -, rfl, -⟩ := commit_under_lock phEncodeEffect_commit h
    obtain ⟨-, -, -, -, -, -, -, -, -, -, -, hsel⟩ := (HdrRegs.fixedFit_iff _).mp hfit
    have hlen := CfgRegs.phLen_le s.cfg _ hsel
    exact State.wf_store s .frame 0 _ hm (by simp [Buf.size, Config.frameSize]; omega)
  | phDecode =>
    obtain ⟨-, -, -, -, -, -, rfl, -⟩ := commit_under_lock phDecodeEffect_commit h
    exact hm
  | dfEncode =>
    obtain ⟨-, -, -, -, hlen, rfl, -⟩ := commit_under_lock dfEncodeEffect_commit h
    exact State.wf_store s .frame 0 _ hm (by simpa [Buf.size] using hlen)
  | dfDecode =>
    obtain ⟨-, hn, f, hf, rfl, -⟩ := commit_under_lock dfDecodeEffect_commit h
    exact wf_storeDataField s hf hn hm
  | tfEncode hook =>
    obtain ⟨-, -, -, hfit, -, -, -, -, -, -, hlen, rfl, -⟩ := commit_under_lock tfEncodeEffect_commit h
    obtain ⟨-, -, -, -, -, hocf, -⟩ := (HdrRegs.perFrameFit_iff _).mp hfit
    have hle := length_frameOctets_le s hook hocf
    exact wf_storeHookValue _ hook _ (by simp)
      (State.wf_store s .frame 0 _ hm (by simp only [Buf.size, Config.frameSize]; omega))
  | tfDecode =>
    obtain ⟨-, hn, -, -, -, -, -, -, f, hf, rfl, -⟩ := commit_under_lock tfDecodeEffect_commit h
    obtain ⟨-, -, -, -, hiz, -⟩ := (CfgRegs.legal_iff _).mp hlegal
    have hdl : inputFieldLength s ≤ Config.payloadSize := (Nat.sub_le _ _).trans hn
    have hizWf : Memory.wf (s.store .iz 0 (((inputFrame s).drop (s.cfg.phLen (selectorOf (inputFrame s)))).take
        s.cfg.izLen.toNat)).mem := State.wf_store s .iz 0 _ hm (by
      simp only [Buf.size, Config.izSize, List.length_take]; omega)
    exact wf_storeFecf _ _ _ (wf_storeOcf _ _ _ _ (wf_storeDataField _ hf hdl hizWf))
  | spEncode =>
    obtain ⟨-, -, -, -, hlen, rfl, -⟩ := commit_under_lock spEncodeEffect_commit h
    exact State.wf_store s .frame 0 _ hm (by simp [Buf.size, Config.frameSize]; omega)
  | spDecode =>
    obtain ⟨-, -, -, -, hsl, rfl, -⟩ := commit_under_lock spDecodeEffect_commit h
    have hdata := unpackSP_dataLen_lt (inputFrame s)
    exact State.wf_store _ .payload 0 _
      (State.wf_store s .spsh 0 _ hm (by simp only [Buf.size, Config.spshSize, List.length_take]; omega))
      (by simp only [Buf.size, Config.payloadSize, List.length_take]; omega)

end Sys2Proof.Machine
end

section
/-! SUPPORT. The invariant (`State.Inv`): it holds at reset, and a command, a host access and so every step keep it. -/
namespace Sys2Proof.Machine

/-! ## Reset (R40, R340) -/

/-- Settles O14: nothing is stored, nothing is locked or pending, and every register is 0. -/
theorem resetMeetsInvariant : Obligations.ResetMeetsInvariant := by
  unfold Obligations.ResetMeetsInvariant
  decide

/-- Settles O16: every field a register reads is a field of `State.reset`, and no octet is listed. -/
theorem resetClearsEveryRegister : Obligations.ResetClearsEveryRegister := by
  intro s hm
  refine ⟨resetEvent s.advanceSchedule, by simp [step, hm], fun r => ?_, rfl, rfl, fun a => rfl, rfl, rfl⟩
  cases r <;> rfl

/-! ## Commands keep the invariant -/

theorem flagWord_is_flag (b : Bool) : flagWord b = 0 ∨ flagWord b = 1 := by
  cases b
  · exact .inl rfl
  · exact .inr rfl

/-- DFH_FHP_PRESENT is written as a flag or not at all (R28). -/
theorem commit_dfhFhpPresent {i : Instr} {s c : State} {nz : Bool} (h : effectOf i s = .commit c nz)
    (hs : s.dfhFhpPresent = 0 ∨ s.dfhFhpPresent = 1) : c.dfhFhpPresent = 0 ∨ c.dfhFhpPresent = 1 := by
  by_cases hw : Reg.dfhFhpPresent ∈ writtenRegs i
  · cases i with
    | dfEncode =>
      obtain ⟨-, -, -, -, -, rfl, -⟩ := commit_under_lock dfEncodeEffect_commit h
      exact flagWord_is_flag _
    | dfDecode =>
      obtain ⟨-, -, f, -, rfl, -⟩ := commit_under_lock dfDecodeEffect_commit h
      exact flagWord_is_flag _
    | tfEncode hook =>
      obtain ⟨-, -, -, -, -, -, -, -, -, -, -, rfl, -⟩ := commit_under_lock tfEncodeEffect_commit h
      exact flagWord_is_flag _
    | tfDecode =>
      obtain ⟨-, -, -, -, -, -, -, -, f, -, rfl, -⟩ := commit_under_lock tfDecodeEffect_commit h
      rw [storeFrame_dfhFhpPresent]
      exact flagWord_is_flag _
    | _ => simp [writtenRegs, hdrRegs] at hw
  · have hkeep : c.dfhFhpPresent = s.dfhFhpPresent :=
      (exec_keepsAllBut (exec_of_commit h)).1 .dfhFhpPresent hw (by decide)
    rw [hkeep]
    exact hs

/-- SP_DATA_LEN is written as a 16-bit length or not at all (R34). -/
theorem commit_spDataLen {i : Instr} {s c : State} {nz : Bool} (h : effectOf i s = .commit c nz)
    (hs : s.sp.dataLen.toNat < 65536) : c.sp.dataLen.toNat < 65536 := by
  by_cases hw : Reg.spDataLen ∈ writtenRegs i
  · cases i with
    | spEncode =>
      obtain ⟨-, -, -, -, hlen, rfl, -⟩ := commit_under_lock spEncodeEffect_commit h
      simp only [BitVec.toNat_ofNat]
      omega
    | spDecode =>
      obtain ⟨-, -, -, -, -, rfl, -⟩ := commit_under_lock spDecodeEffect_commit h
      exact unpackSP_dataLen_lt _
    | _ => simp [writtenRegs, hdrRegs] at hw
  · have hkeep : c.sp.dataLen = s.sp.dataLen := (exec_keepsAllBut (exec_of_commit h)).1 .spDataLen hw (by decide)
    rw [hkeep]
    exact hs

/-- A legal configuration that is not strict is lenient (R141, R172). -/
theorem strictSpare_eq_zero {c : CfgRegs} (hlegal : c.legal = true) (h : c.strictSpare ≠ 1) : c.strictSpare = 0 := by
  obtain ⟨-, -, -, -, -, -, -, hstrict, -⟩ := (CfgRegs.legal_iff c).mp hlegal
  rw [Ne, word_eq_one_iff] at h
  exact (word_eq_zero_iff _).mpr (by omega)

theorem complete_commit_inv {i : Instr} {s c : State} {nz : Bool} (h : effectOf i s = .commit c nz) (hs : s.Inv) :
    (complete s (.commit c nz)).Inv := by
  obtain ⟨hmem, hlegal, -, hfhp, hdata, -, -⟩ := hs
  have hl := commit_locked h
  have hleg := commit_legal h hlegal
  have hcfg := commit_cfg h
  have hwf := commit_wf h hleg hmem
  have hflag := commit_dfhFhpPresent h hfhp
  have hlen := commit_spDataLen h hdata
  refine ⟨hwf, fun _ => ?_, nofun, hflag, hlen, fun hnz => ⟨hl, ?_⟩, fun _ => hl⟩
  · rw [complete_commit_cfg, hcfg, hleg]
  · cases show nz = true from hnz
    rw [complete_commit_cfg, hcfg]
    exact strictSpare_eq_zero hleg (not_strict_of_commit_spareNz h)

theorem complete_raise_inv {s : State} (e : ErrorKind) (hs : s.Inv) : (complete s (.raise e)).Inv := by
  obtain ⟨hmem, hlegal, -, hfhp, hdata, -, -⟩ := hs
  exact ⟨hmem, hlegal, nofun, hfhp, hdata, nofun, nofun⟩

theorem exec_inv {i : Instr} {s t : State} (h : exec i s = .next t) (hs : s.Inv) : t.Inv := by
  rcases exec_inversion h with ⟨c, nz, he, rfl, -⟩ | ⟨e, -, rfl, -⟩
  · exact complete_commit_inv he hs
  · exact complete_raise_inv e hs

theorem engineTurn_inv {s t : State} (h : engineTurn s = .next t) (hs : s.Inv) : t.Inv := by
  rcases engineTurn_inversion h with ⟨-, rfl⟩ | ⟨-, i, -, he⟩ | ⟨-, -, rfl⟩
  · exact hs
  · exact exec_inv he hs
  · exact complete_raise_inv _ hs

/-! ## Host accesses keep the invariant -/

theorem accept_inv {s : State} (w : Word) (hs : s.Inv) : (s.accept w).Inv := by
  obtain ⟨hmem, hlegal, -, hfhp, hdata, hspare, -⟩ := hs
  exact ⟨hmem, hlegal, fun _ => ⟨rfl, rfl, rfl⟩, hfhp, hdata, hspare, nofun⟩

/-- A stored register is neither DFH_FHP_PRESENT nor SP_DATA_LEN, and no CFG register under the lock (R22, R30). -/
theorem setReg_inv {s : State} {r : Reg} (v : Word) (hcmd : r ≠ .cmd)
    (hro : r ∉ [.status, .dfhFhpPresent, .spDataLen]) (hcfg : r ∈ cfgRegs → s.status.locked = false) (hs : s.Inv) :
    (s.setReg r v).Inv := by
  obtain ⟨hmem, hlegal, hbusy, hfhp, hdata, hspare, hdone⟩ := hs
  simp only [List.mem_cons, List.not_mem_nil, or_false, not_or] at hro
  obtain ⟨hstatus, hnfhp, hndata⟩ := hro
  have hkeep : ∀ q, q ≠ r → (s.setReg r v).readReg q = s.readReg q := fun q hq => by
    rw [State.readReg_setReg s r q v ⟨hcmd, hstatus⟩, if_neg hq]
  have hfhp' : (s.setReg r v).dfhFhpPresent = s.dfhFhpPresent := hkeep .dfhFhpPresent (Ne.symm hnfhp)
  have hdata' : (s.setReg r v).sp.dataLen = s.sp.dataLen := hkeep .spDataLen (Ne.symm hndata)
  have hcfg' : s.status.locked = true → (s.setReg r v).cfg = s.cfg := fun hl =>
    State.setReg_cfg s v fun hmem => by rw [hcfg hmem] at hl; cases hl
  rw [State.Inv, State.setReg_mem, State.setReg_status, State.setReg_hazardWindow, hfhp', hdata']
  refine ⟨hmem, fun hl => by rw [hcfg' hl, hlegal hl], hbusy, hfhp, hdata, fun hnz => ?_, hdone⟩
  obtain ⟨hl, hzero⟩ := hspare hnz
  exact ⟨hl, by rw [hcfg' hl, hzero]⟩

theorem hostWriteReg_inv {s : State} (r : Reg) (v : Word) (hs : s.Inv) : (hostWriteReg s r v).Inv := by
  rcases hostWriteReg_cases s r v with h | h | ⟨h, hcmd, hro, hcfg⟩ <;> rw [h]
  · exact accept_inv v hs
  · exact hs
  · exact setReg_inv v hcmd hro hcfg hs

/-- An octet written in a window keeps memory canonical (R73). -/
theorem wf_writeOctet {m : Memory} {o : Nat} {b : Buf} (v : Byte) (hb : bufAt o = some b) (hm : Memory.wf m) :
    Memory.wf (m.writeBlock o [v]) := by
  refine Memory.wf_writeBlock m o [v] hm fun i hi => ?_
  obtain rfl : i = 0 := by simpa using hi
  rw [Nat.add_zero, hb]
  rfl

theorem hostAccess_inv {s t : State} {a : Access} (h : hostAccess s a = .next t) (hs : s.Inv) : t.Inv := by
  obtain ⟨-, ⟨o, w, ob, -, -, rfl⟩ | ⟨o, w, v, -, hw⟩⟩ := hostAccess_inversion h
  · obtain ⟨hmem, hlegal, hbusy, hrest⟩ := hs
    exact ⟨hmem, hlegal, fun hb => ⟨hb, (hbusy hb).2⟩, hrest⟩
  · rcases hostWrite_inversion hw with ⟨r, -, -, rfl⟩ | ⟨b, -, hb, -, rfl⟩
    · exact hostWriteReg_inv r _ hs
    · obtain ⟨hmem, hrest⟩ := hs
      exact ⟨wf_writeOctet _ hb hmem, hrest⟩

theorem hostTurn_inv {s t : State} (h : hostTurn s = .next t) (hs : s.Inv) : t.Inv := by
  rcases hostTurn_inversion h with ⟨-, rfl⟩ | ⟨a, rest, -, ha⟩ | ⟨rest, -, ha⟩
  · exact hs
  · exact hostAccess_inv ha hs
  · refine hostAccess_inv ha ?_
    split <;> exact hs

/-! ## Every step -/

/-- Settles O15: no conjunct speaks of the schedule, and a reset leaves the fields they speak of as at reset. -/
theorem everyStepKeepsInvariant : Obligations.EveryStepKeepsInvariant := by
  intro s t hs h
  rcases step_inversion h with ⟨-, he⟩ | ⟨-, hh⟩ | ⟨-, rfl⟩
  · exact engineTurn_inv he hs
  · exact hostTurn_inv hh hs
  · exact resetMeetsInvariant

end Sys2Proof.Machine
end

section
/-! SUPPORT. STATUS as a number (R24, R300), and the outcome flags no command reads (R43). -/
namespace Sys2Proof.Machine

/-! ## STATUS as a number (R24, R300) -/

/-- The code a number stands for (R300); a number above 9 stands for none and is given the last. -/
def StatusCode.ofNumber : Nat → StatusCode
  | 0 => .ok
  | 1 => .err .fieldOverflow
  | 2 => .err .range
  | 3 => .err .truncatedData
  | 4 => .err .lengthMismatch
  | 5 => .err .underflow
  | 6 => .err .configuration
  | 7 => .err .versionMismatch
  | 8 => .err .spareNonzero
  | _ => .err .illegalCommand

theorem StatusCode.ofNumber_number (c : StatusCode) : StatusCode.ofNumber c.number = c := by
  cases c with
  | ok => rfl
  | err e => cases e <;> rfl

/-- The codes of R300 are told apart by their numbers. -/
theorem StatusCode.number_injective : Function.Injective StatusCode.number :=
  Function.LeftInverse.injective StatusCode.ofNumber_number

theorem StatusCode.number_le (c : StatusCode) : c.number ≤ 9 := by
  cases c with
  | ok => decide
  | err e => cases e <;> decide

/-- The number STATUS reads as: no field runs into the next (R24). -/
theorem Status.word_toNat (st : Status) :
    st.word.toNat = st.code.number + 16 * st.busy.toNat + 32 * st.done.toNat + 64 * st.locked.toNat
      + 128 * st.spareNz.toNat := by
  have h0 := st.code.number_le
  have h1 := st.busy.toNat_le
  have h2 := st.done.toNat_le
  have h3 := st.locked.toNat_le
  have h4 := st.spareNz.toNat_le
  rw [Status.word, BitVec.toNat_ofNat]
  omega

/-- Bits 3:0 of STATUS are CODE. -/
theorem Status.word_mod (st : Status) : st.word.toNat % 16 = st.code.number := by
  have h0 := st.code.number_le
  rw [Status.word_toNat]
  omega

theorem Status.word_mod_eq_iff (st : Status) (c : StatusCode) : st.word.toNat % 16 = c.number ↔ st.code = c := by
  rw [Status.word_mod]
  exact StatusCode.number_injective.eq_iff

/-- Settles O10: CODE by its numbers, each flag by its bit. -/
theorem statusReadsAsItsFields : Obligations.StatusReadsAsItsFields := by
  intro s v
  have hcode : ∀ c : StatusCode, v % 16 = c.number ↔ s.status.code = c := s.status.word_mod_eq_iff
  have hv : v = _ := s.status.word_toNat
  have h0 := s.status.code.number_le
  have h1 := s.status.busy.toNat_le
  have h2 := s.status.done.toNat_le
  have h3 := s.status.locked.toNat_le
  have h4 := s.status.spareNz.toNat_le
  refine ⟨by omega, hcode .ok, hcode (.err .fieldOverflow), hcode (.err .range), hcode (.err .truncatedData),
    hcode (.err .lengthMismatch), hcode (.err .underflow), hcode (.err .configuration),
    hcode (.err .versionMismatch), hcode (.err .spareNonzero), hcode (.err .illegalCommand), ?_, ?_, ?_, ?_, by omega⟩
  all_goals rw [← Bool.toNat_eq_one]; omega

/-! ## The decoders of a data field, the checks first (R191, R231) -/

theorem dfDecodeEffect_eq (s : State) :
    dfDecodeEffect s
      = raiseIf (decide (Config.frameSize < s.frameLen.toNat)) .range
          ((parseDF s.frameLen.toNat (inputFrame s)).elim (.raise .truncatedData) fun f =>
            .commit (storeDataField s f) false) := by
  unfold dfDecodeEffect inputFrame
  dsimp only
  cases parseDF s.frameLen.toNat (s.octets .frame 0 s.frameLen.toNat) <;> rfl

theorem tfDecodeEffect_eq (s : State) :
    tfDecodeEffect s
      = raiseIf (decide (Config.frameSize < s.frameLen.toNat)) .range
          (checkHeader s.cfg s.frameLen.toNat (inputFrame s)
            (raiseIf ((unpackPH s.cfg (inputFrame s)).tfLength.toNat + 1 != s.frameLen.toNat) .lengthMismatch
              (raiseIf (decide (s.frameLen.toNat < overhead s.cfg (unpackPH s.cfg (inputFrame s)))) .underflow
                ((parseDF (inputFieldLength s) (inputField s)).elim (.raise .truncatedData) fun f =>
                  .commit (storeFrame s s.frameLen.toNat (inputFrame s) (inputFieldLength s) f)
                    ((unpackPH s.cfg (inputFrame s)).spare != 0))))) := by
  unfold tfDecodeEffect inputField inputFieldLength inputFrame
  dsimp only
  congr 4
  split
  case h_1 h => rw [h]; rfl
  case h_2 h => rw [h]; rfl

/-! ## The outcome flags (R43) -/

/-- The state with other outcomes of earlier commands in STATUS. -/
def State.withOutcome (c : StatusCode) (d z : Bool) (s : State) : State :=
  { s with status := ⟨c, s.status.busy, d, s.status.locked, z⟩ }

/-- An effect whose commit has other outcomes of earlier commands in STATUS. -/
def Effect.withOutcome (c : StatusCode) (d z : Bool) : Effect → Effect
  | .commit t nz => .commit (t.withOutcome c d z) nz
  | .raise e => .raise e

theorem complete_withOutcome (c : StatusCode) (d z : Bool) (s : State) (e : Effect) :
    complete (s.withOutcome c d z) (e.withOutcome c d z) = complete s e := by
  cases e <;> rfl

theorem withOutcome_commit (c : StatusCode) (d z : Bool) (t : State) (nz : Bool) :
    (Effect.commit t nz).withOutcome c d z = .commit (t.withOutcome c d z) nz := rfl

theorem withOutcome_raise (c : StatusCode) (d z : Bool) (e : ErrorKind) :
    (Effect.raise e).withOutcome c d z = .raise e := rfl

theorem withOutcome_raiseIf (c : StatusCode) (d z b : Bool) (e : ErrorKind) (k : Effect) :
    (raiseIf b e k).withOutcome c d z = raiseIf b e (k.withOutcome c d z) := by
  cases b <;> rfl

theorem withOutcome_elim (c : StatusCode) (d z : Bool) (o : Option DataField) (e : ErrorKind)
    (k : DataField → Effect) :
    (o.elim (.raise e) k).withOutcome c d z = o.elim (.raise e) fun f => (k f).withOutcome c d z := by
  cases o <;> rfl

theorem withOutcome_underLock (c : StatusCode) (d z : Bool) (s : State) (k : Effect) :
    (underLock s k).withOutcome c d z = underLock (s.withOutcome c d z) (k.withOutcome c d z) := by
  have hl : (s.withOutcome c d z).status.locked = s.status.locked := rfl
  rw [underLock, underLock, hl]
  split <;> rfl

theorem octets_withOutcome (c : StatusCode) (d z : Bool) (s : State) (b : Buf) (i n : Nat) :
    (s.withOutcome c d z).octets b i n = s.octets b i n := by
  apply State.octets_mem_congr <;> rfl

theorem inputFrame_withOutcome (c : StatusCode) (d z : Bool) (s : State) :
    inputFrame (s.withOutcome c d z) = inputFrame s := octets_withOutcome c d z s .frame 0 s.frameLen.toNat

theorem inputFieldLength_withOutcome (c : StatusCode) (d z : Bool) (s : State) :
    inputFieldLength (s.withOutcome c d z) = inputFieldLength s := by
  rw [inputFieldLength, inputFrame_withOutcome]
  rfl

theorem inputField_withOutcome (c : StatusCode) (d z : Bool) (s : State) :
    inputField (s.withOutcome c d z) = inputField s := by
  rw [inputField, inputFrame_withOutcome, inputFieldLength_withOutcome]
  rfl

theorem storeOcf_withOutcome (c : StatusCode) (d z : Bool) (s : State) (h : HdrRegs) (b : List Byte) (p : Nat) :
    storeOcf (s.withOutcome c d z) h b p = (storeOcf s h b p).withOutcome c d z := by
  unfold storeOcf
  split <;> rfl

theorem storeFecf_withOutcome (c : StatusCode) (d z : Bool) (s : State) (b : List Byte) (n : Nat) :
    storeFecf (s.withOutcome c d z) b n = (storeFecf s b n).withOutcome c d z := by
  have hcfg : (s.withOutcome c d z).cfg = s.cfg := rfl
  rw [storeFecf, storeFecf, hcfg]
  split <;> rfl

theorem storeFrame_withOutcome (c : StatusCode) (d z : Bool) (s : State) (n dl : Nat) (b : List Byte)
    (f : DataField) : storeFrame (s.withOutcome c d z) n b dl f = (storeFrame s n b dl f).withOutcome c d z := by
  have hfield : ∀ u : State, storeDataField (u.withOutcome c d z) f = (storeDataField u f).withOutcome c d z :=
    fun _ => rfl
  have hiz : ∀ vs, (s.withOutcome c d z).store .iz 0 vs = (s.store .iz 0 vs).withOutcome c d z := fun _ => rfl
  simp only [storeFrame, hiz, hfield, storeOcf_withOutcome, storeFecf_withOutcome]
  rfl

theorem dataFieldOctets_withOutcome (c : StatusCode) (d z : Bool) (s : State) :
    dataFieldOctets (s.withOutcome c d z) = dataFieldOctets s := by
  simp only [dataFieldOctets, octets_withOutcome]
  rfl

theorem packetOctets_withOutcome (c : StatusCode) (d z : Bool) (s : State) :
    packetOctets (s.withOutcome c d z) = packetOctets s := by
  simp only [packetOctets, octets_withOutcome]
  rfl

theorem frameBody_withOutcome (c : StatusCode) (d z : Bool) (s : State) :
    frameBody (s.withOutcome c d z) = frameBody s := by
  simp only [frameBody, ocfRegion, dataFieldOctets_withOutcome, octets_withOutcome]
  rfl

theorem fecfRegion_withOutcome (c : StatusCode) (d z : Bool) (s : State) (h : Bool) :
    fecfRegion (s.withOutcome c d z) h = fecfRegion s h := by
  simp only [fecfRegion, frameBody_withOutcome, octets_withOutcome]

theorem frameOctets_withOutcome (c : StatusCode) (d z : Bool) (s : State) (h : Bool) :
    frameOctets (s.withOutcome c d z) h = frameOctets s h := by
  simp only [frameOctets, frameBody_withOutcome, fecfRegion_withOutcome]
  rfl

/-- Every check and every commit is the same with other outcomes of earlier commands in STATUS (R43). -/
theorem effectOf_withOutcome (c : StatusCode) (d z : Bool) (i : Instr) (s : State) :
    effectOf i (s.withOutcome c d z) = (effectOf i s).withOutcome c d z := by
  cases i with
  | lockConfig =>
    simp only [effectOf, lockConfigEffect, withOutcome_raiseIf, withOutcome_commit]
    rfl
  | writeField =>
    simp only [effectOf, writeFieldEffect, checkFieldBounds, putFrameBits, withOutcome_underLock, withOutcome_raiseIf,
      withOutcome_commit, octets_withOutcome]
    rfl
  | readField =>
    simp only [effectOf, readFieldEffect, checkFieldBounds, withOutcome_underLock, withOutcome_raiseIf,
      withOutcome_commit, octets_withOutcome]
    rfl
  | phEncode =>
    simp only [effectOf, phEncodeEffect, withOutcome_underLock, withOutcome_raiseIf, withOutcome_commit]
    rfl
  | phDecode =>
    simp only [effectOf, phDecodeEffect, checkHeader, withOutcome_underLock, withOutcome_raiseIf, withOutcome_commit,
      octets_withOutcome]
    rfl
  | dfEncode =>
    simp only [effectOf, dfEncodeEffect, withOutcome_underLock, withOutcome_raiseIf, withOutcome_commit,
      dataFieldOctets_withOutcome]
    rfl
  | dfDecode =>
    simp only [effectOf, dfDecodeEffect_eq, withOutcome_underLock, withOutcome_raiseIf, withOutcome_elim,
      withOutcome_commit, inputFrame_withOutcome]
    rfl
  | tfEncode h =>
    simp only [effectOf, tfEncodeEffect, withOutcome_underLock, withOutcome_raiseIf, withOutcome_commit,
      frameOctets_withOutcome, fecfRegion_withOutcome]
    cases h <;> rfl
  | tfDecode =>
    simp only [effectOf, tfDecodeEffect_eq, checkHeader, withOutcome_underLock, withOutcome_raiseIf, withOutcome_elim,
      withOutcome_commit, inputFrame_withOutcome, inputFieldLength_withOutcome, inputField_withOutcome,
      storeFrame_withOutcome]
    rfl
  | spEncode =>
    simp only [effectOf, spEncodeEffect, withOutcome_underLock, withOutcome_raiseIf, withOutcome_commit,
      packetOctets_withOutcome]
    rfl
  | spDecode =>
    simp only [effectOf, spDecodeEffect, withOutcome_underLock, withOutcome_raiseIf, withOutcome_commit,
      octets_withOutcome]
    rfl

/-- Settles O11: the effect is the same, and completion overwrites the three fields. -/
theorem outcomeFlagsAreNotRead : Obligations.OutcomeFlagsAreNotRead := by
  intro i s c d z
  change exec i (s.withOutcome c d z) = exec i s
  rw [exec_eq, exec_eq, effectOf_withOutcome, complete_withOutcome]

end Sys2Proof.Machine
end

section
/-! SUPPORT. The code a command ends with is the first failing check's (R306): the code of an effect check by check, and
the statements `…CheckOrder` of the header, data-field and packet codecs. -/
namespace Sys2Proof.Machine

/-! ## The code of an effect -/

/-- The code completion gives an effect (R302). -/
def Effect.code : Effect → StatusCode
  | .commit _ _ => .ok
  | .raise e => .err e

/-- A command completes with the code of its effect (R301, R302). -/
theorem exec_code (i : Instr) (s : State) :
    ∃ t, exec i s = .next t ∧ t.status.code = (effectOf i s).code := by
  refine ⟨_, exec_eq i s, ?_⟩
  cases effectOf i s <;> rfl

@[simp] theorem Effect.code_commit (t : State) (nz : Bool) : (Effect.commit t nz).code = .ok := rfl

@[simp] theorem Effect.code_raise (e : ErrorKind) : (Effect.raise e).code = .err e := rfl

/-- The first check that fails gives the code (R305, R306). -/
@[simp] theorem Effect.code_raiseIf (b : Bool) (e : ErrorKind) (k : Effect) :
    (raiseIf b e k).code = if b = true then .err e else k.code := by
  cases b <;> rfl

@[simp] theorem Effect.code_elim (o : Option DataField) (e : ErrorKind) (k : DataField → Effect) (c : StatusCode)
    (h : ∀ f, (k f).code = c) : (o.elim (.raise e) k).code = if o = none then .err e else c := by
  cases o with
  | none => rfl
  | some f => simp [h]

/-- ParseDF fails on a sequence too short for the selectors, or for the regions they announce (R192). -/
theorem parseDF_eq_none_iff (n : Nat) (b : List Byte) :
    parseDF n b = none ↔ n < 7 ∨ n < 22 + dfhLen (getBits b 48 3) := by
  rw [Option.eq_none_iff_forall_ne_some]
  simp only [ne_eq, parseDF_eq_some, not_and]
  constructor
  · intro h
    by_contra hn
    exact h _ (by omega) (by omega) rfl
  · intro h f h1 h2
    omega

/-- The version check compares the wire field with the register's number (R171). -/
theorem unpackPH_tfvn_ne_iff (c : CfgRegs) (b : List Byte) (v : Word) :
    (unpackPH c b).tfvn ≠ v ↔ getBits b 0 4 ≠ v.toNat := by
  obtain ⟨htfvn, -⟩ := headerOnWire_unpackPH c b
  rw [htfvn, BitVec.toNat_ne_iff_ne]

/-- Strict handling looks at the wire's spare field (R172). -/
theorem strictSpareHit_unpackPH_iff (c : CfgRegs) (b : List Byte) :
    strictSpareHit c (unpackPH c b).spare ↔ getBits b 50 2 ≠ 0 ∧ c.strictSpare.toNat = 1 := by
  obtain ⟨-, -, -, -, -, -, -, -, -, hspare, -⟩ := headerOnWire_unpackPH c b
  rw [strictSpareHit, hspare]

/-! ## The three statements -/

/-- Settles O36: the checks of the two commands in their order, each as a bound. -/
theorem primaryHeaderCheckOrder : Obligations.PrimaryHeaderCheckOrder := by
  intro s hl hlegal
  have hmode : s.cfg.fcMode.toNat ≤ 1 := by
    obtain ⟨-, -, -, -, -, -, h, -⟩ := hlegal
    exact h
  constructor
  · obtain ⟨t, ht, hcode⟩ := exec_code .phEncode s
    refine ⟨t, ht, ?_⟩
    rw [hcode, effectOf, underLock_locked hl, phEncodeEffect]
    simp only [Effect.code_raiseIf, Effect.code_commit, Bool.not_eq_true', ← Bool.not_eq_true, HdrRegs.fixedFit_iff,
      HdrRegs.countFits_iff _ _ hmode, bne_iff_ne, CfgRegs.rejectsSpare_iff]
  · obtain ⟨t, ht, hcode⟩ := exec_code .phDecode s
    refine ⟨t, ht, ?_⟩
    rw [hcode, effectOf, underLock_locked hl, phDecodeEffect, checkHeader]
    simp only [Effect.code_raiseIf, Effect.code_commit, decide_eq_true_iff, bne_iff_ne, CfgRegs.rejectsSpare_iff,
      CfgRegs.phLen_eq, unpackPH_tfvn_ne_iff, strictSpareHit_unpackPH_iff]
    rfl

/-- Settles O41: the checks of the two commands in their order, ParseDF's two last. -/
theorem dataFieldCheckOrder : Obligations.DataFieldCheckOrder := by
  intro s hl
  constructor
  · obtain ⟨t, ht, hcode⟩ := exec_code .dfEncode s
    have hsel : s.dfh.selectorsFit = false ↔ 7 < s.dfh.rule.toNat ∨ 31 < s.dfh.protoId.toNat := by
      rw [← Bool.not_eq_true, DfhRegs.selectorsFit_iff]; omega
    have hptr : s.dfh.pointerFits = false ↔ s.dfh.rule.toNat ≤ 1 ∧ 65535 < s.dfh.fhp.toNat := by
      rw [← Bool.not_eq_true, DfhRegs.pointerFits_iff]; omega
    refine ⟨t, ht, ?_⟩
    rw [hcode, effectOf, underLock_locked hl, dfEncodeEffect]
    simp only [Effect.code_raiseIf, Effect.code_commit, decide_eq_true_iff, Bool.not_eq_true', hsel, hptr, dfLen,
      dfhLen_eq]
    rfl
  · obtain ⟨t, ht, hcode⟩ := exec_code .dfDecode s
    refine ⟨t, ht, ?_⟩
    rw [hcode, effectOf, underLock_locked hl, dfDecodeEffect_eq, Effect.code_raiseIf,
      Effect.code_elim _ _ _ .ok fun f => rfl]
    simp only [decide_eq_true_iff, parseDF_eq_none_iff, dfhLen_eq, ite_or]
    rfl

/-- Settles O55: the checks of the two commands in their order. -/
theorem packetCheckOrder : Obligations.PacketCheckOrder := by
  intro s hl
  constructor
  · intro m
    have hm : packetDataLength s = m := by rw [packetDataLength, CfgRegs.secHdrLen_eq]
    obtain ⟨t, ht, hcode⟩ := exec_code .spEncode s
    have hlong : 65535 < m - 1 ↔ 65536 < m := by omega
    refine ⟨t, ht, ?_⟩
    rw [hcode, effectOf, underLock_locked hl, spEncodeEffect]
    simp only [Effect.code_raiseIf, Effect.code_commit, decide_eq_true_iff, Bool.not_eq_true', ← Bool.not_eq_true,
      SpRegs.fieldsFit_iff, hm, beq_iff_eq, hlong]
    rfl
  · intro b
    obtain ⟨t, ht, hcode⟩ := exec_code .spDecode s
    obtain ⟨-, -, hflag, -, -, -, hlen⟩ := packetOnWire_unpackSP b
    have hsh : getBits b 32 16 + 1 < s.cfg.secHdrLen (unpackSP b).shFlag
        ↔ getBits b 4 1 = 1 ∧ getBits b 32 16 + 1 < s.cfg.spShLen.toNat := by
      rw [CfgRegs.secHdrLen_eq, ← hflag]; split <;> omega
    have hb : s.octets .frame 0 s.frameLen.toNat = b := rfl
    refine ⟨t, ht, ?_⟩
    rw [hcode, effectOf, underLock_locked hl, spDecodeEffect]
    simp only [Effect.code_raiseIf, Effect.code_commit, decide_eq_true_iff, hb, ← hlen, hsh]
    rfl

end Sys2Proof.Machine
end

section
/-! SUPPORT. The line `exec MNEMONIC` on an idle TFC with the schedule open, step by step: the host's write of CMD, the
engine's command, the host's one STATUS read (R23, R106, R344). -/
namespace Sys2Proof.Machine

/-- The word of a command decodes to it (R100 to R102). -/
theorem decode_encode (i : Instr) : decode (encode i) = .ok i := by
  cases i with
  | tfEncode h => cases h <;> decide
  | _ => decide

/-- With the schedule open a step leaves it open. -/
theorem State.advanceSchedule_nil {s : State} (h : s.schedule = []) : s.advanceSchedule = s := by
  unfold State.advanceSchedule
  rw [h, List.tail_nil, ← h]

/-- Where every step of a run goes through, the run goes on from the state it reaches. -/
theorem run_succ_of_step {k : Nat} {s u : State} (h : step s = .next u) :
    Sys2Proof.core.run (k + 1) s = Sys2Proof.core.run k u := by
  have hs : Sys2Proof.core.step s = .next u := h
  simp only [Host.Core.run, hs]

/-- The first step of the line: the host writes CMD and the word is accepted (R23, R105). -/
theorem step_commandWrite {s : State} {i : Instr} {rest : List HostOp} (hidle : s.idle) (hsched : s.schedule = [])
    (hprog : s.program = writeRegOp .cmd (encode i) :: rest) :
    step s = .next ({ s with program := rest }.accept (encode i)) := by
  have hmover : s.mover = .host := by simp [State.mover, hsched, hidle.1]
  have hidle' : ({ s with program := rest } : State).idle := hidle
  rw [step, hmover, State.advanceSchedule_nil hsched]
  simp only [hostTurn, hprog, writeRegOp]
  exact hostAccess_writeReg hidle' .cmd (encode i)

/-- The second step: the engine, which moves as soon as it can, performs the command (R301, R355). -/
theorem step_performs {s : State} {i : Instr} (hbusy : s.status.busy = true) (hsched : s.schedule = [])
    (hlatched : s.latched = encode i) : step s = exec i s := by
  have hmover : s.mover = .engine := by simp [State.mover, hsched, hbusy]
  rw [step, hmover, State.advanceSchedule_nil hsched]
  simp only [engineTurn, hbusy, if_true, hlatched, decode_encode]

/-- The third step: a `wait` that sees the command done is one STATUS read, and the program goes on (R106, R350). -/
theorem step_wait {s : State} {rest : List HostOp} (hbusy : s.status.busy = false) (hdone : s.status.done = true)
    (hsched : s.schedule = []) (hprog : s.program = .wait :: rest) :
    step s = .next { s with
      program := rest
      hazardWindow := false
      observed := s.observed ++ [.word 0x004 s.status.word] } := by
  have hmover : s.mover = .host := by simp [State.mover, hsched, hbusy]
  have hwait : waitDone s = true := by simp [waitDone, hbusy, hdone]
  rw [step, hmover, State.advanceSchedule_nil hsched]
  simp only [hostTurn, hprog, hwait, if_true, hostAccess_statusRead, hbusy]
  rfl

theorem complete_done (s : State) (e : Effect) :
    (complete s e).status.busy = false ∧ (complete s e).status.done = true := by
  cases e <;> exact ⟨rfl, rfl⟩

/-- Settles O19: the three steps one after the other; the command keeps the program, the schedule and `observed`. -/
theorem execLineAcceptsPerformsAndWaits : Obligations.ExecLineAcceptsPerformsAndWaits := by
  intro s i rest hidle hsched hprog
  let u := ({ s with program := .wait :: rest } : State).accept (encode i)
  let t := complete u (effectOf i u)
  have hexec : exec i u = .next t := exec_eq i u
  obtain ⟨-, -, -, -, hprogram, hschedule, hobserved⟩ := exec_keepsAllBut hexec
  obtain ⟨hbusy, hdone⟩ := complete_done u (effectOf i u)
  have h1 : step s = .next u := step_commandWrite hidle hsched hprog
  have hopen : u.schedule = [] := hsched
  have h2 : step u = .next t := (step_performs rfl hopen rfl).trans hexec
  have h3 := step_wait hbusy hdone (hschedule.trans hopen) hprogram
  refine ⟨t, hexec, ?_⟩
  rw [run_succ_of_step h1, run_succ_of_step h2, run_succ_of_step h3, hobserved]
  rfl

end Sys2Proof.Machine
end

section
/-! SUPPORT. What a command reports and writes depends on its operands alone (R42): two states that agree on them fail
the same check, or commit the same registers and octets. -/
namespace Sys2Proof.Machine

/-! ## Agreement -/

/-- Two states agree on what a command reads: LOCKED, its registers and its buffers (R42). -/
structure SameOperands (i : Instr) (s s' : State) : Prop where
  locked : s.status.locked = s'.status.locked
  regs : ∀ r ∈ readRegs i, s.readReg r = s'.readReg r
  bufs : ∀ b ∈ readBufs i, ∀ k, k < b.size → s.octet b k = s'.octet b k

/-- Two states agree on the octets of these blocks. -/
def agreeOn (ks : List Block) (s s' : State) : Prop := ∀ a, anyCovers ks a = true → s.byte a = s'.byte a

/-- Two commits of one command agree on all that it writes (R42). -/
structure SameWrites (i : Instr) (s s' c c' : State) : Prop where
  locked : c.status.locked = c'.status.locked
  regs : ∀ r ∈ writtenRegs i, c.readReg r = c'.readReg r
  blocks : writtenBlocks i s = writtenBlocks i s'
  octets : agreeOn (writtenBlocks i s) c c'

/-- Two effects of one command, from `s` and from `s'`, agree: the same error, or commits that agree. -/
inductive SameEffect (i : Instr) (s s' : State) : Effect → Effect → Prop where
  | raise (e : ErrorKind) : SameEffect i s s' (.raise e) (.raise e)
  | commit {c c' : State} (nz : Bool) (h : SameWrites i s s' c c') : SameEffect i s s' (.commit c nz) (.commit c' nz)

theorem SameEffect.raiseIf {i : Instr} {s s' : State} {b b' : Bool} {e : ErrorKind} {k k' : Effect} (hb : b = b')
    (hk : b = false → SameEffect i s s' k k') : SameEffect i s s' (raiseIf b e k) (raiseIf b' e k') := by
  subst hb
  cases b with
  | true => exact .raise e
  | false => exact hk rfl

theorem SameEffect.underLock {i : Instr} {s s' : State} {k k' : Effect} (hl : s.status.locked = s'.status.locked)
    (hk : s.status.locked = true → SameEffect i s s' k k') : SameEffect i s s' (underLock s k) (underLock s' k') := by
  unfold Machine.underLock
  rw [← hl]
  split
  case isTrue h => exact hk h
  case isFalse => exact .raise .configuration

/-! ## Octets that agree -/

theorem agreeOn_nil (s s' : State) : agreeOn [] s s' := by
  intro a ha
  simp [anyCovers] at ha

/-- A block stored in both states is one more block they agree on. -/
theorem agreeOn_store {ks : List Block} {s s' : State} (h : agreeOn ks s s') (b : Buf) (i : Nat) {n : Nat}
    {vs : List Byte} (hn : vs.length = n) : agreeOn (ks ++ [⟨b, i, n⟩]) (s.store b i vs) (s'.store b i vs) := by
  intro a ha
  rw [State.byte_store, State.byte_store]
  split
  case isTrue => rfl
  case isFalse hout =>
    have hcov : Block.covers ⟨b, i, n⟩ a = false := by
      simp only [Block.covers, Bool.and_eq_false_iff, decide_eq_false_iff_not]
      omega
    exact h a (by simpa [anyCovers, hcov] using ha)

theorem agreeOn_storeHookValue {ks : List Block} {s s' : State} (h : agreeOn ks s s') (hook : Bool) {f : List Byte}
    (hf : f.length = 4) :
    agreeOn (ks ++ if hook then [⟨.fecf, 0, 4⟩] else []) (storeHookValue s hook f) (storeHookValue s' hook f) := by
  cases hook
  · simpa [storeHookValue] using h
  · exact agreeOn_store h .fecf 0 hf

theorem agreeOn_storeOcf {ks : List Block} {s s' : State} (h : agreeOn ks s s') (g : HdrRegs) (b : List Byte) (p : Nat)
    (hp : g.ocfFlag = 1 → p + 4 ≤ b.length) :
    agreeOn (ks ++ if g.ocfFlag = 1 then [⟨.ocf, 0, 4⟩] else []) (storeOcf s g b p) (storeOcf s' g b p) := by
  unfold storeOcf
  split
  case isTrue hg =>
    have := hp hg
    exact agreeOn_store h .ocf 0 (by rw [List.length_take, List.length_drop]; omega)
  case isFalse => simpa using h

theorem agreeOn_storeFecf {ks : List Block} {s s' : State} (h : agreeOn ks s s') (b : List Byte) (n : Nat)
    (hcfg : s.cfg.fecfEn = s'.cfg.fecfEn) (hn : 4 ≤ n) (hb : b.length = n) :
    agreeOn (ks ++ if s.cfg.fecfEn = 1 then [⟨.fecf, 0, 4⟩] else []) (storeFecf s b n) (storeFecf s' b n) := by
  unfold storeFecf
  rw [← hcfg]
  split
  case isTrue => exact agreeOn_store h .fecf 0 (by rw [List.length_take, List.length_drop]; omega)
  case isFalse => simpa using h

theorem agreeOn_storeDataField {ks : List Block} {s s' : State} (h : agreeOn ks s s') {n : Nat} {b : List Byte}
    {f : DataField} (hf : parseDF n b = some f) (hb : b.length = n) :
    agreeOn (ks ++ [⟨.sechdr, 0, 6⟩, ⟨.payload, 0, parsedPayloadLength n b⟩, ⟨.sectrl, 0, 16⟩])
      (storeDataField s f) (storeDataField s' f) := by
  obtain ⟨h1, h2, h3⟩ := parseDF_lengths hf hb
  have hstores := agreeOn_store (agreeOn_store (agreeOn_store h .sechdr 0 h1) .payload 0 h2) .sectrl 0 h3
  simp only [List.append_assoc, List.cons_append, List.nil_append] at hstores
  exact hstores

/-- Buffers that agree have the same blocks. -/
theorem octets_eq_of_bufs {s s' : State} {b : Buf} {n : Nat} (h : ∀ k, k < b.size → s.octet b k = s'.octet b k)
    (hn : n ≤ b.size) : s.octets b 0 n = s'.octets b 0 n :=
  State.octets_congr b 0 n fun j hj => h (0 + j) (by omega)

theorem State.hdr_of_readReg {s s' : State} (h : ∀ r ∈ hdrRegs, s.readReg r = s'.readReg r) : s.hdr = s'.hdr := by
  simp only [hdrRegs, List.forall_mem_cons, List.not_mem_nil, false_imp_iff, implies_true, and_true,
    State.readReg] at h
  cases hs : s.hdr
  cases hs' : s'.hdr
  simp_all

theorem State.dfh_of_readReg {s s' : State} (h1 : s.dfh.rule = s'.dfh.rule) (h2 : s.dfh.protoId = s'.dfh.protoId)
    (h3 : s.dfh.fhp = s'.dfh.fhp) : s.dfh = s'.dfh := by
  cases hs : s.dfh
  cases hs' : s'.dfh
  simp_all

/-- The octets of a data field come from its registers and its three buffers (R190). -/
theorem dataFieldOctets_congr {s s' : State} (hdfh : s.dfh = s'.dfh) (hpl : s.payloadLen = s'.payloadLen)
    (h1 : ∀ k, k < Buf.sechdr.size → s.octet .sechdr k = s'.octet .sechdr k)
    (h2 : ∀ k, k < Buf.payload.size → s.octet .payload k = s'.octet .payload k)
    (h3 : ∀ k, k < Buf.sectrl.size → s.octet .sectrl k = s'.octet .sectrl k)
    (hlen : s.payloadLen.toNat ≤ Config.payloadSize) : dataFieldOctets s = dataFieldOctets s' := by
  rw [dataFieldOctets, dataFieldOctets, ← hdfh, ← hpl, octets_eq_of_bufs h1 (n := 6) (by decide),
    octets_eq_of_bufs h2 hlen, octets_eq_of_bufs h3 (n := 16) (by decide)]

/-! ## What the header codec takes from the configuration -/

theorem CfgRegs.phLen_congr {c c' : CfgRegs} (h : c.fcMode = c'.fcMode) : c.phLen = c'.phLen := by
  funext k
  simp only [CfgRegs.phLen_eq, h]

theorem HdrRegs.countFits_congr {c c' : CfgRegs} (h : c.fcMode = c'.fcMode) (g : HdrRegs) :
    g.countFits c = g.countFits c' := by
  simp only [HdrRegs.countFits, CfgRegs.fcw_eq, h]

theorem packPH_congr {c c' : CfgRegs} (h : c.fcMode = c'.fcMode) (g : HdrRegs) : packPH c g = packPH c' g := by
  simp only [packPH, phFields, CfgRegs.phLen_congr h, CfgRegs.fcw_eq, h]

theorem unpackPH_congr {c c' : CfgRegs} (h : c.fcMode = c'.fcMode) (b : List Byte) : unpackPH c b = unpackPH c' b := by
  simp only [unpackPH, CfgRegs.fcw_eq, h]

theorem CfgRegs.rejectsSpare_congr {c c' : CfgRegs} (h : c.strictSpare = c'.strictSpare) (v : Word) :
    c.rejectsSpare v = c'.rejectsSpare v := by
  simp only [CfgRegs.rejectsSpare, h]

/-- The checks on a received header read the configuration's version, mode and strictness (R171, R172). -/
theorem SameEffect.checkHeader {i : Instr} {s s' : State} {c c' : CfgRegs} {n : Nat} {b : List Byte} {k k' : Effect}
    (hv : c.version = c'.version) (hm : c.fcMode = c'.fcMode) (hss : c.strictSpare = c'.strictSpare)
    (hk : 7 ≤ n → c.phLen (selectorOf b) ≤ n → SameEffect i s s' k k') :
    SameEffect i s s' (checkHeader c n b k) (checkHeader c' n b k') := by
  refine .raiseIf rfl fun h7 => .raiseIf (by rw [CfgRegs.phLen_congr hm]) fun hlen =>
    .raiseIf (by rw [unpackPH_congr hm, hv]) fun _ =>
    .raiseIf (by rw [unpackPH_congr hm, CfgRegs.rejectsSpare_congr hss]) fun _ => hk ?_ ?_
  · simpa using h7
  · simpa using hlen

/-! ## The commands -/

section
variable {s s' : State}

theorem sameEffect_lockConfig (h : SameOperands .lockConfig s s') :
    SameEffect .lockConfig s s' (lockConfigEffect s) (lockConfigEffect s') := by
  have hcfg : s'.cfg = s.cfg := State.cfg_of_readReg fun r hr => (h.regs r hr).symm
  refine .raiseIf h.locked fun _ => .raiseIf (by rw [hcfg]) fun _ => .commit false ⟨rfl, ?_, rfl, agreeOn_nil _ _⟩
  simp [writtenRegs]

theorem sameEffect_checkFieldBounds {i : Instr} {k k' : Effect} (hw : s.fld.width = s'.fld.width)
    (hn : s.frameLen = s'.frameLen) (ho : s.fld.offset = s'.fld.offset)
    (hk : s.frameLen.toNat ≤ Config.frameSize → s.fld.offset.toNat + s.fld.width.toNat ≤ 8 * s.frameLen.toNat →
      SameEffect i s s' k k') :
    SameEffect i s s' (checkFieldBounds s k) (checkFieldBounds s' k') := by
  refine .raiseIf (by rw [hw]) fun _ => .raiseIf (by rw [hn]) fun hlen => .raiseIf (by rw [hn, ho, hw]) fun hin =>
    hk ?_ ?_
  · simpa using hlen
  · simpa using hin

/-- A frame no longer than FRAME is an operand of the decoders (R25, R42). -/
theorem SameOperands.inputFrame_eq {i : Instr} (h : SameOperands i s s') (hb : Buf.frame ∈ readBufs i)
    (hn : s.frameLen = s'.frameLen) (hlen : s.frameLen.toNat ≤ Config.frameSize) : inputFrame s = inputFrame s' := by
  rw [inputFrame, inputFrame, ← hn]
  exact octets_eq_of_bufs (h.bufs .frame hb) hlen

theorem sameEffect_writeField (h : SameOperands .writeField s s') :
    SameEffect .writeField s s' (writeFieldEffect s) (writeFieldEffect s') := by
  have ho : s.fld.offset = s'.fld.offset := h.regs .fldOffset (by decide)
  have hw : s.fld.width = s'.fld.width := h.regs .fldWidth (by decide)
  have hlo : s.fld.valueLo = s'.fld.valueLo := h.regs .fldValueLo (by decide)
  have hhi : s.fld.valueHi = s'.fld.valueHi := h.regs .fldValueHi (by decide)
  have hn : s.frameLen = s'.frameLen := h.regs .frameLen (by decide)
  have hfld : s.fld = s'.fld := by cases hs : s.fld; cases hs' : s'.fld; simp_all
  refine sameEffect_checkFieldBounds hw hn ho fun hlen hin => .raiseIf (by rw [hfld]) fun _ => .commit false ?_
  have hle := fieldOctets_le hin
  have hoctets : s.octets .frame (s.fld.offset.toNat / 8) (fieldOctets s.fld.offset.toNat s.fld.width.toNat)
      = s'.octets .frame (s.fld.offset.toNat / 8) (fieldOctets s.fld.offset.toNat s.fld.width.toNat) :=
    State.octets_congr _ _ _ fun j hj => h.bufs .frame (by decide) _ (by rw [Buf.size]; omega)
  refine ⟨h.locked, by simp [writtenRegs], by simp only [writtenBlocks, hfld], ?_⟩
  unfold putFrameBits
  rw [← hfld, ← hoctets]
  exact agreeOn_store (agreeOn_nil s s') .frame _ (by simp)

theorem sameEffect_readField (h : SameOperands .readField s s') :
    SameEffect .readField s s' (readFieldEffect s) (readFieldEffect s') := by
  have ho : s.fld.offset = s'.fld.offset := h.regs .fldOffset (by decide)
  have hw : s.fld.width = s'.fld.width := h.regs .fldWidth (by decide)
  have hn : s.frameLen = s'.frameLen := h.regs .frameLen (by decide)
  refine sameEffect_checkFieldBounds hw hn ho fun hlen _ => .commit false ⟨h.locked, ?_, rfl, agreeOn_nil _ _⟩
  have hframe : s.octets .frame 0 s.frameLen.toNat = s'.octets .frame 0 s'.frameLen.toNat :=
    h.inputFrame_eq (by decide) hn hlen
  simp [writtenRegs, State.readReg, hframe, ho, hw]

theorem sameEffect_phEncode (h : SameOperands .phEncode s s') :
    SameEffect .phEncode s s' (phEncodeEffect s) (phEncodeEffect s') := by
  have hhdr : s.hdr = s'.hdr := State.hdr_of_readReg fun r hr => h.regs r (by simp [readRegs, hr])
  have hv : s.cfg.version = s'.cfg.version := h.regs .cfgVersion (by decide)
  have hm : s.cfg.fcMode = s'.cfg.fcMode := h.regs .cfgFcMode (by decide)
  have hss : s.cfg.strictSpare = s'.cfg.strictSpare := h.regs .cfgStrictSpare (by decide)
  unfold phEncodeEffect
  rw [← hhdr, ← HdrRegs.countFits_congr hm, ← hv, ← CfgRegs.rejectsSpare_congr hss, ← packPH_congr hm,
    ← CfgRegs.phLen_congr hm]
  refine .raiseIf rfl fun _ => .raiseIf rfl fun _ => .raiseIf rfl fun _ => .raiseIf rfl fun _ =>
    .commit _ ⟨h.locked, ?_, ?_, ?_⟩
  · simp [writtenRegs, State.readReg]
  · simp only [writtenBlocks, ← hhdr, CfgRegs.phLen_congr hm]
  · exact agreeOn_store (agreeOn_nil s s') .frame 0 (length_packPH _ _)

theorem sameEffect_phDecode (h : SameOperands .phDecode s s') :
    SameEffect .phDecode s s' (phDecodeEffect s) (phDecodeEffect s') := by
  have hn : s.frameLen = s'.frameLen := h.regs .frameLen (by decide)
  have hv : s.cfg.version = s'.cfg.version := h.regs .cfgVersion (by decide)
  have hm : s.cfg.fcMode = s'.cfg.fcMode := h.regs .cfgFcMode (by decide)
  have hss : s.cfg.strictSpare = s'.cfg.strictSpare := h.regs .cfgStrictSpare (by decide)
  refine .raiseIf (by rw [hn]) fun hlen => ?_
  have hframe : s.octets .frame 0 s.frameLen.toNat = s'.octets .frame 0 s'.frameLen.toNat :=
    h.inputFrame_eq (by decide) hn (by simpa using hlen)
  rw [← hframe, ← hn, ← unpackPH_congr hm]
  refine .checkHeader hv hm hss fun _ _ => .commit _ ⟨h.locked, ?_, rfl, agreeOn_nil _ _⟩
  simp [writtenRegs, hdrRegs, State.readReg]

theorem sameEffect_dfEncode (h : SameOperands .dfEncode s s') :
    SameEffect .dfEncode s s' (dfEncodeEffect s) (dfEncodeEffect s') := by
  have hdfh : s.dfh = s'.dfh := State.dfh_of_readReg (h.regs .dfhRule (by decide)) (h.regs .dfhProtoId (by decide))
    (h.regs .dfhFhp (by decide))
  have hpl : s.payloadLen = s'.payloadLen := h.regs .payloadLen (by decide)
  unfold dfEncodeEffect
  rw [← hdfh, ← hpl]
  refine .raiseIf rfl fun hlen => .raiseIf rfl fun _ => .raiseIf rfl fun _ => .raiseIf rfl fun _ => .commit _ ?_
  have hoctets : dataFieldOctets s = dataFieldOctets s' := dataFieldOctets_congr hdfh hpl
    (h.bufs .sechdr (by decide)) (h.bufs .payload (by decide)) (h.bufs .sectrl (by decide)) (by simpa using hlen)
  rw [← hoctets]
  refine ⟨h.locked, ?_, ?_, ?_⟩
  · simp [writtenRegs, State.readReg]
  · simp only [writtenBlocks, hdfh, hpl]
  · exact agreeOn_store (agreeOn_nil s s') .frame 0 (length_dataFieldOctets s)

theorem sameEffect_dfDecode (h : SameOperands .dfDecode s s') :
    SameEffect .dfDecode s s' (dfDecodeEffect s) (dfDecodeEffect s') := by
  have hn : s.frameLen = s'.frameLen := h.regs .frameLen (by decide)
  rw [dfDecodeEffect_eq, dfDecodeEffect_eq]
  refine .raiseIf (by rw [hn]) fun hlen => ?_
  have hframe := h.inputFrame_eq (by decide) hn (by simpa using hlen)
  rw [← hframe, ← hn]
  cases hf : parseDF s.frameLen.toNat (inputFrame s) with
  | none => exact .raise _
  | some f =>
    refine .commit _ ⟨h.locked, ?_, ?_, agreeOn_storeDataField (agreeOn_nil s s') hf (State.length_octets _ _ _ _)⟩
    · simp [writtenRegs, State.readReg]
    · simp only [writtenBlocks, hframe, hn]

/-- What SP_ENCODE takes from its registers: the secondary header's length, the checks and the packed header (R260). -/
theorem SameOperands.packet_eq (h : SameOperands .spEncode s s') :
    s.cfg.secHdrLen s.sp.shFlag = s'.cfg.secHdrLen s'.sp.shFlag ∧ s.sp.fieldsFit = s'.sp.fieldsFit
    ∧ packSP s.sp = packSP s'.sp := by
  have hshl : s.cfg.spShLen = s'.cfg.spShLen := h.regs .cfgSpShLen (by decide)
  have e1 : s.sp.version = s'.sp.version := h.regs .spVersion (by decide)
  have e2 : s.sp.ptype = s'.sp.ptype := h.regs .spType (by decide)
  have e3 : s.sp.shFlag = s'.sp.shFlag := h.regs .spShFlag (by decide)
  have e4 : s.sp.apid = s'.sp.apid := h.regs .spApid (by decide)
  have e5 : s.sp.seqFlags = s'.sp.seqFlags := h.regs .spSeqFlags (by decide)
  have e6 : s.sp.seqCount = s'.sp.seqCount := h.regs .spSeqCount (by decide)
  refine ⟨by rw [CfgRegs.secHdrLen, CfgRegs.secHdrLen, e3, hshl], ?_, ?_⟩
  · simp only [SpRegs.fieldsFit, e1, e2, e3, e4, e5, e6]
  · funext n
    simp only [packSP, spFields, e1, e2, e3, e4, e5, e6]

theorem sameEffect_spEncode (h : SameOperands .spEncode s s') :
    SameEffect .spEncode s s' (spEncodeEffect s) (spEncodeEffect s') := by
  obtain ⟨hsh, hfit, hpack⟩ := h.packet_eq
  have hpl : s.payloadLen = s'.payloadLen := h.regs .payloadLen (by decide)
  have hm : packetDataLength s = packetDataLength s' := by rw [packetDataLength, packetDataLength, hsh, hpl]
  unfold spEncodeEffect
  rw [← hm, ← hpl, ← hfit]
  refine .raiseIf rfl fun hlen => .raiseIf rfl fun _ => .raiseIf rfl fun _ => .raiseIf rfl fun hlong => .commit _ ?_
  have hle : s.cfg.secHdrLen s.sp.shFlag ≤ Buf.spsh.size := by
    simp only [decide_eq_false_iff_not] at hlong
    rw [packetDataLength] at hlong
    simp only [Buf.size, Config.spshSize]
    omega
  have hoctets : packetOctets s = packetOctets s' := by
    rw [packetOctets, packetOctets, ← hm, ← hpack, ← hsh, ← hpl,
      octets_eq_of_bufs (h.bufs .spsh (by decide)) hle,
      octets_eq_of_bufs (h.bufs .payload (by decide)) (n := s.payloadLen.toNat) (by simpa [Buf.size] using hlen)]
  rw [← hoctets]
  refine ⟨h.locked, ?_, ?_, ?_⟩
  · simp [writtenRegs, State.readReg]
  · simp only [writtenBlocks, hm]
  · exact agreeOn_store (agreeOn_nil s s') .frame 0 (length_packetOctets s)

theorem sameEffect_spDecode (h : SameOperands .spDecode s s') :
    SameEffect .spDecode s s' (spDecodeEffect s) (spDecodeEffect s') := by
  have hn : s.frameLen = s'.frameLen := h.regs .frameLen (by decide)
  have hshl : s.cfg.spShLen = s'.cfg.spShLen := h.regs .cfgSpShLen (by decide)
  have hsh : s.cfg.secHdrLen = s'.cfg.secHdrLen := by
    funext v
    rw [CfgRegs.secHdrLen, CfgRegs.secHdrLen, hshl]
  refine .raiseIf (by rw [hn]) fun hlen => ?_
  have hframe : inputFrame s = inputFrame s' := h.inputFrame_eq (by decide) hn (by simpa using hlen)
  have hin : s.octets .frame 0 s.frameLen.toNat = inputFrame s := rfl
  have hin' : s'.octets .frame 0 s'.frameLen.toNat = inputFrame s := hframe.symm
  have hb : (inputFrame s).length = s.frameLen.toNat := State.length_octets _ _ _ _
  rw [hin', hin, ← hn, ← hsh]
  refine .raiseIf rfl fun _ => .raiseIf rfl fun hge => .raiseIf rfl fun hle => .raiseIf rfl fun hfit => .commit _ ?_
  simp only [decide_eq_false_iff_not] at hge hle hfit
  refine ⟨h.locked, ?_, ?_, ?_⟩
  · simp [writtenRegs, State.readReg]
  · simp only [writtenBlocks, ← hframe, hsh]
  · exact agreeOn_store (agreeOn_store (agreeOn_nil s s') .spsh 0 (by
      simp only [List.length_take, List.length_drop]; omega)) .payload 0 (by
      simp only [List.length_take, List.length_drop]; omega)

/-- The operands of TF_ENCODE that its checks and its frame use by name (R42, R230). -/
theorem SameOperands.tfEncode_regs {hook : Bool} (h : SameOperands (.tfEncode hook) s s') :
    s.cfg.izLen = s'.cfg.izLen ∧ s.cfg.fecfEn = s'.cfg.fecfEn ∧ s.cfg.fcMode = s'.cfg.fcMode
    ∧ s.cfg.strictSpare = s'.cfg.strictSpare ∧ s.payloadLen = s'.payloadLen ∧ s.ocfValid = s'.ocfValid
    ∧ s.dfh = s'.dfh :=
  ⟨h.regs .cfgIzLen (by simp [readRegs]), h.regs .cfgFecfEn (by simp [readRegs]),
    h.regs .cfgFcMode (by simp [readRegs]), h.regs .cfgStrictSpare (by simp [readRegs]),
    h.regs .payloadLen (by simp [readRegs]), h.regs .ocfValid (by simp [readRegs]),
    State.dfh_of_readReg (h.regs .dfhRule (by simp [readRegs])) (h.regs .dfhProtoId (by simp [readRegs]))
      (h.regs .dfhFhp (by simp [readRegs]))⟩

/-- The frame's length and the header as it is packed come from the operands of TF_ENCODE (R230, R236). -/
theorem SameOperands.frame_eq {hook : Bool} (h : SameOperands (.tfEncode hook) s s') :
    frameLength s = frameLength s' ∧ frameHeader s = frameHeader s' := by
  obtain ⟨hiz, hfe, hm, -, hpl, -, hdfh⟩ := h.tfEncode_regs
  have hv : s.cfg.version = s'.cfg.version := h.regs .cfgVersion (by simp [readRegs])
  have hscid : s.cfg.scid = s'.cfg.scid := h.regs .cfgScid (by simp [readRegs])
  have hsrc : s.cfg.srcDst = s'.cfg.srcDst := h.regs .cfgSrcDst (by simp [readRegs])
  have hmap : s.cfg.mapId = s'.cfg.mapId := h.regs .cfgMapId (by simp [readRegs])
  have e1 : s.hdr.vcid = s'.hdr.vcid := h.regs .hdrVcid (by simp [readRegs])
  have e2 : s.hdr.endFlag = s'.hdr.endFlag := h.regs .hdrEndFlag (by simp [readRegs])
  have e3 : s.hdr.bypass = s'.hdr.bypass := h.regs .hdrBypass (by simp [readRegs])
  have e4 : s.hdr.protoCmd = s'.hdr.protoCmd := h.regs .hdrProtoCmd (by simp [readRegs])
  have e5 : s.hdr.spare = s'.hdr.spare := h.regs .hdrSpare (by simp [readRegs])
  have e6 : s.hdr.ocfFlag = s'.hdr.ocfFlag := h.regs .hdrOcfFlag (by simp [readRegs])
  have e7 : s.hdr.fcLen = s'.hdr.fcLen := h.regs .hdrFcLen (by simp [readRegs])
  have e8 : s.hdr.fcValueLo = s'.hdr.fcValueLo := h.regs .hdrFcValueLo (by simp [readRegs])
  have e9 : s.hdr.fcValueHi = s'.hdr.fcValueHi := h.regs .hdrFcValueHi (by simp [readRegs])
  have hlen : frameLength s = frameLength s' := by
    simp only [frameLength, CfgRegs.phLen_congr hm, e7, hiz, hdfh, hpl, e6, hfe]
  refine ⟨hlen, ?_⟩
  simp only [frameHeader, hlen, hv, hscid, hsrc, hmap, e1, e2, e3, e4, e5, e6, e7, e8, e9]

/-- The checks of the per-frame header registers, the count, the OCF flag and the spare field are checks of the header
as it is packed (R230, R236). -/
theorem frameHeader_checks (h : frameHeader s = frameHeader s') (hm : s.cfg.fcMode = s'.cfg.fcMode) :
    s.hdr.perFrameFit = s'.hdr.perFrameFit ∧ s.hdr.countFits s.cfg = s'.hdr.countFits s'.cfg
    ∧ s.hdr.ocfFlag = s'.hdr.ocfFlag ∧ s.hdr.spare = s'.hdr.spare := by
  change (frameHeader s).perFrameFit = (frameHeader s').perFrameFit
    ∧ (frameHeader s).countFits s.cfg = (frameHeader s').countFits s'.cfg
    ∧ (frameHeader s).ocfFlag = (frameHeader s').ocfFlag ∧ (frameHeader s).spare = (frameHeader s').spare
  rw [h]
  exact ⟨rfl, HdrRegs.countFits_congr hm _, rfl, rfl⟩

/-- The octets of the frame come from the operands of TF_ENCODE, the FECF collaborator's among them (R214, R215). -/
theorem SameOperands.frameBody_eq {hook : Bool} (h : SameOperands (.tfEncode hook) s s') (hlegal : s.cfg.legal = true)
    (hpay : s.payloadLen.toNat ≤ Config.payloadSize) :
    frameBody s = frameBody s' ∧ fecfRegion s hook = fecfRegion s' hook := by
  obtain ⟨-, hhdr⟩ := h.frame_eq
  obtain ⟨hiz, -, hm, -, hpl, -, hdfh⟩ := h.tfEncode_regs
  obtain ⟨-, -, -, -, hiz1, -⟩ := (CfgRegs.legal_iff _).mp hlegal
  have hflag : s.hdr.ocfFlag = s'.hdr.ocfFlag := h.regs .hdrOcfFlag (by simp [readRegs])
  have hbufs : ∀ b ∈ [Buf.iz, .sechdr, .payload, .sectrl, .ocf, .fecf], ∀ k, k < b.size →
      s.octet b k = s'.octet b k := h.bufs
  have hfield : dataFieldOctets s = dataFieldOctets s' := dataFieldOctets_congr hdfh hpl (hbufs .sechdr (by decide))
    (hbufs .payload (by decide)) (hbufs .sectrl (by decide)) hpay
  have hzone : s.octets .iz 0 s.cfg.izLen.toNat = s'.octets .iz 0 s'.cfg.izLen.toNat := by
    rw [← hiz]
    exact octets_eq_of_bufs (hbufs .iz (by decide)) (by simp only [Buf.size, Config.izSize]; omega)
  have hocf : ocfRegion s = ocfRegion s' := by
    rw [ocfRegion, ocfRegion, ← hflag, octets_eq_of_bufs (hbufs .ocf (by decide)) (n := 4) (by decide)]
  have hbody : frameBody s = frameBody s' := by
    rw [frameBody, frameBody, ← hhdr, packPH_congr hm, hzone, hfield, hocf]
  refine ⟨hbody, ?_⟩
  rw [fecfRegion, fecfRegion, hbody, octets_eq_of_bufs (hbufs .fecf (by decide)) (n := 4) (by decide)]

theorem sameEffect_tfEncode {hook : Bool} (h : SameOperands (.tfEncode hook) s s') (hlegal : s.cfg.legal = true) :
    SameEffect (.tfEncode hook) s s' (tfEncodeEffect hook s) (tfEncodeEffect hook s') := by
  obtain ⟨hlen, hhdr⟩ := h.frame_eq
  obtain ⟨-, hfe, hm, hss, hpl, hocf, hdfh⟩ := h.tfEncode_regs
  obtain ⟨hper, hcount, hflag, hspare⟩ := frameHeader_checks hhdr hm
  unfold tfEncodeEffect
  rw [← hfe, ← hpl, ← hper, ← hocf, ← hcount, ← hdfh, ← hflag, ← hspare,
    ← CfgRegs.rejectsSpare_congr hss, ← hlen, ← hhdr]
  refine .raiseIf rfl fun _ => .raiseIf rfl fun hpay => .raiseIf rfl fun hfit => .raiseIf rfl fun _ =>
    .raiseIf rfl fun _ => .raiseIf rfl fun _ => .raiseIf rfl fun _ => .raiseIf rfl fun _ => .raiseIf rfl fun _ =>
    .commit _ ?_
  have hpay' : s.payloadLen.toNat ≤ Config.payloadSize := by simpa using hpay
  obtain ⟨hbody, hfecf⟩ := h.frameBody_eq hlegal hpay'
  have hoctets : frameOctets s hook = frameOctets s' hook := by rw [frameOctets, frameOctets, hbody, hfe, hfecf]
  have hL : (frameOctets s hook).length = frameLength s := by
    obtain ⟨-, -, -, -, -, hfe1, -⟩ := (CfgRegs.legal_iff _).mp hlegal
    simp only [Bool.not_eq_false', Bool.and_eq_true, HdrRegs.perFrameFit_iff] at hfit
    obtain ⟨⟨-, -, -, -, -, hocf1, -⟩, -⟩ := hfit
    exact length_frameOctets s hook hocf1 hfe1
  rw [← hoctets, ← hfecf]
  refine ⟨by simpa using h.locked, by simp [writtenRegs, State.readReg], by simp only [writtenBlocks, hlen], ?_⟩
  exact agreeOn_storeHookValue (agreeOn_store (agreeOn_nil s s') .frame 0 hL) hook (length_fecfRegion s hook)

theorem unpackPH_fcLen_toNat (c : CfgRegs) (b : List Byte) : (unpackPH c b).fcLen.toNat = selectorOf b :=
  fieldWord_toNat b 53 3 (by decide)

/-- The data field of a received frame has its length when the fixed regions leave room for it (R231). -/
theorem length_inputField (h : overhead s.cfg (unpackPH s.cfg (inputFrame s)) ≤ s.frameLen.toNat) :
    (inputField s).length = inputFieldLength s := by
  have hb : (inputFrame s).length = s.frameLen.toNat := State.length_octets _ _ _ _
  rw [overhead, unpackPH_fcLen_toNat] at h
  simp only [inputField, inputFieldLength, List.length_take, List.length_drop, hb, overhead, unpackPH_fcLen_toNat]
  omega

/-- A parsed frame stored in both states is a store of the same octets in the same places (R231). -/
theorem agreeOn_storeFrame {n dl : Nat} {b d : List Byte} {f : DataField} (hm : s.cfg.fcMode = s'.cfg.fcMode)
    (hiz : s.cfg.izLen = s'.cfg.izLen) (hfe : s.cfg.fecfEn = s'.cfg.fecfEn) (h7 : 7 ≤ n) (hb : b.length = n)
    (hdl : overhead s.cfg (unpackPH s.cfg b) + dl = n) (hf : parseDF dl d = some f) (hd : d.length = dl) :
    agreeOn
      ([⟨.iz, 0, s.cfg.izLen.toNat⟩, ⟨.sechdr, 0, 6⟩, ⟨.payload, 0, parsedPayloadLength dl d⟩, ⟨.sectrl, 0, 16⟩]
        ++ (if (unpackPH s.cfg b).ocfFlag = 1 then [⟨.ocf, 0, 4⟩] else [])
        ++ (if s.cfg.fecfEn = 1 then [⟨.fecf, 0, 4⟩] else []))
      (storeFrame s n b dl f) (storeFrame s' n b dl f) := by
  rw [overhead, unpackPH_fcLen_toNat] at hdl
  have hzone := agreeOn_store (agreeOn_nil s s') .iz 0 (n := s.cfg.izLen.toNat)
    (vs := (b.drop (s.cfg.phLen (selectorOf b))).take s.cfg.izLen.toNat) (by
      rw [List.length_take, List.length_drop]; omega)
  have hfield := agreeOn_storeDataField hzone hf hd
  have hocf := agreeOn_storeOcf hfield (unpackPH s.cfg b) b
    (s.cfg.phLen (selectorOf b) + s.cfg.izLen.toNat + dl) (fun h1 => by
      rw [word_eq_one_iff] at h1; omega)
  have hfecf := agreeOn_storeFecf hocf b n (by simpa using hfe) (by omega) hb
  simp only [storeOcf_cfg, storeDataField_cfg, State.store_cfg, List.nil_append, List.cons_append] at hfecf
  unfold storeFrame
  rw [← CfgRegs.phLen_congr hm, ← unpackPH_congr hm, ← hiz]
  exact hfecf

theorem sameEffect_tfDecode (h : SameOperands .tfDecode s s') :
    SameEffect .tfDecode s s' (tfDecodeEffect s) (tfDecodeEffect s') := by
  have hn : s.frameLen = s'.frameLen := h.regs .frameLen (by decide)
  have hv : s.cfg.version = s'.cfg.version := h.regs .cfgVersion (by decide)
  have hiz : s.cfg.izLen = s'.cfg.izLen := h.regs .cfgIzLen (by decide)
  have hfe : s.cfg.fecfEn = s'.cfg.fecfEn := h.regs .cfgFecfEn (by decide)
  have hm : s.cfg.fcMode = s'.cfg.fcMode := h.regs .cfgFcMode (by decide)
  have hss : s.cfg.strictSpare = s'.cfg.strictSpare := h.regs .cfgStrictSpare (by decide)
  have hover : overhead s.cfg = overhead s'.cfg := by
    funext g
    simp only [overhead, CfgRegs.phLen_congr hm, hiz, hfe]
  rw [tfDecodeEffect_eq, tfDecodeEffect_eq]
  refine .raiseIf (by rw [hn]) fun hlen => ?_
  have hframe : inputFrame s = inputFrame s' := h.inputFrame_eq (by decide) hn (by simpa using hlen)
  have hdl : inputFieldLength s = inputFieldLength s' := by
    rw [inputFieldLength, inputFieldLength, ← hframe, ← hn, ← hover, ← unpackPH_congr hm]
  have hfield : inputField s = inputField s' := by
    rw [inputField, inputField, ← hdl, ← hframe, ← CfgRegs.phLen_congr hm, ← hiz]
  rw [← hframe, ← hn, ← unpackPH_congr hm, ← hover, ← hdl, ← hfield]
  refine .checkHeader hv hm hss fun h7 hph => .raiseIf rfl fun _ => .raiseIf rfl fun hfit => ?_
  cases hf : parseDF (inputFieldLength s) (inputField s) with
  | none => exact .raise _
  | some f =>
    refine .commit _ ⟨?_, ?_, ?_, ?_⟩
    · simpa using h.locked
    · simp [writtenRegs, hdrRegs, State.readReg, unpackPH_congr hm]
    · simp only [writtenBlocks, ← hframe, ← hdl, ← hfield, hiz, hfe, unpackPH_congr hm]
    · have hb : (inputFrame s).length = s.frameLen.toNat := State.length_octets _ _ _ _
      have hover' : overhead s.cfg (unpackPH s.cfg (inputFrame s)) ≤ s.frameLen.toNat := by simpa using hfit
      exact agreeOn_storeFrame hm hiz hfe h7 hb (Nat.add_sub_cancel' hover') hf (length_inputField hover')

/-- Every command's effect is decided by its operands: at once where it is refused the lock, else check by check. -/
theorem sameEffect_effectOf {i : Instr} (h : SameOperands i s s')
    (hlegal : s.status.locked = true → s.cfg.legal = true) : SameEffect i s s' (effectOf i s) (effectOf i s') := by
  cases i with
  | lockConfig => exact sameEffect_lockConfig h
  | writeField => exact .underLock h.locked fun _ => sameEffect_writeField h
  | readField => exact .underLock h.locked fun _ => sameEffect_readField h
  | phEncode => exact .underLock h.locked fun _ => sameEffect_phEncode h
  | phDecode => exact .underLock h.locked fun _ => sameEffect_phDecode h
  | dfEncode => exact .underLock h.locked fun _ => sameEffect_dfEncode h
  | dfDecode => exact .underLock h.locked fun _ => sameEffect_dfDecode h
  | tfEncode hook => exact .underLock h.locked fun hl => sameEffect_tfEncode h (hlegal hl)
  | tfDecode => exact .underLock h.locked fun _ => sameEffect_tfDecode h
  | spEncode => exact .underLock h.locked fun _ => sameEffect_spEncode h
  | spDecode => exact .underLock h.locked fun _ => sameEffect_spDecode h

end

/-! ## The statement -/

theorem status_not_written (i : Instr) : ∀ r ∈ writtenRegs i, r ≠ .status := by
  rintro r hr rfl
  cases i <;> simp [writtenRegs, hdrRegs] at hr

/-- Settles O13: the two effects agree, and so do their completions. -/
theorem commandsReadOnlyTheirOperands : Obligations.CommandsReadOnlyTheirOperands := by
  intro i s s' t t' hlocked hlegal hregs hbufs ht ht'
  rw [exec_next_iff] at ht ht'
  have hsame := sameEffect_effectOf ⟨hlocked, hregs, hbufs⟩ fun hl => (hlegal hl).1
  subst ht ht'
  generalize effectOf i s = e, effectOf i s' = e' at hsame
  cases hsame with
  | raise k =>
    refine ⟨by simp [hlocked], fun hok => ?_⟩
    cases hok
  | @commit c c' nz hw =>
    refine ⟨by simp [hw.locked], fun _ => ⟨fun r hr => ?_, hw.blocks, hw.octets⟩⟩
    have hne := status_not_written i r hr
    rw [readReg_complete_commit s c nz hne, readReg_complete_commit s' c' nz hne, hw.regs r hr]

end Sys2Proof.Machine
end

section
/-! SUPPORT. Which accesses go through (R72 to R74), what a read leaves of the state (R75) and what the host's turn makes
of its program (R80, R106), and the statements about them. -/
namespace Sys2Proof.Machine

/-! ## Legal accesses (R72 to R74) -/

/-- The accesses of R72 and R73: a register whole at its own offset, or one octet of a buffer's window. -/
abbrev legalAccess (o w : Nat) : Prop :=
  (w = 32 ∧ ∃ r, regOffset r = o) ∨ (w = 8 ∧ ∃ b i, i < b.size ∧ bufBase b + i = o)

theorem width_ne_of_regAt {o w : Nat} {r : Reg} (h : ¬ legalAccess o w) (hr : regAt o = some r) : w ≠ 32 :=
  fun hw => h (.inl ⟨hw, r, regOffset_of_regAt hr⟩)

theorem width_ne_of_bufAt {o w : Nat} {b : Buf} (h : ¬ legalAccess o w) (hb : bufAt o = some b) : w ≠ 8 :=
  fun hw => h (.inr ⟨hw, b, window_of_bufAt hb⟩)

theorem hostRead_illegal (s : State) {o w : Nat} (h : ¬ legalAccess o w) :
    hostRead s o w = .error (.busError o w) := by
  unfold hostRead
  split
  case h_1 hr => exact if_neg (width_ne_of_regAt h hr)
  case h_2 hb => exact if_neg (width_ne_of_bufAt h hb)
  case h_3 => rfl

theorem hostWrite_illegal (s : State) {o w : Nat} (v : BitVec w) (h : ¬ legalAccess o w) :
    hostWrite s o w v = .error (.busError o w) := by
  unfold hostWrite
  split
  case h_1 hr => exact if_neg (width_ne_of_regAt h hr)
  case h_2 hb => exact if_neg (width_ne_of_bufAt h hb)
  case h_3 => rfl

/-- Settles O24: an idle TFC holds no access back, and each access ends as its read or write of the port does. -/
theorem illegalAccessesAreBusErrors : Obligations.IllegalAccessesAreBusErrors := by
  intro s o w v hidle
  refine ⟨fun hillegal => ⟨?_, ?_⟩, ?_⟩
  · rw [hostAccess.eq_def, hazardous_of_idle hidle]
    simp [hostRead_illegal s hillegal]
  · rw [hostAccess.eq_def, hazardous_of_idle hidle]
    simp [hostWrite_illegal s v hillegal]
  · rintro (⟨rfl, r, rfl⟩ | ⟨rfl, b, i, hi, rfl⟩)
    · exact ⟨⟨_, hostAccess_read hidle (hostRead_reg s r)⟩, _, hostAccess_writeReg hidle r v⟩
    · exact ⟨⟨_, hostAccess_read hidle (hostRead_octet s b hi)⟩, _, hostAccess_writeOctet hidle b hi v⟩

/-! ## What a read leaves (R75) -/

/-- The state after a read that returned `ob`: the host has seen it, and the hazard window is open only while BUSY = 1. -/
def State.afterRead (s : State) (ob : Observation) : State :=
  { s with observed := s.observed ++ [ob], hazardWindow := s.status.busy }

@[simp] theorem State.afterRead_status (s : State) (ob : Observation) : (s.afterRead ob).status = s.status := rfl
@[simp] theorem State.afterRead_observed (s : State) (ob : Observation) :
    (s.afterRead ob).observed = s.observed ++ [ob] := rfl
@[simp] theorem State.afterRead_hazardWindow (s : State) (ob : Observation) :
    (s.afterRead ob).hazardWindow = s.status.busy := rfl
@[simp] theorem State.byte_afterRead (s : State) (ob : Observation) (a : Nat) : (s.afterRead ob).byte a = s.byte a := rfl

@[simp] theorem State.readReg_afterRead (s : State) (ob : Observation) (r : Reg) :
    (s.afterRead ob).readReg r = s.readReg r := by
  cases r <;> rfl

/-- A read returns what registers and octets hold, and an earlier read has changed none of them. -/
@[simp] theorem hostRead_afterRead (s : State) (ob : Observation) (o w : Nat) :
    hostRead (s.afterRead ob) o w = hostRead s o w := by
  simp only [hostRead, State.readReg_afterRead, State.byte_afterRead]

/-- A read forbids nothing that was allowed before it (R350). -/
theorem hazardous_afterRead {s : State} {a : Access} (ob : Observation) (h : hazardous s a = false) :
    hazardous (s.afterRead ob) a = false := by
  simp only [hazardous, State.afterRead_status, State.afterRead_hazardWindow, Bool.or_self, Bool.and_eq_false_iff,
    Bool.or_eq_false_iff] at h ⊢
  exact h.imp_left And.right

/-- A read goes through exactly when nothing forbids it and it is legal (R74, R350). -/
theorem hostAccess_read_next_iff {s t : State} {o w : Nat} :
    hostAccess s (.read o w) = .next t
      ↔ hazardous s (.read o w) = false ∧ ∃ ob, hostRead s o w = .ok ob ∧ t = s.afterRead ob := by
  constructor
  · intro h
    obtain ⟨hz, ⟨o', w', ob, ha, hr, rfl⟩ | ⟨o', w', v, ha, -⟩⟩ := hostAccess_inversion h
    · cases ha
      exact ⟨hz, ob, hr, rfl⟩
    · cases ha
  · rintro ⟨hz, ob, hr, rfl⟩
    rw [hostAccess.eq_def, hz]
    simp [hr, State.afterRead]

/-- Settles O26: the repeat is as allowed as the first read was, and finds what it read unchanged. -/
theorem readsHaveNoSideEffects : Obligations.ReadsHaveNoSideEffects := by
  intro s t o w h
  obtain ⟨hz, ob, hr, rfl⟩ := hostAccess_read_next_iff.mp h
  have hrepeat : hostAccess (s.afterRead ob) (.read o w) = .next ((s.afterRead ob).afterRead ob) :=
    hostAccess_read_next_iff.mpr ⟨hazardous_afterRead ob hz, ob, by simpa using hr, rfl⟩
  exact ⟨by simp, by simp, rfl, ob, _, rfl, hrepeat, by simp⟩

/-! ## The host's turn (R80, R106) -/

theorem step_of_hostMover {s : State} (h : s.mover = .host) : step s = hostTurn s.advanceSchedule := by
  rw [step, h]

theorem hostTurn_nil {s : State} (h : s.program = []) : hostTurn s = .next s := by
  rw [hostTurn, h]

theorem hostTurn_access {s : State} {a : Access} {rest : List HostOp} (h : s.program = .access a :: rest) :
    hostTurn s = hostAccess { s with program := rest } a := by
  rw [hostTurn, h]

theorem waitDone_iff (s : State) : waitDone s = true ↔ s.status.busy = false ∧ s.status.done = true := by
  simp [waitDone]

/-- A `wait` whose STATUS read sees the command done is left behind (R106). -/
theorem hostTurn_wait_done {s : State} {rest : List HostOp} (h : s.program = .wait :: rest)
    (hdone : s.status.busy = false ∧ s.status.done = true) :
    hostTurn s = hostAccess { s with program := rest } statusRead := by
  simp only [hostTurn, h, (waitDone_iff s).mpr hdone, if_true]

/-- Any other `wait` stands for the host's next turn as well (R106). -/
theorem hostTurn_wait_again {s : State} {rest : List HostOp} (h : s.program = .wait :: rest)
    (hdone : ¬(s.status.busy = false ∧ s.status.done = true)) : hostTurn s = hostAccess s statusRead := by
  simp only [hostTurn, h, mt (waitDone_iff s).mp hdone, Bool.false_eq_true, if_false]

/-- Settles O6: the host's turn by what its program begins with, a `wait` by whether the command is done; advancing the
schedule changes neither. -/
theorem stepMakesNextHostAccess : Obligations.StepMakesNextHostAccess := by
  intro s a rest hm
  rw [step_of_hostMover hm]
  exact ⟨fun hp => hostTurn_access hp, fun hp hbusy hdone => hostTurn_wait_done hp ⟨hbusy, hdone⟩,
    fun hp hwait => hostTurn_wait_again hp hwait, fun hp => hostTurn_nil hp⟩

end Sys2Proof.Machine
end

section
/-! SUPPORT. The command word as its three fields (R100): which words decode (R101), which rows of the opcode map accept
a word (R102), and the statements of the command word. -/
namespace Sys2Proof.Machine

/-! ## The three fields of a command word (R100, R101) -/

/-- The fields RSV, H and OPCODE make up the whole word (R100). -/
theorem word_eq_fields (w : Word) : w = rsvField w ++ BitVec.ofBool (hookField w) ++ opcodeField w := by
  apply BitVec.eq_of_getLsbD_eq
  intro k hk
  change w.getLsbD k
    = BitVec.getLsbD (w := 23 + 1 + 8) (rsvField w ++ BitVec.ofBool (hookField w) ++ opcodeField w) k
  rw [BitVec.getLsbD_append, BitVec.getLsbD_append]
  by_cases hop : k < 8
  · simp [hop, opcodeField]
  · by_cases hhook : k = 8
    · simp [hhook, hookField]
    · have hpos : 9 + (k - 8 - 1) = k := by omega
      simp [hop, rsvField, hpos, show ¬ k - 8 < 1 by omega, show k - 8 - 1 < 23 by omega]

/-- The opcode map read backwards: OPCODE is the command's, and beside 0x30 H is the command's too (R102). -/
theorem commandOf_eq_some_iff {op : BitVec 8} {h : Bool} {i : Instr} :
    commandOf op h = some i ↔ op = opcodeOf i ∧ (op = 0x30 → h = hookOf i) := by
  constructor
  · unfold commandOf
    intro hc
    split at hc
    all_goals cases hc
    all_goals
      refine ⟨BitVec.eq_of_toNat_eq ‹_›, ?_⟩
      rintro rfl
      simp_all [hookOf]
  · rintro ⟨rfl, hh⟩
    cases i with
    | tfEncode g => rw [hh rfl]; rfl
    | _ => rfl

/-- The checks of R101 in one: the opcode selects a command, RSV is 0, and H is set beside 0x30 alone. -/
theorem decode_eq_ok_iff {w : Word} {i : Instr} :
    decode w = .ok i ↔ commandOf (opcodeField w) (hookField w) = some i ∧ rsvField w = 0
      ∧ (hookField w = true → opcodeField w = 0x30) := by
  unfold decode
  cases commandOf (opcodeField w) (hookField w) with
  | none => simp
  | some j =>
    by_cases hr : rsvField w = 0#23
    · cases hook : hookField w
      · simp [hr]
      · by_cases ho : opcodeField w = 0x30#8 <;> simp [hr, ho]
    · simp [hr]

/-- Only TF_ENCODE has the opcode 0x30 (R102). -/
theorem hookOf_eq_false {i : Instr} (h : opcodeOf i ≠ 0x30) : hookOf i = false := by
  cases i with
  | tfEncode g => exact absurd rfl h
  | _ => rfl

/-- A word that decodes is the word of its command: the three checks fix its three fields (R101). -/
theorem eq_encode_of_decode {w : Word} {i : Instr} (h : decode w = .ok i) : w = encode i := by
  obtain ⟨hc, hrsv, hhook⟩ := decode_eq_ok_iff.mp h
  obtain ⟨hop, h30⟩ := commandOf_eq_some_iff.mp hc
  have hh : hookField w = hookOf i := by
    by_cases ho : opcodeField w = 0x30
    · exact h30 ho
    · rw [hookOf_eq_false (hop ▸ ho), Bool.eq_false_iff]
      exact mt hhook ho
  rw [word_eq_fields w, hrsv, hh, hop, encode]

/-- Settles O2: a word that decodes has the fields of its command, and no field is left over. -/
theorem decodeExactlyEncodedWords : Obligations.DecodeExactlyEncodedWords := fun _ i =>
  ⟨eq_encode_of_decode, fun h => h ▸ decode_encode i⟩

/-- Settles O1: each word evaluated. -/
theorem decodeSampleWords : Obligations.DecodeSampleWords := by
  unfold Obligations.DecodeSampleWords
  decide

/-! ## The rows of the opcode map (R102) -/

/-- What the layout laws say of each command, of all of them. -/
theorem encoding_statement (i : Instr) : Laws.Encoding.Statement i := by
  cases i with
  | lockConfig => exact Laws.Encoding.lockConfig
  | writeField => exact Laws.Encoding.writeField
  | readField => exact Laws.Encoding.readField
  | phEncode => exact Laws.Encoding.phEncode
  | phDecode => exact Laws.Encoding.phDecode
  | dfEncode => exact Laws.Encoding.dfEncode
  | dfDecode => exact Laws.Encoding.dfDecode
  | tfEncode h => exact Laws.Encoding.tfEncode h
  | tfDecode => exact Laws.Encoding.tfDecode
  | spEncode => exact Laws.Encoding.spEncode
  | spDecode => exact Laws.Encoding.spDecode

theorem accepts_iff {r : OpcodeRow} {w : Word} : r.accepts w = true ↔ w &&& r.mask = r.pattern := by
  simp [OpcodeRow.accepts]

theorem mem_opcodeTable_iff {r : OpcodeRow} : r ∈ opcodeTable ↔ ∃ i, r = opcodeRow i := by
  constructor
  · intro h
    simp only [opcodeTable, List.mem_cons, List.not_mem_nil, or_false] at h
    rcases h with h | h | h | h | h | h | h | h | h | h | h <;> exact ⟨_, h⟩
  · rintro ⟨i, rfl⟩
    cases i <;> simp [opcodeTable, opcodeRow]

/-- The row of TF_ENCODE leaves bit 8 alone open: a word it accepts is the one with its own H (R100, R102). -/
theorem eq_encode_tfEncode {w : Word} (h : w &&& 0xFFFFFEFF = 0x00000030) : w = encode (.tfEncode (hookField w)) := by
  have hbit : w &&& 0x00000100 = if hookField w then 0x00000100 else 0 := BitVec.and_twoPow w 8
  calc w = w &&& (0xFFFFFEFF ||| 0x00000100) := (BitVec.and_allOnes).symm
    _ = (w &&& 0xFFFFFEFF) ||| (w &&& 0x00000100) := BitVec.and_or_distrib_left
    _ = encode (.tfEncode (hookField w)) := by rw [h, hbit]; cases hookField w <;> rfl

/-- The row of every other command is its one word (R102). -/
theorem opcodeRow_cases (i : Instr) :
    (∃ h, i = .tfEncode h) ∨ opcodeRow i = ⟨encode i, BitVec.allOnes 32⟩ := by
  cases i with
  | tfEncode h => exact .inl ⟨h, rfl⟩
  | _ => exact .inr rfl

/-- Only words of commands belong to a row of the opcode map (R102). -/
theorem eq_encode_of_accepts {i : Instr} {w : Word} (h : w &&& (opcodeRow i).mask = (opcodeRow i).pattern) :
    ∃ j, w = encode j := by
  rcases opcodeRow_cases i with ⟨g, rfl⟩ | hrow
  · exact ⟨_, eq_encode_tfEncode h⟩
  · rw [hrow] at h
    exact ⟨i, BitVec.and_allOnes.symm.trans h⟩

/-- Settles O3: the words of commands are the words some row accepts, and each of them has its own row only. -/
theorem decodeFollowsOpcodeMap : Obligations.DecodeFollowsOpcodeMap := by
  intro w
  have hrow : ∀ {r}, r ∈ opcodeTable → w &&& r.mask = r.pattern → ∃ i, w = encode i := by
    intro r hr hw
    obtain ⟨i, rfl⟩ := mem_opcodeTable_iff.mp hr
    exact eq_encode_of_accepts hw
  refine ⟨⟨?_, ?_⟩, ?_⟩
  · rintro ⟨i, hi⟩
    obtain ⟨-, -, -, -, hacc, -⟩ := encoding_statement i
    exact ⟨_, mem_opcodeTable_iff.mpr ⟨i, rfl⟩, by rw [eq_encode_of_decode hi]; exact accepts_iff.mp hacc⟩
  · rintro ⟨r, hr, hw⟩
    obtain ⟨i, rfl⟩ := hrow hr hw
    exact ⟨i, decode_encode i⟩
  · intro r hr r' hr' hw hw'
    obtain ⟨i, rfl⟩ := hrow hr hw
    obtain ⟨-, -, -, -, -, honly⟩ := encoding_statement i
    rw [honly r hr (accepts_iff.mpr hw), honly r' hr' (accepts_iff.mpr hw')]

/-! ## Illegal words (R104) -/

theorem opcodeField_toNat (w : Word) : (opcodeField w).toNat = w.toNat % 256 := by
  simp [opcodeField, BitVec.extractLsb'_toNat]

theorem rsvField_eq_zero_iff (w : Word) : rsvField w = 0 ↔ w.toNat / 512 = 0 := by
  have hrsv : (rsvField w).toNat = w.toNat / 512 := by
    rw [rsvField, BitVec.extractLsb'_toNat, Nat.shiftRight_eq_div_pow]; omega
  rw [← BitVec.toNat_inj, hrsv]
  rfl

theorem hookField_iff (w : Word) : hookField w = true ↔ w.toNat / 256 % 2 = 1 := by
  rw [hookField, BitVec.getLsbD, Nat.testBit_eq_decide_div_mod_eq, decide_eq_true_iff]

/-- The opcodes of the map, by number (R102). -/
theorem commandOf_isSome_iff (op : BitVec 8) (h : Bool) :
    (∃ i, commandOf op h = some i)
      ↔ op.toNat ∈ [0x01, 0x02, 0x03, 0x10, 0x11, 0x20, 0x21, 0x30, 0x31, 0x40, 0x41] := by
  unfold commandOf
  constructor
  · rintro ⟨i, hi⟩
    split at hi <;> simp_all
  · intro hop
    simp only [List.mem_cons, List.not_mem_nil, or_false] at hop
    rcases hop with hop | hop | hop | hop | hop | hop | hop | hop | hop | hop | hop <;> exact ⟨_, by rw [hop]; rfl⟩

/-- The words that are commands, by number (R104). -/
theorem decode_ok_iff_legal (w : Word) :
    (∃ i, decode w = .ok i)
      ↔ w.toNat % 256 ∈ [0x01, 0x02, 0x03, 0x10, 0x11, 0x20, 0x21, 0x30, 0x31, 0x40, 0x41] ∧ w.toNat / 512 = 0
        ∧ (w.toNat / 256 % 2 = 1 → w.toNat % 256 = 0x30) := by
  have h30 : opcodeField w = 0x30 ↔ w.toNat % 256 = 0x30 := by rw [← BitVec.toNat_inj, opcodeField_toNat]; rfl
  simp only [decode_eq_ok_iff, exists_and_right, commandOf_isSome_iff, opcodeField_toNat, rsvField_eq_zero_iff,
    hookField_iff, h30]

theorem engineTurn_ok {s : State} {i : Instr} (hb : s.status.busy = true) (hd : decode s.latched = .ok i) :
    engineTurn s = exec i s := by
  rw [engineTurn, if_pos hb, hd]

theorem engineTurn_error {s : State} (hb : s.status.busy = true) (hd : ¬∃ i, decode s.latched = .ok i) :
    engineTurn s = .next (s.failed .illegalCommand) := by
  rw [engineTurn, if_pos hb]
  cases h : decode s.latched with
  | ok i => exact absurd ⟨i, h⟩ hd
  | error e => rfl

/-- Settles O4: a word is legal exactly when it decodes, and the engine raises IllegalCommandError on the others. -/
theorem illegalWordsRaiseIllegalCommand : Obligations.IllegalWordsRaiseIllegalCommand := by
  intro s hb op h rsv illegal
  have hlegal : ¬ illegal ↔ ∃ i, decode s.latched = .ok i := by
    rw [decode_ok_iff_legal]
    simp only [illegal, not_or, not_and, not_not, op, h, rsv, ne_eq]
  refine ⟨fun hill => engineTurn_error hb fun hd => hlegal.mpr hd hill, fun hleg => ?_⟩
  obtain ⟨i, hi⟩ := hlegal.mp hleg
  exact ⟨i, hi, engineTurn_ok hb hi⟩

end Sys2Proof.Machine
end

section
/-! SUPPORT. The regions an encoder lays out one after the other: octets that hold a concatenation hold its parts, each
at its offset (R13, R113 to R116), and the statements `…LaysOut…` of the four encoders. -/
namespace Sys2Proof.Machine

/-! ## Regions side by side -/

/-- The octets of a buffer from index `i` on are these (R13). -/
def State.holdsAt (s : State) (b : Buf) (i : Nat) (vs : List Byte) : Prop := s.octets b i vs.length = vs

theorem State.holdsAt_append {s : State} {b : Buf} {i : Nat} {xs ys : List Byte} :
    s.holdsAt b i (xs ++ ys) ↔ s.holdsAt b i xs ∧ s.holdsAt b (i + xs.length) ys := by
  unfold State.holdsAt
  rw [List.length_append, State.octets_add]
  exact ⟨fun h => List.append_inj h (State.length_octets _ _ _ _), fun ⟨hx, hy⟩ => by rw [hx, hy]⟩

@[simp] theorem State.holdsAt_octets {s t : State} {b c : Buf} {i j n : Nat} :
    t.holdsAt b i (s.octets c j n) ↔ t.octets b i n = s.octets c j n := by
  rw [State.holdsAt, State.length_octets]

/-- A store holds what it stored, whatever registers are written beside it. -/
theorem State.holdsAt_of_mem {s t : State} {b : Buf} {i : Nat} {vs : List Byte}
    (h : t.mem = Memory.writeBlock s.mem (bufBase b + i) vs) : t.holdsAt b i vs :=
  State.octets_of_mem t s.mem b i _ vs h rfl

/-- What is held depends on memory and the draws alone. -/
theorem State.holdsAt.congr {s t : State} {b : Buf} {i : Nat} {vs : List Byte} (h : s.holdsAt b i vs)
    (hm : t.mem = s.mem) (hd : t.draws = s.draws) : t.holdsAt b i vs :=
  (State.octets_mem_congr hm hd b i vs.length).trans h

/-- FRAME_LEN octets of a whole frame are that frame (R25). -/
theorem State.holdsAt.inputFrame_eq {t : State} {vs : List Byte} (h : t.holdsAt .frame 0 vs)
    (hn : t.frameLen.toNat = vs.length) : inputFrame t = vs := by
  rw [inputFrame, hn, h]

theorem toNat_ofNat_of_lt {n : Nat} (h : n < 2 ^ 32) : (BitVec.ofNat 32 n).toNat = n := by
  rw [BitVec.toNat_ofNat, Nat.mod_eq_of_lt h]

/-! ## The primary header (R110, R170) -/

/-- Settles O34: FRAME holds PackPH of the registers, which puts every field at its place. -/
theorem primaryHeaderEncodeLaysOutFields : Obligations.PrimaryHeaderEncodeLaysOutFields := by
  intro s hl hlegal hhdr hcount hver hspare
  have hmode : s.cfg.fcMode.toNat ≤ 1 := by
    obtain ⟨-, -, -, -, -, -, h, -⟩ := hlegal
    exact h
  have hsel : s.hdr.fcLen.toNat ≤ 7 := by
    obtain ⟨-, -, -, -, -, -, -, -, -, -, -, h⟩ := hhdr
    exact h
  have hfit := (HdrRegs.fixedFit_iff _).mpr hhdr
  have hfits := (HdrRegs.countFits_iff _ _ hmode).mpr hcount
  have heff := (underLock_eq_commit (s := s)).mpr ⟨hl, phEncodeEffect_commit.mpr
    ⟨hfit, hfits, hver, (CfgRegs.rejectsSpare_eq_false_iff _ _).mpr hspare, rfl, rfl⟩⟩
  have hlen := s.cfg.phLen_le s.hdr.fcLen.toNat hsel
  have hn : (BitVec.ofNat 32 (s.cfg.phLen s.hdr.fcLen.toNat)).toNat = s.cfg.phLen s.hdr.fcLen.toNat :=
    toNat_ofNat_of_lt (by omega)
  refine ⟨_, exec_of_commit heff, by simp [hl, okStatus], fun h => ?_, fun h => ?_, ?_⟩
  · rw [complete_commit_frameLen, hn, CfgRegs.phLen_eq, if_pos h]
  · rw [complete_commit_frameLen, hn, CfgRegs.phLen_eq, if_neg (by omega)]
  · rw [inputFrame_complete_commit,
      (State.holdsAt_of_mem (s := s) (vs := packPH s.cfg s.hdr) rfl).inputFrame_eq (by simpa using hn)]
    exact headerOnWire_packPH _ _ hfit hfits

/-! ## The data field (R113, R190) -/

/-- The header octets of a data field, read as the three octets the longest header has (R112, R193). -/
theorem dfhOnWire_of_holdsAt {t : State} {d : DfhRegs} {i : Nat} (hs : d.selectorsFit = true)
    (hp : d.pointerFits = true) (h : t.holdsAt .frame i (packDFH d)) : dfhOnWire d (t.octets .frame i 3) := by
  have hoctet : ∀ k, k < 3 → k < dfhLen d.rule.toNat →
      (t.octets .frame i 3).getD k 0 = (packDFH d).getD k 0 := by
    intro k h3 hk
    rw [← h, length_packDFH, State.getD_octets _ _ _ _ _ h3, State.getD_octets _ _ _ _ _ hk]
  rw [dfhLen_eq] at hoctet
  refine ⟨?_, fun hr => ?_⟩
  · rw [hoctet 0 (by omega) (by split <;> omega), packDFH_getD_zero d hs]
  · rw [if_pos hr] at hoctet
    rw [hoctet 1 (by omega) (by omega), hoctet 2 (by omega) (by omega), packDFH_pointer d hp hr]

/-- Where FRAME holds the data field of `s`, its regions follow each other (R113). -/
theorem dataField_regions {s t : State} {i : Nat} (hd : dfhBounds s.dfh)
    (h : t.holdsAt .frame i (dataFieldOctets s)) :
    t.octets .frame i 6 = s.octets .sechdr 0 6
    ∧ dfhOnWire s.dfh (t.octets .frame (i + 6) 3)
    ∧ t.octets .frame (i + 6 + (if s.dfh.rule.toNat ≤ 1 then 3 else 1)) s.payloadLen.toNat
        = s.octets .payload 0 s.payloadLen.toNat
    ∧ t.octets .frame (i + 6 + (if s.dfh.rule.toNat ≤ 1 then 3 else 1) + s.payloadLen.toNat) 16
        = s.octets .sectrl 0 16 := by
  obtain ⟨hrule, hid, hptr⟩ := hd
  simp only [dataFieldOctets, State.holdsAt_append, State.holdsAt_octets, List.length_append, State.length_octets,
    length_packDFH, dfhLen_eq, ← Nat.add_assoc] at h
  obtain ⟨⟨⟨hsec, hdfh⟩, hpay⟩, htrl⟩ := h
  exact ⟨hsec, dfhOnWire_of_holdsAt ((DfhRegs.selectorsFit_iff _).mpr ⟨hrule, hid⟩)
    ((DfhRegs.pointerFits_iff _).mpr hptr) hdfh, hpay, htrl⟩

/-- Settles O39: FRAME holds the four regions from index 0 on. -/
theorem dataFieldEncodeLaysOutRegions : Obligations.DataFieldEncodeLaysOutRegions := by
  intro s hl hpay hdfh hlen
  obtain ⟨hrule, hid, hptr⟩ := id hdfh
  have hdf : dfLen s.dfh.rule.toNat s.payloadLen.toNat
      = 22 + (if s.dfh.rule.toNat ≤ 1 then 3 else 1) + s.payloadLen.toNat := by rw [dfLen, dfhLen_eq]
  have heff := (underLock_eq_commit (s := s)).mpr ⟨hl, dfEncodeEffect_commit.mpr
    ⟨hpay, (DfhRegs.selectorsFit_iff _).mpr ⟨hrule, hid⟩, (DfhRegs.pointerFits_iff _).mpr hptr, by rwa [hdf], rfl,
      rfl⟩⟩
  refine ⟨_, exec_of_commit heff, by simp [hl, okStatus], ?_, flagWord_present _, ?_⟩
  · rw [complete_commit_frameLen, toNat_ofNat_of_lt (by omega), hdf]
  · simp only [State.octets_complete_commit]
    simpa using dataField_regions hdfh (State.holdsAt_of_mem (s := s) rfl)

/-! ## The space packet (R115, R116, R260) -/

/-- Where FRAME holds the packet of `s`, the secondary header and the payload follow the header (R116). -/
theorem packet_regions {s t : State} (h : t.holdsAt .frame 0 (packetOctets s)) :
    t.octets .frame 6 (s.cfg.secHdrLen s.sp.shFlag) = s.octets .spsh 0 (s.cfg.secHdrLen s.sp.shFlag)
    ∧ t.octets .frame (6 + s.cfg.secHdrLen s.sp.shFlag) s.payloadLen.toNat
        = s.octets .payload 0 s.payloadLen.toNat := by
  simp only [packetOctets, State.holdsAt_append, State.holdsAt_octets, List.length_append, State.length_octets,
    length_packSP, Nat.zero_add] at h
  obtain ⟨⟨-, hsec⟩, hpay⟩ := h
  exact ⟨hsec, hpay⟩

/-- Settles O53: FRAME holds the packet header, the secondary header and the payload. -/
theorem packetEncodeLaysOutRegions : Obligations.PacketEncodeLaysOutRegions := by
  intro s hl hpay hsp sh hne hlen
  have hsh : s.cfg.secHdrLen s.sp.shFlag = sh := CfgRegs.secHdrLen_eq _ _
  have hm : packetDataLength s = sh + s.payloadLen.toNat := by rw [packetDataLength, hsh]
  have hfit := (SpRegs.fieldsFit_iff _).mpr hsp
  have heff := (underLock_eq_commit (s := s)).mpr ⟨hl, spEncodeEffect_commit.mpr
    ⟨hpay, hfit, by rwa [hm], by omega, rfl, rfl⟩⟩
  have hn : (BitVec.ofNat 32 (6 + packetDataLength s)).toNat = 6 + packetDataLength s := toNat_ofNat_of_lt (by omega)
  refine ⟨_, exec_of_commit heff, by simp [hl, okStatus], ?_, ?_, ?_, ?_⟩
  · rw [complete_commit_frameLen, hn, hm, Nat.add_assoc]
  · rw [complete_commit_sp, hm]
  · rw [inputFrame_complete_commit, (State.holdsAt_of_mem (s := s) (vs := packetOctets s) rfl).inputFrame_eq
      (by simpa using hn), packetOctets, List.append_assoc]
    exact packetOnWire_append _ _ _ (by simp) (packetOnWire_packSP _ _ hfit (by omega))
  · simp only [State.octets_complete_commit, ← hsh]
    exact packet_regions (State.holdsAt_of_mem (s := s) rfl)

/-! ## The transfer frame (R114, R230) -/

/-- L is the length the layout gives (R114, R230). -/
theorem frameLength_eq_layoutLength (s : State) : frameLength s = layoutLength s := by
  rw [frameLength, layoutLength, CfgRegs.phLen_eq, dfLen, dfhLen_eq]

/-- The four octets of the collaborator's value, as a list (R215). -/
theorem fecfOf_eq_toList (body : List Byte) : fecfOf body = (Config.computeFECF body).toList := by
  apply List.ext_getElem (by simp [fecfOf])
  intro k hk _
  have hk4 : k < 4 := hk
  interval_cases k <;> simp [fecfOf]

/-- The header TF_ENCODE builds fits its layout: the configuration is legal and TFLength has 16 bits (R31, R141). -/
theorem fixedFit_frameHeader {s : State} (hc : legalRanges s.cfg) (hh : perFrameBounds s.hdr)
    (hL : frameLength s ≤ 65536) : (frameHeader s).fixedFit = true := by
  obtain ⟨hver, hscid, hsrc, hmap, -⟩ := hc
  have htf : (frameHeader s).tfLength.toNat = frameLength s - 1 := toNat_ofNat_of_lt (by omega)
  exact (HdrRegs.fixedFit_iff _).mpr ⟨hver, hscid, hsrc, hmap, by omega, hh⟩

/-- The FECF buffer's own store leaves the frame in place (R37, R214). -/
theorem holdsAt_storeHookValue {s : State} (h : Bool) {vs f : List Byte} (hv : vs.length ≤ Buf.frame.size)
    (hf : f.length ≤ 4) : (storeHookValue (s.store .frame 0 vs) h f).holdsAt .frame 0 vs := by
  have hstore : (s.store .frame 0 vs).holdsAt .frame 0 vs := State.holdsAt_of_mem (s := s) rfl
  cases h with
  | false => exact hstore
  | true =>
    rw [State.holdsAt, storeHookValue, if_pos rfl, State.octets_store_other _ _ _ _ _ (by decide)
      (by simpa [Buf.size, Config.fecfSize] using hf) (by simpa using hv)]
    exact hstore

/-- Good inputs and a length in range pass every check of TF_ENCODE, and it completes with its frame written
(R214, R230). -/
theorem tfEncode_completes {h : Bool} {s : State} (hgood : frameInputsGood h s) (hL : layoutLength s ≤ 65536) :
    ∃ t, exec (.tfEncode h) s = .next t ∧ t.status = okStatus (s.hdr.spare != 0)
      ∧ t.frameLen.toNat = layoutLength s ∧ t.hdr = frameHeader s
      ∧ t.dfhFhpPresent = flagWord (present s.dfh.rule.toNat)
      ∧ t.holdsAt .frame 0 (frameOctets s h) ∧ (h = true → t.holdsAt .fecf 0 (fecfRegion s h)) := by
  obtain ⟨hl, hcfg, hhook, hpay, hhdr, hocf, hcount, ⟨hrule, hid, hptr⟩, hspare⟩ := hgood
  obtain ⟨-, -, -, -, -, hfe, hmode, -⟩ := id hcfg
  obtain ⟨-, -, -, -, -, hflag, -⟩ := id hhdr
  have hlen := frameLength_eq_layoutLength s
  have hocfFits : fits 1 s.ocfValid = true := (fits_iff _ _).mpr (by rw [hocf]; omega)
  have hfecf : h = true → s.cfg.fecfEn ≠ 0 := fun hh => by
    have := hhook hh
    rw [ne_eq, word_eq_zero_iff]; omega
  have heff := (underLock_eq_commit (s := s)).mpr ⟨hl, tfEncodeEffect_commit.mpr
    ⟨hfecf, hpay, (HdrRegs.perFrameFit_iff _).mpr hhdr, hocfFits, (HdrRegs.countFits_iff _ _ hmode).mpr hcount,
      (DfhRegs.selectorsFit_iff _).mpr ⟨hrule, hid⟩, (DfhRegs.pointerFits_iff _).mpr hptr, hocf.symm,
      (CfgRegs.rejectsSpare_eq_false_iff _ _).mpr hspare, by omega, rfl, rfl⟩⟩
  have hsize : (frameOctets s h).length ≤ Buf.frame.size := by
    rw [length_frameOctets s h hflag hfe, hlen]
    exact hL.trans (by decide)
  refine ⟨_, exec_of_commit heff, by simp [hl, okStatus], ?_, rfl, rfl, ?_, ?_⟩
  · rw [complete_commit_frameLen, toNat_ofNat_of_lt (by omega), hlen]
  · exact (holdsAt_storeHookValue h hsize (length_fecfRegion s h).le).congr rfl rfl
  · rintro rfl
    exact State.holdsAt_of_mem (s := s.store .frame 0 (frameOctets s true)) rfl

/-- Where FRAME holds the octets before the FECF, the regions follow each other (R114). -/
theorem frameBody_regions {s t : State} (h : t.holdsAt .frame 0 (frameBody s)) :
    t.octets .frame (s.cfg.phLen s.hdr.fcLen.toNat) s.cfg.izLen.toNat = s.octets .iz 0 s.cfg.izLen.toNat
    ∧ t.holdsAt .frame (s.cfg.phLen s.hdr.fcLen.toNat + s.cfg.izLen.toNat) (dataFieldOctets s)
    ∧ t.holdsAt .frame (s.cfg.phLen s.hdr.fcLen.toNat + s.cfg.izLen.toNat
        + dfLen s.dfh.rule.toNat s.payloadLen.toNat) (ocfRegion s) := by
  have hsel : (frameHeader s).fcLen = s.hdr.fcLen := rfl
  simp only [frameBody, State.holdsAt_append, State.holdsAt_octets, List.length_append, State.length_octets,
    length_packPH, length_dataFieldOctets, hsel, Nat.zero_add] at h
  obtain ⟨⟨⟨-, hiz⟩, hdf⟩, hocf⟩ := h
  exact ⟨hiz, hdf, hocf⟩

/-- With H = 1 the last four octets are the collaborator's value for the octets before them (R214, R215). -/
theorem fecfRegion_hook (s : State) : fecfRegion s true = (Config.computeFECF (frameBody s)).toList := by
  rw [fecfRegion, if_pos rfl, fecfOf_eq_toList]

/-- Settles O44: FRAME holds the body and after it the FECF; the body's regions follow each other. -/
theorem frameEncodeLaysOutRegions : Obligations.FrameEncodeLaysOutRegions := by
  intro h s hgood hL ph d df tail
  obtain ⟨t, ht, hstatus, hframeLen, hhdr, hfhp, hframe, hhook⟩ := tfEncode_completes hgood hL
  obtain ⟨-, hcfg, hhookFe, -, hper, -, hcount, hdfh, -⟩ := hgood
  obtain ⟨-, -, -, -, -, hfe, hmode, -⟩ := id hcfg
  obtain ⟨-, -, -, -, -, hflag, -⟩ := id hper
  have hlen := frameLength_eq_layoutLength s
  have hbodyLen := length_frameBody s hflag
  have hfit := fixedFit_frameHeader hcfg hper (by omega)
  have hfits : (frameHeader s).countFits s.cfg = true := (HdrRegs.countFits_iff s.hdr _ hmode).mpr hcount
  have hph : s.cfg.phLen s.hdr.fcLen.toNat = ph := CfgRegs.phLen_eq _ _
  have hdfLen : dfLen s.dfh.rule.toNat s.payloadLen.toNat = 22 + d + s.payloadLen.toNat := by rw [dfLen, dfhLen_eq]
  obtain ⟨hbody, hfecf⟩ := State.holdsAt_append.mp hframe
  obtain ⟨hiz, hfield, hocf⟩ := frameBody_regions hbody
  obtain ⟨hsec, hdfhWire, hpay, htrl⟩ := dataField_regions hdfh hfield
  rw [hph] at hiz hsec hdfhWire hpay htrl hocf
  have hfecfAt : s.cfg.fecfEn.toNat = 1 → t.octets .frame (layoutLength s - 4) 4 = fecfRegion s h := fun h1 => by
    have hat : 0 + (frameBody s).length = layoutLength s - 4 := by omega
    rw [if_pos ((word_eq_one_iff _).mpr h1), hat] at hfecf
    rwa [State.holdsAt, length_fecfRegion] at hfecf
  refine ⟨t, ht, hstatus, hframeLen, ?_, hfhp.trans (flagWord_present _), ?_, hiz, hsec, hdfhWire, hpay,
    htrl, ?_, ?_, ?_⟩
  · rw [hhdr, frameHeader, hlen]
  · rw [hhdr, hframe.inputFrame_eq (by rw [hframeLen, length_frameOctets s h hflag hfe, hlen]), frameOctets, frameBody,
      List.append_assoc, List.append_assoc, List.append_assoc]
    exact headerOnWire_append _ _ _ _ (by simp) (headerOnWire_packPH _ _ hfit hfits)
  · intro h1
    have htail : df + dfLen s.dfh.rule.toNat s.payloadLen.toNat = tail := by omega
    rwa [htail, ocfRegion, if_pos ((word_eq_one_iff _).mpr h1), State.holdsAt_octets] at hocf
  · rintro h1 rfl
    exact hfecfAt h1
  · rintro rfl
    have h1 := hhookFe rfl
    have hbodyIs : t.octets .frame 0 (layoutLength s - 4) = frameBody s := by
      rw [← hlen, ← hbodyLen, h1]
      exact hbody
    refine ⟨by rw [hfecfAt h1, hbodyIs, fecfRegion_hook], ?_⟩
    have := hhook rfl
    rw [State.holdsAt, length_fecfRegion] at this
    rw [this, hfecfAt h1]

end Sys2Proof.Machine
end

section
/-! SUPPORT. What the decoders find where a frame's regions lie: the fields as numbers, the regions as octets of FRAME
(R110, R113 to R116), and the statements of the four decoders. -/
namespace Sys2Proof.Machine

/-! ## The primary header (R110, R171) -/

/-- The version check passes when the wire field is the configured number (R171). -/
theorem unpackPH_tfvn_eq {c : CfgRegs} {b : List Byte} (h : getBits b 0 4 = c.version.toNat) :
    (unpackPH c b).tfvn = c.version :=
  not_ne_iff.mp fun hne => (unpackPH_tfvn_ne_iff c b _).mp hne h

/-- The spare check passes unless strict handling meets a nonzero field (R172). -/
theorem rejectsSpare_unpackPH {c : CfgRegs} {b : List Byte}
    (h : ¬(getBits b 50 2 ≠ 0 ∧ c.strictSpare.toNat = 1)) : c.rejectsSpare (unpackPH c b).spare = false :=
  (CfgRegs.rejectsSpare_eq_false_iff _ _).mpr (mt (strictSpareHit_unpackPH_iff c b).mp h)

/-- SPARE_NZ tells whether the wire's spare field is nonzero (R172). -/
theorem unpackPH_spare_bne (c : CfgRegs) (b : List Byte) :
    ((unpackPH c b).spare != 0) = decide (getBits b 50 2 ≠ 0) := by
  obtain ⟨-, -, -, -, -, -, -, -, -, hspare, -⟩ := headerOnWire_unpackPH c b
  rw [bne_zero_eq_decide, hspare]

/-- Settles O35: the registers are UnpackPH of FRAME, whose fields stand on the wire. -/
theorem primaryHeaderDecodeReadsFields : Obligations.PrimaryHeaderDecodeReadsFields := by
  intro s hl _ hmax hmin hph hver hspare
  have heff := (underLock_eq_commit (s := s)).mpr ⟨hl, phDecodeEffect_commit.mpr
    ⟨hmax, hmin, by rwa [CfgRegs.phLen_eq], unpackPH_tfvn_eq hver, rejectsSpare_unpackPH hspare, rfl, rfl⟩⟩
  exact ⟨_, exec_of_commit heff, by rw [unpackPH_spare_bne]; simp [hl, okStatus], headerOnWire_unpackPH _ _⟩

/-! ## The data field (R113, R191, R192) -/

/-- A big-endian pair of octets is the 16-bit field they make up (R11, R13). -/
theorem octet_pair_eq_getBits (b : List Byte) (i : Nat) :
    (b.getD i 0).toNat * 256 + (b.getD (i + 1) 0).toNat = getBits b (8 * i) 16 := by
  have hsplit : getBits b (8 * i) 16 = getBits b (8 * i) 8 * 256 + getBits b (8 * (i + 1)) 8 :=
    getBits_add b (8 * i) 8 8
  rw [hsplit, getBits_octet, getBits_octet]

theorem flagWord_present_dfhLen (r : Nat) : flagWord (present r) = if dfhLen r = 3 then 1 else 0 := by
  rw [flagWord_present, dfhLen_eq]
  split <;> rfl

/-- The registers a parsed data field goes to, as numbers (R191, R192). -/
theorem storeDataField_registers (u : State) {n : Nat} {b : List Byte} {f : DataField} (h : parseDF n b = some f)
    (hb : b.length = n) (hn : n ≤ 131072) :
    (storeDataField u f).dfh.rule.toNat = getBits b 48 3 ∧ (storeDataField u f).dfh.protoId.toNat = getBits b 51 5
    ∧ (storeDataField u f).dfh.fhp.toNat = (if dfhLen (getBits b 48 3) = 3 then getBits b 56 16 else 0)
    ∧ (storeDataField u f).dfhFhpPresent = (if dfhLen (getBits b 48 3) = 3 then 1 else 0)
    ∧ (storeDataField u f).payloadLen.toNat = n - (22 + dfhLen (getBits b 48 3)) := by
  obtain ⟨-, hlen, -⟩ := parseDF_lengths h hb
  obtain ⟨-, -, rfl⟩ := parseDF_eq_some.mp h
  have hpair : (b.getD 7 0).toNat * 256 + (b.getD 8 0).toNat = getBits b 56 16 := octet_pair_eq_getBits b 7
  have hptr := getBits_lt b 56 16
  refine ⟨fieldWord_toNat b 48 3 (by decide), fieldWord_toNat b 51 5 (by decide), ?_, flagWord_present_dfhLen _, ?_⟩
  · rw [storeDataField_dfh]
    dsimp only
    rw [hpair, toNat_ofNat_of_lt (by split <;> omega)]
  · rw [storeDataField_payloadLen, hlen, parsedPayloadLength, toNat_ofNat_of_lt (by omega), Nat.sub_sub]

/-- The regions ParseDF answers are those of the sequence, where it lies in FRAME (R113, R192). -/
theorem parseDF_regions {s : State} {i n : Nat} {b : List Byte} {f : DataField} (h : parseDF n b = some f)
    (hb : b = s.octets .frame i n) :
    f.secHdr = s.octets .frame i 6
    ∧ f.payload = s.octets .frame (i + 6 + dfhLen (getBits b 48 3)) (n - (22 + dfhLen (getBits b 48 3)))
    ∧ f.secTrl = s.octets .frame (i + n - 16) 16 := by
  obtain ⟨h7, hd, rfl⟩ := parseDF_eq_some.mp h
  subst hb
  dsimp only
  rw [parsedPayloadLength, Nat.sub_sub]
  refine ⟨State.take_octets _ _ _ _ _ (by omega), ?_, ?_⟩
  · rw [State.drop_octets _ _ _ _ _ (by omega), State.take_octets _ _ _ _ _ (by omega), Nat.add_assoc]
  · rw [State.drop_octets _ _ _ _ _ (by omega), State.take_octets _ _ _ _ _ (by omega)]
    congr 1; omega

/-- The regions of a parsed data field fit their buffers (R36). -/
abbrev DataField.fitsBuffers (f : DataField) : Prop :=
  f.secHdr.length = 6 ∧ f.payload.length ≤ Buf.payload.size ∧ f.secTrl.length = 16

/-- What ParseDF answers fits the buffers it goes to (R36, R192). -/
theorem parseDF_fits {n : Nat} {b : List Byte} {f : DataField} (h : parseDF n b = some f) (hb : b.length = n)
    (hn : n ≤ 131072) :
    f.fitsBuffers := by
  obtain ⟨h6, hpay, h16⟩ := parseDF_lengths h hb
  refine ⟨h6, ?_, h16⟩
  rw [hpay, parsedPayloadLength]
  simp only [Buf.size, Config.payloadSize]
  omega

/-- The buffers a parsed data field goes to hold its regions (R191). -/
theorem storeDataField_regions {s : State} (u : State) {i n : Nat} {b : List Byte} {f : DataField}
    (h : parseDF n b = some f) (hb : b = s.octets .frame i n) (hn : n ≤ 131072) :
    (storeDataField u f).octets .sechdr 0 6 = s.octets .frame i 6
    ∧ (storeDataField u f).octets .payload 0 (n - (22 + dfhLen (getBits b 48 3)))
        = s.octets .frame (i + 6 + dfhLen (getBits b 48 3)) (n - (22 + dfhLen (getBits b 48 3)))
    ∧ (storeDataField u f).octets .sectrl 0 16 = s.octets .frame (i + n - 16) 16 := by
  obtain ⟨hsec, hpay, htrl⟩ := parseDF_regions h hb
  obtain ⟨h6, hsize, h16⟩ := parseDF_fits h (by rw [hb, State.length_octets]) hn
  have hplen : f.payload.length = n - (22 + dfhLen (getBits b 48 3)) := by rw [hpay, State.length_octets]
  rw [← hsec, ← hpay, ← htrl, ← hplen]
  exact ⟨State.octets_storeDataField_secHdr u f h6 hsize h16, State.octets_storeDataField_payload u f hsize h16,
    State.octets_storeDataField_secTrl u f h16⟩

/-- Settles O40: the data field is all of FRAME[0..FRAME_LEN). -/
theorem dataFieldDecodeSplitsRegions : Obligations.DataFieldDecodeSplitsRegions := by
  intro s hl hmax hmin d hroom
  have hd : dfhLen (getBits (inputFrame s) 48 3) = d := dfhLen_eq _
  obtain ⟨f, hf⟩ : ∃ f, parseDF s.frameLen.toNat (inputFrame s) = some f :=
    ⟨_, parseDF_eq_some.mpr ⟨hmin, by rwa [hd], rfl⟩⟩
  have heff := (underLock_eq_commit (s := s)).mpr ⟨hl, dfDecodeEffect_commit.mpr ⟨hmax, f, hf, rfl, rfl⟩⟩
  obtain ⟨hrule, hid, hfhp, hpresent, hlen⟩ := storeDataField_registers s hf (State.length_octets _ _ _ _) hmax
  have hregions := storeDataField_regions s hf rfl hmax
  rw [hd] at hfhp hpresent hlen hregions
  refine ⟨_, exec_of_commit heff, by simp [hl, okStatus], hrule, hid, hfhp, hpresent, hlen, ?_⟩
  simp only [State.octets_complete_commit]
  simpa only [Nat.zero_add] using hregions

/-! ## The space packet (R115, R261, R262) -/

/-- A stretch of the received frame, as octets of FRAME (R25). -/
theorem inputFrame_drop_take (s : State) {i k : Nat} (h : i + k ≤ s.frameLen.toNat) :
    ((inputFrame s).drop i).take k = s.octets .frame i k := by
  rw [inputFrame, State.drop_octets _ _ _ _ _ (by omega), State.take_octets _ _ _ _ _ (by omega), Nat.zero_add]

/-- The buffers a parsed packet goes to hold its regions (R261, R262). -/
theorem storePacket_regions {s : State} {sl n : Nat} (hlen : 6 + sl + n ≤ s.frameLen.toNat)
    (hsl : sl ≤ Buf.spsh.size) (hn : n ≤ Buf.payload.size) :
    (storePacket s (inputFrame s) sl n).octets .spsh 0 sl = s.octets .frame 6 sl
    ∧ (storePacket s (inputFrame s) sl n).octets .payload 0 n = s.octets .frame (6 + sl) n := by
  have hmem : (storePacket s (inputFrame s) sl n).mem
      = ((s.store .spsh 0 (s.octets .frame 6 sl)).store .payload 0 (s.octets .frame (6 + sl) n)).mem := by
    rw [← inputFrame_drop_take s (by omega : 6 + sl ≤ _), ← inputFrame_drop_take s hlen]
    rfl
  constructor
  · rw [State.octets_mem_congr hmem rfl, State.octets_store_other _ _ _ _ _ (by decide) (by simpa using hn) (by omega)]
    exact State.octets_of_mem _ s.mem _ _ _ _ rfl (by simp)
  · exact State.octets_of_mem _ (s.store .spsh 0 (s.octets .frame 6 sl)).mem _ _ _ _ hmem (by simp)

/-- Settles O54: the packet is all of FRAME[0..FRAME_LEN), the secondary header behind the six header octets. -/
theorem packetDecodeSplitsRegions : Obligations.PacketDecodeSplitsRegions := by
  intro s hl hmax b sh n hlen hroom
  obtain ⟨-, -, hflag, -, -, -, hdata⟩ := packetOnWire_unpackSP b
  have hlt := getBits_lt b 32 16
  have hsh : s.cfg.secHdrLen (unpackSP b).shFlag = sh := by rw [CfgRegs.secHdrLen_eq, ← hflag]
  have heff : effectOf .spDecode s = .commit (storePacket s b sh n) false :=
    underLock_eq_commit.mpr ⟨hl, spDecodeEffect_commit.mpr
      ⟨hmax, by omega, by rw [hlen, hdata], by rw [hsh, ← hdata]; exact hroom, by rw [hsh, ← hdata], rfl⟩⟩
  refine ⟨_, exec_of_commit heff, by simp [hl, okStatus], packetOnWire_unpackSP b, toNat_ofNat_of_lt (by omega), ?_⟩
  simp only [State.octets_complete_commit]
  exact storePacket_regions (by omega) (by simp only [Buf.size, Config.spshSize]; omega)
    (by simp only [Buf.size, Config.payloadSize]; omega)

/-! ## The transfer frame (R114, R231) -/

/-- The regions around the data field, by number (R114). -/
theorem overhead_unpackPH (c : CfgRegs) (b : List Byte) :
    overhead c (unpackPH c b)
      = c.phLen (selectorOf b) + c.izLen.toNat + (4 * getBits b 52 1 + 4 * c.fecfEn.toNat) := by
  obtain ⟨-, -, -, -, -, -, -, -, -, -, hflag, -⟩ := headerOnWire_unpackPH c b
  rw [overhead, unpackPH_fcLen_toNat, hflag, Nat.add_assoc]

/-- The data field of a received frame, as octets of FRAME (R114). -/
theorem inputField_eq_octets {s : State}
    (h : s.cfg.phLen (selectorOf (inputFrame s)) + s.cfg.izLen.toNat + inputFieldLength s ≤ s.frameLen.toNat) :
    inputField s
      = s.octets .frame (s.cfg.phLen (selectorOf (inputFrame s)) + s.cfg.izLen.toNat) (inputFieldLength s) :=
  inputFrame_drop_take s h

/-- A bit field of the data field lies in the frame behind header and insert zone (R12, R114). -/
theorem getBits_inputField {s : State} {off w : Nat} (h : off + w ≤ 8 * inputFieldLength s) :
    getBits (inputField s) off w
      = getBits (inputFrame s) (8 * (s.cfg.phLen (selectorOf (inputFrame s)) + s.cfg.izLen.toNat) + off) w := by
  rw [inputField, getBits_take _ _ _ _ h, getBits_drop]

/-- The state with the insert zone and the data field of a received frame stored (R210, R231). -/
def storeZoneAndField (s : State) (b : List Byte) (f : DataField) : State :=
  storeDataField (s.store .iz 0 ((b.drop (s.cfg.phLen (selectorOf b))).take s.cfg.izLen.toNat)) f

/-- The octets of a decoded frame are those of its stores, whatever header registers are written beside them. -/
theorem octets_storeFrame_eq (s : State) (n : Nat) (b : List Byte) (dl : Nat) (f : DataField) (c : Buf) (j k : Nat) :
    (storeFrame s n b dl f).octets c j k
      = (storeFecf (storeOcf (storeZoneAndField s b f) (unpackPH s.cfg b) b
          (s.cfg.phLen (selectorOf b) + s.cfg.izLen.toNat + dl)) b n).octets c j k := by
  apply State.octets_mem_congr <;> rfl

/-- The OCF and the FECF go to buffers of their own (R212, R217). -/
theorem octets_storeFrame {s : State} {n : Nat} {b : List Byte} {dl : Nat} {f : DataField} {c : Buf} {j k : Nat}
    (hc : c ≠ .ocf ∧ c ≠ .fecf) (hj : j + k ≤ c.size) :
    (storeFrame s n b dl f).octets c j k = (storeZoneAndField s b f).octets c j k := by
  rw [octets_storeFrame_eq, State.octets_storeFecf_other _ _ _ _ _ _ hc.2 hj,
    State.octets_storeOcf_other _ _ _ _ _ _ _ hc.1 hj]

/-- A decoded frame's data-field registers, as numbers (R231). -/
theorem storeFrame_registers (s : State) (n : Nat) (b : List Byte) {dl : Nat} {d : List Byte} {f : DataField}
    (h : parseDF dl d = some f) (hd : d.length = dl) (hdl : dl ≤ 131072) :
    (storeFrame s n b dl f).dfh.rule.toNat = getBits d 48 3
    ∧ (storeFrame s n b dl f).dfh.protoId.toNat = getBits d 51 5
    ∧ (storeFrame s n b dl f).dfh.fhp.toNat = (if dfhLen (getBits d 48 3) = 3 then getBits d 56 16 else 0)
    ∧ (storeFrame s n b dl f).dfhFhpPresent = (if dfhLen (getBits d 48 3) = 3 then 1 else 0)
    ∧ (storeFrame s n b dl f).payloadLen.toNat = dl - (22 + dfhLen (getBits d 48 3)) := by
  rw [storeFrame_dfh, storeFrame_dfhFhpPresent, storeFrame_payloadLen]
  exact storeDataField_registers s h hd hdl

/-- A decoded frame's data-field regions, where the data field lies in FRAME (R231). -/
theorem storeFrame_field_regions {s : State} (n : Nat) (b : List Byte) {i dl : Nat} {d : List Byte} {f : DataField}
    (h : parseDF dl d = some f) (hd : d = s.octets .frame i dl) (hdl : dl ≤ 131072) :
    (storeFrame s n b dl f).octets .sechdr 0 6 = s.octets .frame i 6
    ∧ (storeFrame s n b dl f).octets .payload 0 (dl - (22 + dfhLen (getBits d 48 3)))
        = s.octets .frame (i + 6 + dfhLen (getBits d 48 3)) (dl - (22 + dfhLen (getBits d 48 3)))
    ∧ (storeFrame s n b dl f).octets .sectrl 0 16 = s.octets .frame (i + dl - 16) 16 := by
  rw [octets_storeFrame (by decide) (by decide),
    octets_storeFrame (by decide) (by simp only [Buf.size, Config.payloadSize]; omega),
    octets_storeFrame (by decide) (by decide)]
  exact storeDataField_regions _ h hd hdl

section
variable {s : State} {b : List Byte} {f : DataField}

/-- The insert zone and the data field leave every other buffer as it is (R37). -/
theorem octets_storeZoneAndField_other (hiz : s.cfg.izLen.toNat ≤ 65535)
    (hfit : f.fitsBuffers) {c : Buf} {j k : Nat}
    (hc : c ≠ .iz ∧ c ≠ .sechdr ∧ c ≠ .payload ∧ c ≠ .sectrl) (hj : j + k ≤ c.size) :
    (storeZoneAndField s b f).octets c j k = s.octets c j k := by
  obtain ⟨h6, hpay, h16⟩ := hfit
  rw [storeZoneAndField, State.octets_storeDataField_other _ _ _ _ _ hc.2 h6 hpay h16 hj,
    State.octets_store_other _ _ _ _ _ hc.1 _ hj]
  simp only [List.length_take, Buf.size, Config.izSize]
  omega

/-- The data field leaves the insert zone in its buffer (R210). -/
theorem octets_storeZoneAndField_iz (hiz : s.cfg.izLen.toNat ≤ 65535)
    (hfit : f.fitsBuffers)
    (hb : s.cfg.phLen (selectorOf b) + s.cfg.izLen.toNat ≤ b.length) :
    (storeZoneAndField s b f).octets .iz 0 s.cfg.izLen.toNat
      = (b.drop (s.cfg.phLen (selectorOf b))).take s.cfg.izLen.toNat := by
  obtain ⟨h6, hpay, h16⟩ := hfit
  rw [storeZoneAndField, State.octets_storeDataField_other _ _ _ _ _ (by decide) h6 hpay h16
    (by simp only [Buf.size, Config.izSize]; omega)]
  exact State.octets_of_mem _ s.mem _ _ _ _ rfl (by rw [List.length_take, List.length_drop]; omega)

/-- The OCF buffer after a decode: the OCF where the frame carries one (R212). -/
theorem octets_storeFrame_ocf {n dl : Nat} (hiz : s.cfg.izLen.toNat ≤ 65535)
    (hfit : f.fitsBuffers)
    (hb : (unpackPH s.cfg b).ocfFlag = 1 → s.cfg.phLen (selectorOf b) + s.cfg.izLen.toNat + dl + 4 ≤ b.length) :
    (storeFrame s n b dl f).octets .ocf 0 4
      = if (unpackPH s.cfg b).ocfFlag = 1 then
          (b.drop (s.cfg.phLen (selectorOf b) + s.cfg.izLen.toNat + dl)).take 4
        else s.octets .ocf 0 4 := by
  rw [octets_storeFrame_eq, State.octets_storeFecf_other _ _ _ _ _ _ (by decide) (by decide),
    State.octets_storeOcf _ _ _ _ hb, octets_storeZoneAndField_other hiz hfit (by decide) (by decide)]

/-- The FECF buffer after a decode: the last four octets where the mission has an FECF (R217). -/
theorem octets_storeFrame_fecf {n dl : Nat} (hiz : s.cfg.izLen.toNat ≤ 65535)
    (hfit : f.fitsBuffers) (hn : 4 ≤ n)
    (hb : b.length = n) :
    (storeFrame s n b dl f).octets .fecf 0 4
      = if s.cfg.fecfEn = 1 then (b.drop (n - 4)).take 4 else s.octets .fecf 0 4 := by
  have hcfg : (storeOcf (storeZoneAndField s b f) (unpackPH s.cfg b) b
      (s.cfg.phLen (selectorOf b) + s.cfg.izLen.toNat + dl)).cfg = s.cfg := by simp [storeZoneAndField]
  rw [octets_storeFrame_eq, State.octets_storeFecf _ _ _ (fun _ => hn) hb, hcfg,
    State.octets_storeOcf_other _ _ _ _ _ _ _ (by decide) (by decide),
    octets_storeZoneAndField_other hiz hfit (by decide) (by decide)]

end

/-- A frame that passes every check of TF_DECODE and has room for its data field is stored (R231). -/
theorem tfDecode_commits {s : State} (hl : s.status.locked = true) (hmax : s.frameLen.toNat ≤ Config.frameSize)
    (hmin : 7 ≤ s.frameLen.toNat) (hph : s.cfg.phLen (selectorOf (inputFrame s)) ≤ s.frameLen.toNat)
    (hver : getBits (inputFrame s) 0 4 = s.cfg.version.toNat)
    (hspare : ¬(getBits (inputFrame s) 50 2 ≠ 0 ∧ s.cfg.strictSpare.toNat = 1))
    (htf : getBits (inputFrame s) 32 16 + 1 = s.frameLen.toNat)
    (hroom : overhead s.cfg (unpackPH s.cfg (inputFrame s)) + 22 + dfhLen (getBits (inputField s) 48 3)
      ≤ s.frameLen.toNat) :
    ∃ f, parseDF (inputFieldLength s) (inputField s) = some f
      ∧ effectOf .tfDecode s = .commit (storeFrame s s.frameLen.toNat (inputFrame s) (inputFieldLength s) f)
          (decide (getBits (inputFrame s) 50 2 ≠ 0)) := by
  obtain ⟨-, -, -, -, -, -, hlen, -⟩ := headerOnWire_unpackPH s.cfg (inputFrame s)
  have hfield : 22 + dfhLen (getBits (inputField s) 48 3) ≤ inputFieldLength s := by rw [inputFieldLength]; omega
  have hf := parseDF_eq_some.mpr ⟨by omega, hfield, rfl⟩
  exact ⟨_, hf, underLock_eq_commit.mpr ⟨hl, tfDecodeEffect_commit.mpr ⟨hmax, hmin, hph, unpackPH_tfvn_eq hver,
    rejectsSpare_unpackPH hspare, by rw [← hlen, htf], by omega, _, hf, rfl, (unpackPH_spare_bne _ _).symm⟩⟩⟩

/-- Settles O45: the data field lies between header and insert zone and the trailing regions, which are the frame's
last octets. -/
theorem frameDecodeSplitsRegions : Obligations.FrameDecodeSplitsRegions := by
  intro s hl hcfg hmax hmin b n ph df ends d hphn hver hspare htf hroom
  obtain ⟨-, -, -, -, hiz, hfe, -⟩ := hcfg
  have hwire : headerOnWire s.cfg b (unpackPH s.cfg b) := headerOnWire_unpackPH s.cfg b
  obtain ⟨-, -, -, -, -, -, -, -, -, -, hflag, -⟩ := id hwire
  have hb : (inputFrame s).length = n := State.length_octets _ _ _ _
  have hph : s.cfg.phLen (selectorOf (inputFrame s)) = ph := CfgRegs.phLen_eq _ _
  have hover : overhead s.cfg (unpackPH s.cfg (inputFrame s)) = df + ends := by rw [overhead_unpackPH, hph]
  have hdl : inputFieldLength s = n - (df + ends) := by rw [inputFieldLength, hover]
  have hfield : inputField s = s.octets .frame df (inputFieldLength s) := by
    rw [inputField_eq_octets (by rw [hph]; omega), hph]
  have hbits : ∀ off w, off + w ≤ 72 → getBits (inputField s) off w = getBits b (8 * df + off) w := by
    intro off w h
    rw [getBits_inputField (by omega), hph]
  have hrule : getBits (inputField s) 48 3 = getBits b (8 * (df + 6)) 3 := hbits 48 3 (by decide)
  have hdfh : dfhLen (getBits (inputField s) 48 3) = d := by rw [hrule, dfhLen_eq]
  obtain ⟨f, hf, heff⟩ := tfDecode_commits hl hmax hmin (by rwa [hph]) hver hspare htf (by rwa [hover, hdfh])
  have hfieldLen : (inputField s).length = inputFieldLength s := by rw [hfield, State.length_octets]
  have hfit := parseDF_fits hf hfieldLen (by omega)
  have hregs := storeFrame_registers s n (inputFrame s) hf hfieldLen (by omega)
  have hregions := storeFrame_field_regions n (inputFrame s) hf hfield (by omega)
  have hlen : inputFieldLength s - (22 + d) = n - (df + ends + 22 + d) := by omega
  have htrlAt : df + inputFieldLength s - 16 = n - ends - 16 := by omega
  have hocfAt : df + inputFieldLength s = n - ends := by omega
  rw [hdfh, hrule, hbits 51 5 (by decide), hbits 56 16 (by decide), hlen] at hregs
  rw [hdfh, hlen, htrlAt] at hregions
  obtain ⟨hruleReg, hidReg, hfhp, hpresent, hpayLen⟩ := hregs
  obtain ⟨hsec, hpay, htrl⟩ := hregions
  refine ⟨_, exec_of_commit heff, by simp [hl, okStatus, b], ?_⟩
  simp only [State.octets_complete_commit]
  refine ⟨?_, ?_, hsec, hruleReg, hidReg, hfhp, hpresent, hpayLen, ?_, htrl, ?_, ?_, ?_⟩
  · rw [complete_commit_hdr, storeFrame_hdr]
    exact hwire
  · rw [octets_storeFrame (by decide) (by simp only [Buf.size, Config.izSize]; omega),
      octets_storeZoneAndField_iz hiz hfit (by rw [hb, hph]; omega), hph, inputFrame_drop_take s (by omega)]
  · rwa [complete_commit_payloadLen, hpayLen]
  · rw [complete_commit_ocfValid, storeFrame_ocfValid]
    exact hflag.symm
  · have hflagIff : (unpackPH s.cfg (inputFrame s)).ocfFlag = 1 ↔ getBits b 52 1 = 1 := by
      rw [word_eq_one_iff, hflag]
    rw [octets_storeFrame_ocf hiz hfit fun h1 => by rw [hb, hph]; have := hflagIff.mp h1; omega, hph]
    by_cases h1 : getBits b 52 1 = 1
    · rw [if_pos (hflagIff.mpr h1), if_pos h1, hocfAt, inputFrame_drop_take s (by omega)]
    · rw [if_neg (mt hflagIff.mp h1), if_neg h1]
  · rw [octets_storeFrame_fecf hiz hfit (by omega) hb, inputFrame_drop_take s (by omega)]
    simp only [word_eq_one_iff]

end Sys2Proof.Machine
end

section
/-! SUPPORT. LOCK_CONFIG's three outcomes, one for each way its two checks can go (R140, R141), and the statement
about them. -/
namespace Sys2Proof.Machine

/-- A command whose effect raises fails with that error, and only STATUS differs (R302, R303). -/
theorem exec_of_raise {i : Instr} {s : State} {e : ErrorKind} (h : effectOf i s = .raise e) :
    exec i s = .next (s.failed e) := by
  rw [exec_eq, h]
  rfl

/-- The check for an earlier lock comes first, whatever the configuration is (R140). -/
theorem lockConfigEffect_of_locked {s : State} (hl : s.status.locked = true) :
    lockConfigEffect s = .raise .configuration :=
  raiseIf_pos hl

/-- CfgLegal() is the second check (R140, R141). -/
theorem lockConfigEffect_of_illegal {s : State} (hl : s.status.locked = false) (hc : ¬ legalRanges s.cfg) :
    lockConfigEffect s = .raise .fieldOverflow := by
  have hlegal : s.cfg.legal = false := Bool.eq_false_iff.mpr (mt (CfgRegs.legal_iff s.cfg).mp hc)
  exact (raiseIf_neg hl).trans (raiseIf_pos (by rw [hlegal]; rfl))

/-- With both checks passed the commit sets LOCKED and nothing else (R140). -/
theorem lockConfigEffect_of_legal {s : State} (hl : s.status.locked = false) (hc : legalRanges s.cfg) :
    lockConfigEffect s = .commit { s with status := { s.status with locked := true } } false :=
  lockConfigEffect_commit.mpr ⟨hl, (CfgRegs.legal_iff s.cfg).mpr hc, rfl, rfl⟩

/-- Settles O28: the two checks fail or pass as LOCKED and the nine ranges of R141 say. -/
theorem lockConfigFreezesLegalConfiguration : Obligations.LockConfigFreezesLegalConfiguration := fun _ =>
  ⟨fun hl => exec_of_raise (lockConfigEffect_of_locked hl),
   fun hl hc => exec_of_raise (lockConfigEffect_of_illegal hl hc),
   fun hl hc => exec_of_commit (i := .lockConfig) (lockConfigEffect_of_legal hl hc)⟩

end Sys2Proof.Machine
end

section
/-! SUPPORT. WRITE_FIELD and READ_FIELD undo each other, because PutBits and GetBits do (R152), and the code each of
them ends with (R306). -/
namespace Sys2Proof.Machine

/-! ## PutBits of what GetBits reads -/

/-- Writing a field the value it holds changes nothing (R12, R152). -/
theorem putBits_getBits_same (s : List Byte) (off w : Nat) (h : off + w ≤ 8 * s.length) :
    putBits s off w (getBits s off w) = s := by
  apply eq_of_wireBit_eq _ _ (length_putBits s off w _)
  intro k _
  rw [wireBit_putBits _ _ _ _ _ h]
  by_cases hin : off ≤ k ∧ k < off + w
  · have hplace : off + w - 1 - (off + w - 1 - k) = k := by omega
    rw [if_pos hin, testBit_getBits _ _ _ _ (by omega), hplace]
  · rw [if_neg hin]

/-- A field inside FRAME[0..FRAME_LEN) reads the same in any longer stretch of FRAME (R25). -/
theorem getBits_inputFrame (s : State) {off w n : Nat} (h : off + w ≤ 8 * s.frameLen.toNat)
    (hn : s.frameLen.toNat ≤ n) :
    getBits (inputFrame s) off w = getBits (s.octets .frame 0 n) off w := by
  rw [inputFrame, ← State.take_octets s .frame 0 n _ hn, getBits_take _ _ _ _ h]

/-- WRITE_FIELD's commit of the value READ_FIELD finds leaves every octet of FRAME as it was (R152). -/
theorem octet_putFrameBits_getBits (s : State) {off w k : Nat} (h : off + w ≤ 8 * s.frameLen.toNat)
    (hn : s.frameLen.toNat ≤ Buf.frame.size) (hk : k < Buf.frame.size) :
    (putFrameBits s off w (getBits (inputFrame s) off w)).octet .frame k = s.octet .frame k := by
  have hin : off + w ≤ 8 * Buf.frame.size := h.trans (Nat.mul_le_mul_left 8 hn)
  have hframe : (putFrameBits s off w (getBits (inputFrame s) off w)).octets .frame 0 Buf.frame.size
      = s.octets .frame 0 Buf.frame.size := by
    rw [octets_putFrameBits _ _ _ _ _ hin le_rfl, getBits_inputFrame s h hn,
      putBits_getBits_same _ _ _ (by rwa [State.length_octets])]
  calc (putFrameBits s off w (getBits (inputFrame s) off w)).octet .frame k
      = ((putFrameBits s off w (getBits (inputFrame s) off w)).octets .frame 0 Buf.frame.size).getD k 0 := by
        rw [State.getD_octets _ _ _ _ _ hk, Nat.zero_add]
    _ = s.octet .frame k := by rw [hframe, State.getD_octets _ _ _ _ _ hk, Nat.zero_add]

/-! ## The value FLD_VALUE holds -/

/-- What READ_FIELD finds fits the field's width, so the register pair holds it whole (R35, R151). -/
theorem FldRegs.value_getBits (f : FldRegs) (b : List Byte) {off w : Nat} (hw : w ≤ 64) :
    FldRegs.value { f with valueLo := pairLo (getBits b off w), valueHi := pairHi (getBits b off w) }
      = getBits b off w :=
  FldRegs.value_split f _ (Nat.lt_of_lt_of_le (getBits_lt _ _ _) (Nat.pow_le_pow_right (by omega) hw))

/-! ## Successful runs -/

/-- The lock check and the three checks both commands make pass (R150, R151, R304). -/
abbrev fieldChecksPass (s : State) : Prop :=
  s.status.locked = true ∧ s.fld.width.toNat ≤ 64 ∧ s.frameLen.toNat ≤ Config.frameSize
  ∧ s.fld.offset.toNat + s.fld.width.toNat ≤ 8 * s.frameLen.toNat

/-- The checks look at the lock, FRAME_LEN, the offset and the width alone. -/
theorem fieldChecksPass_congr {s v : State} (h : fieldChecksPass s) (hlock : v.status.locked = s.status.locked)
    (hlen : v.frameLen = s.frameLen) (hoff : v.fld.offset = s.fld.offset) (hwidth : v.fld.width = s.fld.width) :
    fieldChecksPass v := by
  rwa [fieldChecksPass, hlock, hlen, hoff, hwidth]

/-- WRITE_FIELD commits PutBits of a value that fits, when the checks pass (R150). -/
theorem effectOf_writeField_commit {s c : State} {nz : Bool} :
    effectOf .writeField s = .commit c nz
      ↔ fieldChecksPass s ∧ s.fld.value < 2 ^ s.fld.width.toNat
        ∧ c = putFrameBits s s.fld.offset.toNat s.fld.width.toNat s.fld.value ∧ nz = false := by
  rw [effectOf, underLock_eq_commit, writeFieldEffect_commit]
  simp only [fieldChecksPass, and_assoc]

/-- READ_FIELD on a state whose checks pass succeeds with GetBits of FRAME in FLD_VALUE (R151). -/
theorem exec_readField_ok {s : State} (h : fieldChecksPass s) :
    ∃ u, exec .readField s = .next u ∧ u.status.code = .ok
      ∧ u.fld.value = getBits (inputFrame s) s.fld.offset.toNat s.fld.width.toNat := by
  obtain ⟨hlock, hwidth, hlen, hbounds⟩ := h
  have heff := readFieldEffect_commit.mpr ⟨hwidth, hlen, hbounds, rfl, rfl⟩
  exact ⟨_, exec_of_commit (i := .readField) (underLock_eq_commit.mpr ⟨hlock, heff⟩), rfl,
    FldRegs.value_getBits s.fld _ hwidth⟩

/-- A READ_FIELD that succeeds passed its checks, and leaves the frame, the offset and the width with the value read
(R42, R151). -/
theorem exec_readField_ok_inversion {s t : State} (h : exec .readField s = .next t) (hok : t.status.code = .ok) :
    fieldChecksPass s ∧ t.holdsFrameOf s ∧ t.fld.offset = s.fld.offset ∧ t.fld.width = s.fld.width
      ∧ t.fld.value = getBits (inputFrame s) s.fld.offset.toNat s.fld.width.toNat
      ∧ ∀ k, t.octet .frame k = s.octet .frame k := by
  obtain ⟨c, nz, heff, rfl⟩ := exec_ok_inversion h hok
  obtain ⟨hlock, heff⟩ := underLock_eq_commit.mp heff
  obtain ⟨hwidth, hlen, hbounds, rfl, rfl⟩ := readFieldEffect_commit.mp heff
  exact ⟨⟨hlock, hwidth, hlen, hbounds⟩, State.holdsFrameOf_of_mem rfl rfl rfl rfl, rfl, rfl,
    FldRegs.value_getBits s.fld _ hwidth, fun _ => rfl⟩

/-- WRITE_FIELD of the value FRAME's field holds succeeds and leaves FRAME as it was (R152). -/
theorem exec_writeField_getBits {s : State} (h : fieldChecksPass s)
    (hvalue : s.fld.value = getBits (inputFrame s) s.fld.offset.toNat s.fld.width.toNat) :
    ∃ u, exec .writeField s = .next u ∧ u.status.code = .ok
      ∧ ∀ k, k < Buf.frame.size → u.octet .frame k = s.octet .frame k := by
  have hfits : s.fld.value < 2 ^ s.fld.width.toNat := hvalue ▸ getBits_lt _ _ _
  have heff := effectOf_writeField_commit.mpr ⟨h, hfits, rfl, rfl⟩
  obtain ⟨-, -, hlen, hbounds⟩ := h
  refine ⟨_, exec_of_commit heff, rfl, fun k hk => ?_⟩
  rw [hvalue]
  exact octet_putFrameBits_getBits s hbounds hlen hk

/-! ## The checks both commands make -/

/-- The three shared checks give the code when one of them fails, and what follows gives it otherwise (R306). -/
theorem code_checkFieldBounds (s : State) (k : Effect) :
    (checkFieldBounds s k).code
      = if 64 < s.fld.width.toNat then .err .range
        else if 131072 < s.frameLen.toNat then .err .range
        else if 8 * s.frameLen.toNat < s.fld.offset.toNat + s.fld.width.toNat then .err .range
        else k.code := by
  simp only [checkFieldBounds, Effect.code_raiseIf, decide_eq_true_iff]
  rfl

/-! ## The two statements -/

/-- Settles O33: GetBits of PutBits is the value put, and PutBits of the value got changes nothing. -/
theorem writeFieldReadFieldInverse : Obligations.WriteFieldReadFieldInverse := by
  intro s t
  constructor
  · intro hexec hok v ⟨hvlock, hvlen, hvframe⟩ hoff hwidth
    obtain ⟨c, nz, heff, rfl⟩ := exec_ok_inversion hexec hok
    obtain ⟨hpass, hfits, rfl, rfl⟩ := effectOf_writeField_commit.mp heff
    obtain ⟨u, hu, huok, hvalue⟩ := exec_readField_ok (fieldChecksPass_congr hpass hvlock hvlen hoff hwidth)
    obtain ⟨-, -, hlen, hbounds⟩ := hpass
    refine ⟨u, hu, huok, ?_⟩
    rw [hvalue, hvframe, hoff, hwidth, inputFrame_complete_commit, inputFrame_putFrameBits _ _ _ _ hbounds hlen,
      getBits_putBits_same _ _ _ _ (by simpa [inputFrame] using hbounds) hfits]
  · intro hexec hok w
    obtain ⟨hpass, ⟨hlock, hlen, hframe⟩, hoff, hwidth, hvalue, hoctet⟩ := exec_readField_ok_inversion hexec hok
    obtain ⟨-, -, haccept⟩ := State.accept_holdsFrameOf t w
    have hheld : (t.accept w).fld.value
        = getBits (inputFrame (t.accept w)) (t.accept w).fld.offset.toNat (t.accept w).fld.width.toNat := by
      rw [haccept, hframe, State.accept_fld, hoff, hwidth, hvalue]
    obtain ⟨u, hu, huok, hkeep⟩ :=
      exec_writeField_getBits (fieldChecksPass_congr hpass hlock hlen hoff hwidth : fieldChecksPass (t.accept w)) hheld
    exact ⟨u, hu, huok, fun k hk => (hkeep k hk).trans (hoctet k)⟩

/-- Settles O31: the shared checks in their order, and for WRITE_FIELD the value's fit after them. -/
theorem bitFieldCheckOrder : Obligations.BitFieldCheckOrder := by
  intro s hl
  constructor
  · obtain ⟨t, ht, hcode⟩ := exec_code .writeField s
    refine ⟨t, ht, ?_⟩
    rw [hcode, effectOf, underLock_locked hl, writeFieldEffect, code_checkFieldBounds]
    simp only [Effect.code_raiseIf, Effect.code_commit, decide_eq_true_iff]
  · obtain ⟨t, ht, hcode⟩ := exec_code .readField s
    refine ⟨t, ht, ?_⟩
    rw [hcode, effectOf, underLock_locked hl, readFieldEffect, code_checkFieldBounds, Effect.code_commit]

end Sys2Proof.Machine
end

section
/-! SUPPORT. PH_DECODE undoes PH_ENCODE, because UnpackPH undoes PackPH, in both modes of the frame count (R173, R174). -/
namespace Sys2Proof.Machine

/-- What PH_ENCODE asks of a header before it packs it (R170, R172). -/
abbrev headerChecksPass (c : CfgRegs) (h : HdrRegs) : Prop :=
  h.fixedFit = true ∧ h.countFits c = true ∧ h.tfvn = c.version ∧ c.rejectsSpare h.spare = false

/-- The seven octets up to the length selector are part of every header (R110, R111). -/
theorem CfgRegs.seven_le_phLen (c : CfgRegs) (k : Nat) : 7 ≤ c.phLen k := by
  rw [CfgRegs.phLen_eq]; split <;> omega

/-- The length selector has three bits (R110). -/
theorem HdrRegs.fcLen_le_seven {h : HdrRegs} (hfit : h.fixedFit = true) : h.fcLen.toNat ≤ 7 := by
  obtain ⟨-, -, -, -, -, -, -, -, -, -, -, hsel⟩ := (HdrRegs.fixedFit_iff _).mp hfit
  exact hsel

/-- UnpackPH undoes PackPH of fields that fit (R173). -/
theorem unpackPH_packPH {c : CfgRegs} {h : HdrRegs} (hfit : h.fixedFit = true) (hcount : h.countFits c = true) :
    unpackPH c (packPH c h) = h :=
  unpackPH_of_headerOnWire _ _ _ (headerOnWire_packPH c h hfit hcount)

/-- A PH_ENCODE that succeeds passed its checks, and FRAME[0..FRAME_LEN) is PackPH of the registers (R42, R170). -/
theorem exec_phEncode_ok_inversion {s t : State} (hexec : exec .phEncode s = .next t) (hok : t.status.code = .ok) :
    headerChecksPass s.cfg s.hdr ∧ t.status.locked = true ∧ t.cfg = s.cfg
      ∧ inputFrame t = packPH s.cfg s.hdr := by
  obtain ⟨c, nz, heff, rfl⟩ := exec_ok_inversion hexec hok
  obtain ⟨hlock, heff⟩ := underLock_eq_commit.mp heff
  obtain ⟨hfit, hcount, hver, hspare, rfl, rfl⟩ := phEncodeEffect_commit.mp heff
  have hlen := s.cfg.phLen_le _ (HdrRegs.fcLen_le_seven hfit)
  refine ⟨⟨hfit, hcount, hver, hspare⟩, hlock, rfl, ?_⟩
  rw [inputFrame_complete_commit]
  exact (State.holdsAt_of_mem (s := s) rfl).inputFrame_eq
    ((toNat_ofNat_of_lt (by omega)).trans (length_packPH _ _).symm)

/-- Where FRAME[0..FRAME_LEN) is PackPH of a good header, PH_DECODE succeeds and its registers are that header,
whatever they were before (R171). -/
theorem exec_phDecode_of_packPH {v : State} {h : HdrRegs} (hlock : v.status.locked = true)
    (hgood : headerChecksPass v.cfg h) (hframe : inputFrame v = packPH v.cfg h) :
    ∃ u, exec .phDecode v = .next u ∧ u.status.code = .ok ∧ u.hdr = h := by
  obtain ⟨hfit, hcount, hver, hspare⟩ := hgood
  have hunpack : unpackPH v.cfg (inputFrame v) = h := by rw [hframe, unpackPH_packPH hfit hcount]
  have hselector : selectorOf (inputFrame v) = h.fcLen.toNat := by rw [← unpackPH_fcLen_toNat v.cfg, hunpack]
  have hlen : v.frameLen.toNat = v.cfg.phLen h.fcLen.toNat := by
    rw [← length_packPH, ← hframe, inputFrame, State.length_octets]
  have hmin := v.cfg.seven_le_phLen h.fcLen.toNat
  have hmax : v.cfg.phLen h.fcLen.toNat ≤ Config.frameSize :=
    (v.cfg.phLen_le _ (HdrRegs.fcLen_le_seven hfit)).trans (by decide)
  have heff := phDecodeEffect_commit.mpr
    ⟨hlen ▸ hmax, hlen ▸ hmin, by rw [hselector, hlen], by rwa [hunpack], by rwa [hunpack], rfl, rfl⟩
  exact ⟨_, exec_of_commit (i := .phDecode) (underLock_eq_commit.mpr ⟨hlock, heff⟩), rfl, hunpack⟩

/-- Overwritten header registers and the accept of the next command leave the frame in place (R23). -/
theorem State.withHdr_accept_holdsFrameOf (t : State) (h : HdrRegs) (w : Word) :
    ({ t with hdr := h }.accept w).holdsFrameOf t :=
  State.holdsFrameOf_of_mem rfl rfl rfl rfl

/-- Settles O38: PH_DECODE looks at FRAME, FRAME_LEN, the lock and the configuration, which neither the overwritten
header registers nor the next command's accept touch. -/
theorem primaryHeaderRoundTrip : Obligations.PrimaryHeaderRoundTrip := by
  intro s t w h hexec hok
  obtain ⟨hgood, hlock, hcfg, hframe⟩ := exec_phEncode_ok_inversion hexec hok
  obtain ⟨hvlock, -, hvframe⟩ := State.withHdr_accept_holdsFrameOf t h w
  have hvcfg : ({ t with hdr := h }.accept w).cfg = s.cfg := hcfg
  exact exec_phDecode_of_packPH (hvlock.trans hlock) (by rwa [hvcfg]) (by rw [hvframe, hframe, hvcfg])

end Sys2Proof.Machine
end

section
/-! SUPPORT. DF_DECODE undoes DF_ENCODE, because ParseDF undoes the layout of the data field (R192, R193, R195), and the
code TF_DECODE ends with (R306). -/
namespace Sys2Proof.Machine

/-! ## The data field as ParseDF answers it -/

/-- What the data field of `s` is made of, an absent pointer read as 0 (R113, R192). -/
def packedField (s : State) : DataField where
  secHdr := s.octets .sechdr 0 6
  rule := s.dfh.rule.toNat
  protoId := s.dfh.protoId.toNat
  fhp := if s.dfh.rule.toNat ≤ 1 then s.dfh.fhp.toNat else 0
  payload := s.octets .payload 0 s.payloadLen.toNat
  secTrl := s.octets .sectrl 0 16

/-- ParseDF undoes the layout of a data field whose header fits (R192, R193). -/
theorem parseDF_dataFieldOctets {s : State} (hsel : s.dfh.selectorsFit = true) (hptr : s.dfh.pointerFits = true) :
    parseDF (dfLen s.dfh.rule.toNat s.payloadLen.toNat) (dataFieldOctets s) = some (packedField s) := by
  have h := parseDF_pack s.dfh (s.octets .sechdr 0 6) (s.octets .payload 0 s.payloadLen.toNat)
    (s.octets .sectrl 0 16) hsel hptr (State.length_octets _ _ _ _) (State.length_octets _ _ _ _)
  rwa [State.length_octets] at h

/-- Storing the data field of `s` gives its registers back, an absent pointer as 0 (R191). -/
theorem storeDataField_packedField_registers (v s : State) :
    (storeDataField v (packedField s)).dfh = { s.dfh with fhp := if s.dfh.rule.toNat ≤ 1 then s.dfh.fhp else 0 }
    ∧ (storeDataField v (packedField s)).dfhFhpPresent = flagWord (present s.dfh.rule.toNat)
    ∧ (storeDataField v (packedField s)).payloadLen = s.payloadLen := by
  refine ⟨?_, storeDataField_dfhFhpPresent _ _, ?_⟩
  · rw [storeDataField_dfh]
    by_cases hr : s.dfh.rule.toNat ≤ 1 <;> simp [packedField, hr]
  · simp [packedField]

/-- Storing the data field of `s` gives its regions back (R191). -/
theorem storeDataField_packedField_regions (v s : State) (hpay : s.payloadLen.toNat ≤ Config.payloadSize) :
    (storeDataField v (packedField s)).octets .sechdr 0 6 = s.octets .sechdr 0 6
    ∧ (storeDataField v (packedField s)).octets .payload 0 s.payloadLen.toNat
        = s.octets .payload 0 s.payloadLen.toNat
    ∧ (storeDataField v (packedField s)).octets .sectrl 0 16 = s.octets .sectrl 0 16 := by
  have h6 : (packedField s).secHdr.length = 6 := State.length_octets _ _ _ _
  have hlen : (packedField s).payload.length = s.payloadLen.toNat := State.length_octets _ _ _ _
  have h16 : (packedField s).secTrl.length = 16 := State.length_octets _ _ _ _
  have hsize : (packedField s).payload.length ≤ Buf.payload.size := hlen.trans_le hpay
  have hpayload := State.octets_storeDataField_payload v (packedField s) hsize h16
  rw [hlen] at hpayload
  exact ⟨State.octets_storeDataField_secHdr v _ h6 hsize h16, hpayload,
    State.octets_storeDataField_secTrl v _ h16⟩

/-! ## Successful runs -/

/-- A DF_ENCODE that succeeds passed its checks, and FRAME[0..FRAME_LEN) is the data field (R42, R190). -/
theorem exec_dfEncode_ok_inversion {s t : State} (hexec : exec .dfEncode s = .next t) (hok : t.status.code = .ok) :
    s.payloadLen.toNat ≤ Config.payloadSize ∧ s.dfh.selectorsFit = true ∧ s.dfh.pointerFits = true
      ∧ t.status.locked = true ∧ t.dfhFhpPresent = flagWord (present s.dfh.rule.toNat)
      ∧ t.frameLen.toNat = dfLen s.dfh.rule.toNat s.payloadLen.toNat ∧ t.frameLen.toNat ≤ Config.frameSize
      ∧ inputFrame t = dataFieldOctets s := by
  obtain ⟨c, nz, heff, rfl⟩ := exec_ok_inversion hexec hok
  obtain ⟨hlock, heff⟩ := underLock_eq_commit.mp heff
  obtain ⟨hpay, hsel, hptr, hsize, rfl, rfl⟩ := dfEncodeEffect_commit.mp heff
  have hlen : (BitVec.ofNat 32 (dfLen s.dfh.rule.toNat s.payloadLen.toNat)).toNat
      = dfLen s.dfh.rule.toNat s.payloadLen.toNat :=
    toNat_ofNat_of_lt (hsize.trans_lt (by decide))
  refine ⟨hpay, hsel, hptr, hlock, rfl, hlen, hlen.trans_le hsize, ?_⟩
  rw [inputFrame_complete_commit]
  exact (State.holdsAt_of_mem (s := s) rfl).inputFrame_eq (hlen.trans (length_dataFieldOctets s).symm)

/-- Where ParseDF answers, DF_DECODE succeeds with the answer in its registers and buffers (R191). -/
theorem exec_dfDecode_of_parseDF {v : State} {f : DataField} (hlock : v.status.locked = true)
    (hsize : v.frameLen.toNat ≤ Config.frameSize) (hf : parseDF v.frameLen.toNat (inputFrame v) = some f) :
    exec .dfDecode v = .next (complete v (.commit (storeDataField v f) false)) :=
  exec_of_commit (i := .dfDecode)
    (underLock_eq_commit.mpr ⟨hlock, dfDecodeEffect_commit.mpr ⟨hsize, f, hf, rfl, rfl⟩⟩)

/-- Settles O43: ParseDF of the frame answers the data field of the state before DF_ENCODE. -/
theorem dataFieldRoundTrip : Obligations.DataFieldRoundTrip := by
  rintro s t v hexec hok ⟨hvlock, hvlen, hvframe⟩
  obtain ⟨hpay, hsel, hptr, hlock, hpresent, hlen, hsize, hframe⟩ := exec_dfEncode_ok_inversion hexec hok
  have hf : parseDF v.frameLen.toNat (inputFrame v) = some (packedField s) := by
    rw [hvlen, hvframe, hlen, hframe, parseDF_dataFieldOctets hsel hptr]
  obtain ⟨hdfh, hfhp, hpayLen⟩ := storeDataField_packedField_registers v s
  obtain ⟨hsec, hpayload, htrl⟩ := storeDataField_packedField_regions v s hpay
  refine ⟨_, exec_dfDecode_of_parseDF (hvlock.trans hlock) (by rwa [hvlen]) hf, rfl, ?_⟩
  simp only [State.octets_complete_commit]
  rw [complete_commit_dfh, hdfh]
  exact ⟨rfl, rfl, rfl, hfhp.trans hpresent.symm, hpayLen, hsec, hpayload, htrl⟩

/-! ## The code of TF_DECODE -/

/-- The four header checks give the code when one of them fails, and what follows gives it otherwise (R171, R306). -/
theorem code_checkHeader (c : CfgRegs) (n : Nat) (b : List Byte) (k : Effect) :
    (checkHeader c n b k).code
      = if n < 7 then .err .truncatedData
        else if n < c.phLen (selectorOf b) then .err .truncatedData
        else if getBits b 0 4 ≠ c.version.toNat then .err .versionMismatch
        else if getBits b 50 2 ≠ 0 ∧ c.strictSpare.toNat = 1 then .err .spareNonzero
        else k.code := by
  simp only [checkHeader, Effect.code_raiseIf, decide_eq_true_iff, bne_iff_ne, CfgRegs.rejectsSpare_iff,
    unpackPH_tfvn_ne_iff, strictSpareHit_unpackPH_iff]

/-- ParseDF fails on the data field of a received frame when the frame ends before the selectors, or before the regions
they announce (R192, R231). -/
theorem parseDF_inputField_eq_none_iff {s : State}
    (h : overhead s.cfg (unpackPH s.cfg (inputFrame s)) ≤ s.frameLen.toNat) :
    parseDF (inputFieldLength s) (inputField s) = none
      ↔ s.frameLen.toNat < overhead s.cfg (unpackPH s.cfg (inputFrame s)) + 7
        ∨ s.frameLen.toNat < overhead s.cfg (unpackPH s.cfg (inputFrame s)) + 22
          + dfhLen (getBits (inputFrame s) (8 * (s.cfg.phLen (selectorOf (inputFrame s)) + s.cfg.izLen.toNat + 6)) 3) := by
  have hdl : inputFieldLength s = s.frameLen.toNat - overhead s.cfg (unpackPH s.cfg (inputFrame s)) := rfl
  rw [parseDF_eq_none_iff]
  by_cases h7 : inputFieldLength s < 7
  · exact iff_of_true (.inl h7) (.inl (by omega))
  · have hrule : getBits (inputField s) 48 3
        = getBits (inputFrame s) (8 * (s.cfg.phLen (selectorOf (inputFrame s)) + s.cfg.izLen.toNat + 6)) 3 :=
      getBits_inputField (by omega)
    rw [hrule]
    omega

/-- Settles O47: the checks in their order, ParseDF's two last, on a field the fixed regions leave room for. -/
theorem frameDecodeCheckOrder : Obligations.FrameDecodeCheckOrder := by
  intro s hl _ b n ph fixed d
  obtain ⟨-, -, -, -, -, -, hlen, -⟩ := headerOnWire_unpackPH s.cfg b
  have hph : s.cfg.phLen (selectorOf b) = ph := CfgRegs.phLen_eq _ _
  have hover : overhead s.cfg (unpackPH s.cfg b) = fixed := by rw [overhead_unpackPH, hph, ← Nat.add_assoc]
  have hdfh : dfhLen (getBits b (8 * (ph + s.cfg.izLen.toNat + 6)) 3) = d := dfhLen_eq _
  have hroom : (if n < fixed then StatusCode.err .underflow
        else if parseDF (inputFieldLength s) (inputField s) = none then .err .truncatedData else .ok)
      = if n < fixed then .err .underflow else if n < fixed + 7 then .err .truncatedData
        else if n < fixed + 22 + d then .err .truncatedData else .ok :=
    ite_congr rfl (fun _ => rfl) fun h => by
      have hfield := parseDF_inputField_eq_none_iff (hover.trans_le (not_lt.mp h))
      rw [hover, hph, hdfh] at hfield
      simp only [hfield, ite_or]
      rfl
  obtain ⟨t, ht, hcode⟩ := exec_code .tfDecode s
  refine ⟨t, ht, ?_⟩
  rw [hcode, effectOf, underLock_locked hl, tfDecodeEffect_eq, Effect.code_raiseIf, code_checkHeader,
    Effect.code_raiseIf, Effect.code_raiseIf, Effect.code_elim _ _ _ .ok fun f => rfl]
  simp only [decide_eq_true_iff, bne_iff_ne]
  rw [hph, hover, ← hlen, hroom]
  rfl

end Sys2Proof.Machine
end

section
/-! SUPPORT. The code TF_ENCODE ends with (R306), and its first check: the FECF collaborator asked for in a mission
without FECF (R216). -/
namespace Sys2Proof.Machine

/-- The bounds on the data-field header fail at one of its two checks (R33). -/
theorem not_dfhBounds_iff (d : DfhRegs) : ¬ dfhBounds d ↔ ¬ d.selectorsFit = true ∨ ¬ d.pointerFits = true := by
  rw [DfhRegs.selectorsFit_iff, DfhRegs.pointerFits_iff, ← not_and_or, and_assoc]

/-- Settles O46: the checks of TF_ENCODE in their order, each as a bound, the two of the data-field header as one. -/
theorem frameEncodeCheckOrder : Obligations.FrameEncodeCheckOrder := by
  intro h s hl hlegal
  obtain ⟨-, -, -, -, -, -, hmode, -⟩ := hlegal
  have hocf : fits 1 s.ocfValid = true ↔ s.ocfValid.toNat ≤ 1 := by rw [fits_iff]; omega
  have hlong : 65535 < frameLength s - 1 ↔ 65536 < layoutLength s := by rw [frameLength_eq_layoutLength]; omega
  obtain ⟨t, ht, hcode⟩ := exec_code (.tfEncode h) s
  refine ⟨t, ht, ?_⟩
  rw [hcode, effectOf, underLock_locked hl, tfEncodeEffect]
  simp only [Effect.code_raiseIf, Effect.code_commit, decide_eq_true_iff, Bool.not_eq_true', ← Bool.not_eq_true,
    Bool.and_eq_true, beq_iff_eq, word_eq_zero_iff, HdrRegs.perFrameFit_iff, hocf, HdrRegs.countFits_iff _ _ hmode,
    not_dfhBounds_iff, ite_or, bne_iff_ne, CfgRegs.rejectsSpare_iff, hlong]
  rfl

/-- A hook without FECF fails under the lock check or at TF_ENCODE's own first check, which raise the same error
(R216, R304). -/
theorem effectOf_tfEncode_of_hook_without_fecf {s : State} (hfecf : s.cfg.fecfEn.toNat = 0) :
    effectOf (.tfEncode true) s = .raise .configuration := by
  cases hl : s.status.locked with
  | false => rw [effectOf, underLock, hl]; rfl
  | true =>
    rw [effectOf, underLock_locked hl]
    exact raiseIf_pos (by rw [Bool.true_and, beq_iff_eq, word_eq_zero_iff, hfecf])

/-- Settles O52: TF_ENCODE raises ConfigurationError with the lock and without it. -/
theorem hookWithoutFecfIsConfigurationError : Obligations.HookWithoutFecfIsConfigurationError := fun _ hfecf =>
  exec_of_raise (effectOf_tfEncode_of_hook_without_fecf hfecf)

end Sys2Proof.Machine
end

section
/-! SUPPORT. TF_DECODE undoes TF_ENCODE, because the header, the data field and the regions around them each read back
from the frame that carries them (R173, R192, R210 to R217, R234), and what follows for the length of the frame and of
its payload (R233, R235). -/
namespace Sys2Proof.Machine

/-! ## The frame's length (R114, R235) -/

/-- The regions around the data field and the data field make up the frame (R114, R231). -/
theorem overhead_frameHeader_add (s : State) :
    overhead s.cfg (frameHeader s) + dfLen s.dfh.rule.toNat s.payloadLen.toNat = frameLength s := by
  simp only [overhead, frameHeader, frameLength]
  omega

/-- The TFLength of a frame is one less than the frame, which is never empty (R230, R233). -/
theorem frameHeader_tfLength_add_one {s : State} (hL : frameLength s ≤ 65536) :
    (frameHeader s).tfLength.toNat + 1 = frameLength s := by
  have hpos : 22 ≤ frameLength s := by rw [frameLength, dfLen]; omega
  have htf : (frameHeader s).tfLength.toNat = frameLength s - 1 := toNat_ofNat_of_lt (by omega)
  omega

/-- With everything else good, the frame's length alone decides the code (R230, R235). -/
theorem exec_tfEncode_code_of_good {h : Bool} {s : State} (hgood : frameInputsGood h s) :
    ∃ t, exec (.tfEncode h) s = .next t
      ∧ t.status.code = if 65536 < layoutLength s then .err .fieldOverflow else .ok := by
  obtain ⟨hl, hlegal, hhook, hpay, hper, hvalid, hcount, hdfh, hspare⟩ := hgood
  obtain ⟨-, -, -, -, -, hflag, -⟩ := id hper
  obtain ⟨t, ht, hcode⟩ := frameEncodeCheckOrder h s hl hlegal
  refine ⟨t, ht, ?_⟩
  rw [hcode, if_neg fun ⟨h1, h0⟩ => by have := hhook h1; omega, if_neg (by omega),
    if_neg (not_not.mpr ⟨hper, hvalid ▸ hflag⟩), if_neg (not_not.mpr hcount), if_neg (not_not.mpr hdfh),
    if_neg (not_not.mpr hvalid.symm), if_neg hspare]

/-- Settles O51: the layout's length is the payload and the fixed regions, in the case of 65502 octets 34 of them. -/
theorem framePayloadBound : Obligations.FramePayloadBound := by
  intro h s hgood fixed
  have hlen : layoutLength s = s.payloadLen.toNat + fixed := by rw [layoutLength]; omega
  obtain ⟨t, ht, hcode⟩ := exec_tfEncode_code_of_good hgood
  rw [hlen] at hcode
  refine ⟨t, ht, fun hfits => by rw [hcode, if_neg (by omega)], fun hover => by rw [hcode, if_pos hover],
    fun hmode hiz hrule hflag hfecf => ?_⟩
  have hfixed : fixed = 34 := by
    simp only [fixed, hmode, hiz, hflag, hfecf, if_neg (by omega : ¬ s.dfh.rule.toNat ≤ 1)]
    rfl
  rw [hcode, hfixed, ← ite_not]
  exact if_congr (by omega) rfl rfl

/-! ## What a successful TF_ENCODE leaves (R230, R236) -/

/-- The state TF_ENCODE commits (R230). -/
def encodedFrame (s : State) (h : Bool) : State :=
  { storeHookValue (s.store .frame 0 (frameOctets s h)) h (fecfRegion s h) with
    frameLen := BitVec.ofNat 32 (frameLength s)
    hdr := frameHeader s
    dfhFhpPresent := flagWord (present s.dfh.rule.toNat) }

@[simp] theorem encodedFrame_payloadLen (s : State) (h : Bool) : (encodedFrame s h).payloadLen = s.payloadLen :=
  storeHookValue_payloadLen _ h _
@[simp] theorem encodedFrame_cfg (s : State) (h : Bool) : (encodedFrame s h).cfg = s.cfg := storeHookValue_cfg _ h _
@[simp] theorem encodedFrame_dfh (s : State) (h : Bool) : (encodedFrame s h).dfh = s.dfh := storeHookValue_dfh _ h _
@[simp] theorem encodedFrame_hdr (s : State) (h : Bool) : (encodedFrame s h).hdr = frameHeader s := rfl
@[simp] theorem encodedFrame_status (s : State) (h : Bool) : (encodedFrame s h).status = s.status :=
  storeHookValue_status _ h _

/-- A TF_ENCODE that succeeds completes in its commit, with a frame TFLength can count (R230). -/
theorem exec_tfEncode_ok_inversion {h : Bool} {s t : State} (hexec : exec (.tfEncode h) s = .next t)
    (hok : t.status.code = .ok) :
    s.hdr.ocfFlag.toNat ≤ 1 ∧ frameLength s ≤ 65536 ∧ ∃ nz, t = complete s (.commit (encodedFrame s h) nz) := by
  obtain ⟨c, nz, heff, rfl⟩ := exec_ok_inversion hexec hok
  obtain ⟨-, -, -, hfit, -, -, -, -, -, -, hL, rfl, -⟩ := commit_under_lock tfEncodeEffect_commit heff
  obtain ⟨-, -, -, -, -, hflag, -⟩ := (HdrRegs.perFrameFit_iff _).mp hfit
  exact ⟨hflag, by omega, nz, rfl⟩

/-- Under a legal configuration a TF_ENCODE that succeeds found every input good (R230, R306). -/
theorem frameInputsGood_of_exec_ok {h : Bool} {s t : State} (hlegal : s.cfg.legal = true)
    (hexec : exec (.tfEncode h) s = .next t) (hok : t.status.code = .ok) : frameInputsGood h s := by
  obtain ⟨c, nz, heff, rfl⟩ := exec_ok_inversion hexec hok
  obtain ⟨hl, hhook, hpay, hper, -, hcount, hsel, hptr, hvalid, hspare, -⟩ :=
    commit_under_lock tfEncodeEffect_commit heff
  have hcfg := (CfgRegs.legal_iff _).mp hlegal
  obtain ⟨-, -, -, -, -, hfe, hmode, -⟩ := id hcfg
  obtain ⟨hrule, hid⟩ := (DfhRegs.selectorsFit_iff _).mp hsel
  have hfecf : h = true → s.cfg.fecfEn.toNat = 1 := fun h1 => by
    have := mt (word_eq_zero_iff _).mpr (hhook h1)
    omega
  exact ⟨hl, hcfg, hfecf, hpay, (HdrRegs.perFrameFit_iff _).mp hper, hvalid.symm,
    (HdrRegs.countFits_iff _ _ hmode).mp hcount, ⟨hrule, hid, (DfhRegs.pointerFits_iff _).mp hptr⟩,
    (CfgRegs.rejectsSpare_eq_false_iff _ _).mp hspare⟩

/-- With H = 1 the FECF buffer takes the value; otherwise it stays (R214). -/
theorem octets_storeHookValue_fecf (s : State) (h : Bool) {f : List Byte} (hf : f.length = 4) :
    (storeHookValue s h f).octets .fecf 0 4 = if h then f else s.octets .fecf 0 4 := by
  cases h with
  | false => rfl
  | true => exact State.octets_of_mem _ s.mem _ _ _ _ rfl hf.symm

/-- Every other buffer stays, with either H (R37, R214). -/
theorem octets_storeHookValue_other (s : State) (h : Bool) {f : List Byte} (hf : f.length = 4) {c : Buf} {j n : Nat}
    (hc : c ≠ .fecf) (hj : j + n ≤ c.size) : (storeHookValue s h f).octets c j n = s.octets c j n := by
  cases h with
  | false => rfl
  | true => exact State.octets_store_other _ _ _ _ _ hc (by rw [hf]; decide) hj

section
variable {s : State} (h : Bool) (hflag : s.hdr.ocfFlag.toNat ≤ 1) (hL : frameLength s ≤ 65536)
include hflag hL

theorem length_frameOctets_le_size : (frameOctets s h).length ≤ Buf.frame.size :=
  (length_frameOctets_le s h hflag).trans (hL.trans (by decide))

/-- FRAME holds the frame (R230). -/
theorem encodedFrame_holdsAt : (encodedFrame s h).holdsAt .frame 0 (frameOctets s h) :=
  (holdsAt_storeHookValue h (length_frameOctets_le_size h hflag hL) (length_fecfRegion s h).le).congr rfl rfl

/-- TF_ENCODE leaves OCF unchanged (R230). -/
theorem encodedFrame_ocf : (encodedFrame s h).octets .ocf 0 4 = s.octets .ocf 0 4 :=
  calc (encodedFrame s h).octets .ocf 0 4
      = (storeHookValue (s.store .frame 0 (frameOctets s h)) h (fecfRegion s h)).octets .ocf 0 4 :=
        State.octets_mem_congr rfl rfl _ _ _
    _ = (s.store .frame 0 (frameOctets s h)).octets .ocf 0 4 :=
        octets_storeHookValue_other _ h (length_fecfRegion s h) (by decide) (by decide)
    _ = s.octets .ocf 0 4 :=
        State.octets_store_other _ _ _ _ _ (by decide)
          (by simpa using length_frameOctets_le_size h hflag hL) (by decide)

/-- The FECF buffer holds the FECF the frame is given, with either H (R214). -/
theorem encodedFrame_fecf : (encodedFrame s h).octets .fecf 0 4 = fecfRegion s h :=
  calc (encodedFrame s h).octets .fecf 0 4
      = (storeHookValue (s.store .frame 0 (frameOctets s h)) h (fecfRegion s h)).octets .fecf 0 4 :=
        State.octets_mem_congr rfl rfl _ _ _
    _ = if h then fecfRegion s h else (s.store .frame 0 (frameOctets s h)).octets .fecf 0 4 :=
        octets_storeHookValue_fecf _ h (length_fecfRegion s h)
    _ = fecfRegion s h := by
        rw [State.octets_store_other _ _ _ _ _ (by decide) (by simpa using length_frameOctets_le_size h hflag hL)
          (by decide)]
        cases h <;> rfl

end

/-! ## A state that carries the frame (R234) -/

/-- FRAME, FRAME_LEN and the configuration of `v` are those TF_ENCODE leaves when it succeeds in `s` (R230). -/
structure State.carriesFrame (v s : State) (h : Bool) : Prop where
  cfg : v.cfg = s.cfg
  frameLen : v.frameLen.toNat = frameLength s
  frame : v.holdsAt .frame 0 (frameOctets s h)

/-- A TF_ENCODE that succeeds leaves its frame (R230). -/
theorem carriesFrame_encodedFrame {s : State} {h : Bool} (hflag : s.hdr.ocfFlag.toNat ≤ 1)
    (hL : frameLength s ≤ 65536) (nz : Bool) : (complete s (.commit (encodedFrame s h) nz)).carriesFrame s h where
  cfg := encodedFrame_cfg s h
  frameLen := toNat_ofNat_of_lt (by omega)
  frame := (encodedFrame_holdsAt h hflag hL).congr rfl rfl

/-- Whatever else is overwritten, the frame is still carried (R234). -/
theorem State.carriesFrame.of_holdsFrameOf {s t v : State} {h : Bool} (ht : t.carriesFrame s h)
    (hflag : s.hdr.ocfFlag.toNat ≤ 1) (hv : v.holdsFrameOf t) (hcfg : v.cfg = t.cfg) : v.carriesFrame s h where
  cfg := hcfg.trans ht.cfg
  frameLen := by
    obtain ⟨-, hlen, -⟩ := hv
    rw [hlen, ht.frameLen]
  frame := (hv.octets (by rw [Nat.zero_add, ht.frameLen]; exact length_frameOctets_le s h hflag)).trans ht.frame

/-- A field inside what FRAME holds reads as it does there (R12, R25). -/
theorem State.holdsAt.getBits_inputFrame {t : State} {vs : List Byte} (h : t.holdsAt .frame 0 vs)
    (hn : vs.length ≤ t.frameLen.toNat) {off w : Nat} (hw : off + w ≤ 8 * vs.length) :
    getBits (inputFrame t) off w = getBits vs off w := by
  rw [← getBits_take _ vs.length _ _ hw, inputFrame, State.take_octets _ _ _ _ _ hn, h]

/-- A TFLength of 16 bits reads back, whatever the other registers hold (R110, R153). -/
theorem getBits_packPH_tfLength (c : CfgRegs) (h : HdrRegs) (hfit : h.tfLength.toNat < 2 ^ 16) :
    getBits (packPH c h) 32 16 = h.tfLength.toNat :=
  getBits_placeFields _ _ (phFields_within c h) (phFields_apart c h) ⟨32, 16, h.tfLength.toNat⟩
    (by simp [phFields]) hfit

/-- Whatever the configuration, the frame begins with its header (R114). -/
theorem State.carriesFrame.header {v s : State} {h : Bool} (hv : v.carriesFrame s h) :
    v.holdsAt .frame 0 (packPH s.cfg (frameHeader s)) := by
  obtain ⟨hbody, -⟩ := State.holdsAt_append.mp hv.frame
  obtain ⟨hfield, -⟩ := State.holdsAt_append.mp hbody
  obtain ⟨hzone, -⟩ := State.holdsAt_append.mp hfield
  exact (State.holdsAt_append.mp hzone).1

/-- Settles O50: TFLength stands in the header whole, and L is the sum of the regions. -/
theorem frameLengthLaw : Obligations.FrameLengthLaw := by
  intro h s t hexec hok
  obtain ⟨hflag, hL, nz, rfl⟩ := exec_tfEncode_ok_inversion hexec hok
  have hcarries := carriesFrame_encodedFrame (h := h) hflag hL nz
  have htf := frameHeader_tfLength_add_one hL
  have hsum := overhead_frameHeader_add s
  have hpack : (packPH s.cfg (frameHeader s)).length = s.cfg.phLen s.hdr.fcLen.toNat := length_packPH _ _
  have hseven := s.cfg.seven_le_phLen s.hdr.fcLen.toNat
  have hphLen : s.cfg.phLen s.hdr.fcLen.toNat ≤ frameLength s := by simp only [frameLength]; omega
  rw [hcarries.frameLen, hcarries.header.getBits_inputFrame (by rw [hpack, hcarries.frameLen]; exact hphLen) (by omega),
    getBits_packPH_tfLength _ _ (by omega)]
  simp only [complete_commit_payloadLen, complete_commit_cfg, complete_commit_hdr, complete_commit_dfh,
    encodedFrame_payloadLen, encodedFrame_cfg, encodedFrame_hdr, encodedFrame_dfh]
  refine ⟨htf, htf, ?_⟩
  rw [htf, ← hsum, overhead, dfLen]
  omega

/-! ## TF_DECODE of a carried frame (R231, R234) -/

/-- The state TF_DECODE commits when the data field it finds is the one of `s` (R231). -/
def decodedFrame (v s : State) : State :=
  storeFrame v v.frameLen.toNat (inputFrame v) (inputFieldLength v) (packedField s)

theorem packedField_fitsBuffers {s : State} (hpay : s.payloadLen.toNat ≤ Config.payloadSize) :
    (packedField s).fitsBuffers :=
  ⟨State.length_octets _ _ _ _, (State.length_octets _ _ _ _).trans_le hpay, State.length_octets _ _ _ _⟩

/-- The regions of the data field are given back (R191, R231). -/
theorem decodedFrame_field_regions (v : State) {s : State} (hpay : s.payloadLen.toNat ≤ Config.payloadSize) :
    (decodedFrame v s).octets .sechdr 0 6 = s.octets .sechdr 0 6
    ∧ (decodedFrame v s).octets .payload 0 s.payloadLen.toNat = s.octets .payload 0 s.payloadLen.toNat
    ∧ (decodedFrame v s).octets .sectrl 0 16 = s.octets .sectrl 0 16 := by
  rw [decodedFrame, octets_storeFrame (by decide) (by decide),
    octets_storeFrame (by decide) (by simpa [Buf.size] using hpay), octets_storeFrame (by decide) (by decide)]
  exact storeDataField_packedField_regions _ s hpay

section
variable {v s : State} {h : Bool} (hgood : frameInputsGood h s) (hL : frameLength s ≤ 65536)
  (hv : v.carriesFrame s h)
include hv

/-- The regions of the frame, where the decoder looks for them (R114). -/
theorem State.carriesFrame.regions :
    v.octets .frame (s.cfg.phLen s.hdr.fcLen.toNat) s.cfg.izLen.toNat = s.octets .iz 0 s.cfg.izLen.toNat
    ∧ v.holdsAt .frame (s.cfg.phLen s.hdr.fcLen.toNat + s.cfg.izLen.toNat) (dataFieldOctets s)
    ∧ v.holdsAt .frame (s.cfg.phLen s.hdr.fcLen.toNat + s.cfg.izLen.toNat
        + dfLen s.dfh.rule.toNat s.payloadLen.toNat) (ocfRegion s) :=
  frameBody_regions (State.holdsAt_append.mp hv.frame).1

include hgood

/-- The FECF of the frame is its last four octets (R114, R217). -/
theorem State.carriesFrame.fecf (hfecf : s.cfg.fecfEn = 1) :
    v.octets .frame (v.frameLen.toNat - 4) 4 = fecfRegion s h := by
  obtain ⟨-, -, -, -, ⟨-, -, -, -, -, hflag, -⟩, -⟩ := hgood
  obtain ⟨-, hat⟩ := State.holdsAt_append.mp hv.frame
  have hlen := length_frameBody s hflag
  rw [(word_eq_one_iff _).mp hfecf] at hlen
  have hstart : 0 + (frameBody s).length = v.frameLen.toNat - 4 := by rw [hv.frameLen]; omega
  rwa [if_pos hfecf, hstart, State.holdsAt, length_fecfRegion] at hat

/-- What the decoder is given is the frame, whole (R25). -/
theorem State.carriesFrame.inputFrame_eq : inputFrame v = frameOctets s h := by
  obtain ⟨-, ⟨-, -, -, -, -, hfe, -⟩, -, -, ⟨-, -, -, -, -, hflag, -⟩, -⟩ := hgood
  exact hv.frame.inputFrame_eq (hv.frameLen.trans (length_frameOctets s h hflag hfe).symm)

include hL

/-- The decoder finds the header TF_ENCODE built (R173, R236). -/
theorem State.carriesFrame.unpackPH_eq : unpackPH v.cfg (inputFrame v) = frameHeader s := by
  obtain ⟨-, hcfg, -, -, hper, -, hcount, -⟩ := id hgood
  obtain ⟨-, -, -, -, -, -, hmode, -⟩ := id hcfg
  have hfit := fixedFit_frameHeader hcfg hper hL
  have hfits : (frameHeader s).countFits s.cfg = true := (HdrRegs.countFits_iff s.hdr _ hmode).mpr hcount
  rw [hv.inputFrame_eq hgood, hv.cfg, frameOctets, frameBody, List.append_assoc, List.append_assoc,
    List.append_assoc]
  exact unpackPH_of_headerOnWire _ _ _
    (headerOnWire_append _ _ _ _ (by rw [length_packPH]) (headerOnWire_packPH _ _ hfit hfits))

/-- So the decoder looks for the insert zone where TF_ENCODE put it (R111, R171). -/
theorem State.carriesFrame.phLen_eq : v.cfg.phLen (selectorOf (inputFrame v)) = s.cfg.phLen s.hdr.fcLen.toNat := by
  rw [← unpackPH_fcLen_toNat v.cfg, hv.unpackPH_eq hgood hL, hv.cfg]
  rfl

/-- It takes the fixed regions off the frame and is left with the data field's length (R231). -/
theorem State.carriesFrame.inputFieldLength_eq :
    inputFieldLength v = dfLen s.dfh.rule.toNat s.payloadLen.toNat := by
  have hsum := overhead_frameHeader_add s
  rw [inputFieldLength, hv.unpackPH_eq hgood hL, hv.cfg, hv.frameLen]
  omega

/-- The data field it then parses is the one TF_ENCODE placed (R114, R231). -/
theorem State.carriesFrame.inputField_eq : inputField v = dataFieldOctets s := by
  obtain ⟨-, hfield, -⟩ := hv.regions
  have hlen := hv.frameLen
  rw [frameLength] at hlen
  have hroom : s.cfg.phLen s.hdr.fcLen.toNat + s.cfg.izLen.toNat + dfLen s.dfh.rule.toNat s.payloadLen.toNat
      ≤ v.frameLen.toNat := by omega
  have hdl := hv.inputFieldLength_eq hgood hL
  have hph := hv.phLen_eq hgood hL
  rw [inputField_eq_octets (by rwa [hph, hv.cfg, hdl]), hph, hv.cfg, hdl, ← length_dataFieldOctets s]
  exact hfield

/-- Every check of TF_DECODE passes, and the data field goes to its registers and buffers (R231). -/
theorem State.carriesFrame.effectOf_tfDecode (hl : v.status.locked = true) :
    effectOf .tfDecode v = .commit (decodedFrame v s) (s.hdr.spare != 0) := by
  have hunpack := hv.unpackPH_eq hgood hL
  have hph := hv.phLen_eq hgood hL
  have hfield := hv.inputField_eq hgood hL
  have hdl := hv.inputFieldLength_eq hgood hL
  have hlen := hv.frameLen
  have hsum := overhead_frameHeader_add s
  have hover : s.cfg.phLen s.hdr.fcLen.toNat ≤ overhead s.cfg (frameHeader s) := by
    simp only [overhead, frameHeader]; omega
  have hseven := s.cfg.seven_le_phLen s.hdr.fcLen.toNat
  obtain ⟨-, -, -, -, -, -, -, ⟨hrule, hid, hptr⟩, hspare⟩ := hgood
  have hparse : parseDF (inputFieldLength v) (inputField v) = some (packedField s) := by
    rw [hfield, hdl]
    exact parseDF_dataFieldOctets ((DfhRegs.selectorsFit_iff _).mpr ⟨hrule, hid⟩)
      ((DfhRegs.pointerFits_iff _).mpr hptr)
  refine underLock_eq_commit.mpr ⟨hl, tfDecodeEffect_commit.mpr ?_⟩
  rw [hunpack, hph, hv.cfg]
  exact ⟨hlen.trans_le (hL.trans (by decide)), by omega, by omega, rfl,
    (CfgRegs.rejectsSpare_eq_false_iff _ _).mpr hspare, (frameHeader_tfLength_add_one hL).trans hlen.symm, by omega, _,
    hparse, rfl, rfl⟩

/-! ### What the decoder's state holds -/

/-- The registers of a decoded frame are those it was made from, an absent pointer as 0 (R231, R236). -/
theorem State.carriesFrame.decodedFrame_registers :
    (decodedFrame v s).hdr = frameHeader s
    ∧ (decodedFrame v s).dfh = { s.dfh with fhp := if s.dfh.rule.toNat ≤ 1 then s.dfh.fhp else 0 }
    ∧ (decodedFrame v s).dfhFhpPresent = flagWord (present s.dfh.rule.toNat)
    ∧ (decodedFrame v s).payloadLen = s.payloadLen
    ∧ (decodedFrame v s).ocfValid = (frameHeader s).ocfFlag := by
  obtain ⟨hdfh, hpresent, hpayLen⟩ := storeDataField_packedField_registers v s
  have hunpack := hv.unpackPH_eq hgood hL
  rw [decodedFrame, storeFrame_hdr, storeFrame_dfh, storeFrame_dfhFhpPresent, storeFrame_payloadLen,
    storeFrame_ocfValid]
  exact ⟨hunpack, hdfh, hpresent, hpayLen, congrArg HdrRegs.ocfFlag hunpack⟩

/-- The insert zone is given back (R210). -/
theorem State.carriesFrame.decodedFrame_iz :
    (decodedFrame v s).octets .iz 0 s.cfg.izLen.toNat = s.octets .iz 0 s.cfg.izLen.toNat := by
  obtain ⟨hzone, -, -⟩ := hv.regions
  have hph := hv.phLen_eq hgood hL
  have hlen := hv.frameLen
  rw [frameLength] at hlen
  have hroom : s.cfg.phLen s.hdr.fcLen.toNat + s.cfg.izLen.toNat ≤ v.frameLen.toNat := by omega
  obtain ⟨-, ⟨-, -, -, -, hiz, -⟩, -, hpay, -⟩ := hgood
  have hstored := octets_storeZoneAndField_iz (s := v) (b := inputFrame v) (by rwa [hv.cfg])
    (packedField_fitsBuffers hpay) (by rwa [hph, hv.cfg, inputFrame, State.length_octets])
  rw [hph, hv.cfg, inputFrame_drop_take v hroom, hzone] at hstored
  rwa [decodedFrame, octets_storeFrame (by decide) (by simp only [Buf.size, Config.izSize]; omega)]

/-- The OCF is given back where the frame carries one (R212). -/
theorem State.carriesFrame.decodedFrame_ocf :
    (decodedFrame v s).octets .ocf 0 4
      = if s.hdr.ocfFlag = 1 then s.octets .ocf 0 4 else v.octets .ocf 0 4 := by
  obtain ⟨-, -, hocf⟩ := hv.regions
  have hunpack := hv.unpackPH_eq hgood hL
  have hph := hv.phLen_eq hgood hL
  have hdl := hv.inputFieldLength_eq hgood hL
  have hlen := hv.frameLen
  rw [frameLength] at hlen
  have hroom : (frameHeader s).ocfFlag = 1 → s.cfg.phLen s.hdr.fcLen.toNat + s.cfg.izLen.toNat
      + dfLen s.dfh.rule.toNat s.payloadLen.toNat + 4 ≤ v.frameLen.toNat := fun hone => by
    have hflag : s.hdr.ocfFlag.toNat = 1 := (word_eq_one_iff _).mp hone
    omega
  obtain ⟨-, ⟨-, -, -, -, hiz, -⟩, -, hpay, -⟩ := hgood
  rw [decodedFrame, octets_storeFrame_ocf (by rwa [hv.cfg]) (packedField_fitsBuffers hpay)
    (by rwa [hunpack, hph, hv.cfg, hdl, inputFrame, State.length_octets]), hunpack, hph, hv.cfg, hdl]
  refine ite_congr rfl (fun hone => ?_) fun _ => rfl
  rw [inputFrame_drop_take v (hroom hone)]
  rwa [ocfRegion, if_pos hone, State.holdsAt_octets] at hocf

omit hL in
/-- The FECF buffer takes the frame's last four octets where the mission has an FECF (R217). -/
theorem State.carriesFrame.decodedFrame_fecf :
    (decodedFrame v s).octets .fecf 0 4 = if s.cfg.fecfEn = 1 then fecfRegion s h else v.octets .fecf 0 4 := by
  have hlast := hv.fecf hgood
  have hinput : (inputFrame v).length = v.frameLen.toNat := State.length_octets _ _ _ _
  have hroom : 4 ≤ v.frameLen.toNat := by rw [hv.frameLen, frameLength, dfLen]; omega
  obtain ⟨-, ⟨-, -, -, -, hiz, -⟩, -, hpay, -⟩ := hgood
  rw [decodedFrame, octets_storeFrame_fecf (by rwa [hv.cfg]) (packedField_fitsBuffers hpay) hroom hinput,
    hv.cfg, inputFrame_drop_take v (by omega)]
  exact ite_congr rfl hlast fun _ => rfl

end

/-- Settles O49: any state that carries the frame of TF_ENCODE decodes to what the frame was made from. -/
theorem frameRoundTrip : Obligations.FrameRoundTrip := by
  intro h s t v hlegal hexec hok hvt hvcfg
  have hgood := frameInputsGood_of_exec_ok hlegal hexec hok
  obtain ⟨hflag, hL, nz, rfl⟩ := exec_tfEncode_ok_inversion hexec hok
  have ht := carriesFrame_encodedFrame (h := h) hflag hL nz
  have hv := ht.of_holdsFrameOf hflag hvt hvcfg
  have hlast := ht.fecf hgood
  obtain ⟨hvlock, -⟩ := hvt
  obtain ⟨hl, -, -, hpaySize, -, hvalid, -⟩ := id hgood
  have hvl : v.status.locked = true := by rw [hvlock, complete_commit_status, encodedFrame_status, hl]
  obtain ⟨hhdr, hdfh, hpresent, hpayLen, hflagBack⟩ := hv.decodedFrame_registers hgood hL
  obtain ⟨hsec, hpay, htrl⟩ := decodedFrame_field_regions v hpaySize
  refine ⟨_, exec_of_commit (hv.effectOf_tfDecode hgood hL hvl), rfl, hhdr, ?_⟩
  simp only [State.octets_complete_commit, complete_commit_dfh, hdfh, true_and] at hlast ⊢
  rw [hvalid, encodedFrame_fecf h hflag hL]
  refine ⟨hv.decodedFrame_iz hgood hL, hsec, hpresent, hpayLen, hpay, htrl, hflagBack, hv.decodedFrame_ocf hgood hL,
    encodedFrame_ocf h hflag hL, ?_, hlast⟩
  exact (hv.decodedFrame_fecf hgood).trans (ite_congr rfl (fun hone => (hlast hone).symm) fun _ => rfl)

end Sys2Proof.Machine
end

section
/-! SUPPORT. SP_DECODE undoes SP_ENCODE on any state that carries its packet (R264), and the lengths of a packet after
either command (R263). -/
namespace Sys2Proof.Machine

/-! ## The packet SP_ENCODE leaves (R115, R260) -/

/-- The packet registers of `s` with SP_DATA_LEN as SP_ENCODE writes it (R260). -/
def encodedPacketRegs (s : State) : SpRegs := { s.sp with dataLen := BitVec.ofNat 32 (packetDataLength s - 1) }

/-- What SP_ENCODE asks of its inputs for the header to hold them (R260). -/
abbrev packetFits (s : State) : Prop :=
  s.sp.fieldsFit = true ∧ 1 ≤ packetDataLength s ∧ packetDataLength s ≤ 65536

theorem encodedPacketRegs_dataLen_add_one {s : State} (h : packetFits s) :
    (encodedPacketRegs s).dataLen.toNat + 1 = packetDataLength s := by
  obtain ⟨-, hpos, hle⟩ := h
  have hdata : (encodedPacketRegs s).dataLen.toNat = packetDataLength s - 1 := toNat_ofNat_of_lt (by omega)
  omega

/-- The seven fields stand on the wire, whatever follows the header (R115). -/
theorem packetOnWire_packetOctets {s : State} (h : packetFits s) :
    packetOnWire (packetOctets s) (encodedPacketRegs s) := by
  obtain ⟨hfit, -, hle⟩ := h
  rw [packetOctets, List.append_assoc]
  exact packetOnWire_append _ _ _ (length_packSP _ _).ge (packetOnWire_packSP _ _ hfit (by omega))

/-- `v` is locked under the configuration of `s`, and FRAME[0..FRAME_LEN) is the packet of `s` (R260). -/
structure State.carriesPacket (v s : State) : Prop where
  locked : v.status.locked = true
  cfg : v.cfg = s.cfg
  frame : inputFrame v = packetOctets s

theorem State.carriesPacket.frameLen_eq {v s : State} (hv : v.carriesPacket s) :
    v.frameLen.toNat = 6 + packetDataLength s := by
  rw [← length_packetOctets, ← hv.frame, inputFrame, State.length_octets]

theorem State.carriesPacket.holdsAt {v s : State} (hv : v.carriesPacket s) : v.holdsAt .frame 0 (packetOctets s) := by
  rw [State.holdsAt, length_packetOctets, ← hv.frameLen_eq]
  exact hv.frame

/-- Whatever else is overwritten, the packet is still carried (R264). -/
theorem State.carriesPacket.of_holdsFrameOf {s t v : State} (ht : t.carriesPacket s) (hv : v.holdsFrameOf t)
    (hcfg : v.cfg = t.cfg) : v.carriesPacket s := by
  obtain ⟨hlock, -, hframe⟩ := hv
  exact ⟨hlock.trans ht.locked, hcfg.trans ht.cfg, hframe.trans ht.frame⟩

/-- An SP_ENCODE that succeeds found inputs that fit, and leaves their packet (R42, R260). -/
theorem exec_spEncode_ok_inversion {s t : State} (hexec : exec .spEncode s = .next t) (hok : t.status.code = .ok) :
    packetFits s ∧ t.sp = encodedPacketRegs s ∧ t.payloadLen = s.payloadLen ∧ t.carriesPacket s := by
  obtain ⟨c, nz, heff, rfl⟩ := exec_ok_inversion hexec hok
  obtain ⟨hlock, -, hfit, hne, hle, rfl, rfl⟩ := commit_under_lock spEncodeEffect_commit heff
  have hlen : (BitVec.ofNat 32 (6 + packetDataLength s)).toNat = (packetOctets s).length :=
    (toNat_ofNat_of_lt (by omega)).trans (length_packetOctets s).symm
  refine ⟨⟨hfit, by omega, by omega⟩, rfl, rfl, hlock, rfl, ?_⟩
  rw [inputFrame_complete_commit]
  exact (State.holdsAt_of_mem (s := s) rfl).inputFrame_eq hlen

/-! ## SP_DECODE of a carried packet (R261, R264) -/

/-- SP_DECODE finds the lengths of the packet in its header, and so every region where SP_ENCODE put it. -/
theorem State.carriesPacket.exec_spDecode {v s : State} (hv : v.carriesPacket s) (hs : packetFits s) :
    ∃ u, exec .spDecode v = .next u ∧ u.status.code = .ok ∧ u.sp = encodedPacketRegs s
      ∧ u.payloadLen = s.payloadLen
      ∧ u.octets .payload 0 s.payloadLen.toNat = s.octets .payload 0 s.payloadLen.toNat
      ∧ u.octets .spsh 0 (s.cfg.secHdrLen s.sp.shFlag) = s.octets .spsh 0 (s.cfg.secHdrLen s.sp.shFlag) := by
  have hwire := packetOnWire_packetOctets hs
  have hdata := encodedPacketRegs_dataLen_add_one hs
  have hlen := hv.frameLen_eq
  obtain ⟨hsec, hpay⟩ := packet_regions hv.holdsAt
  obtain ⟨-, -, hle⟩ := hs
  obtain ⟨-, -, hflagBits, -, -, -, hlenBits⟩ := id hwire
  have hsh : (if getBits (packetOctets s) 4 1 = 1 then s.cfg.spShLen.toNat else 0) = s.cfg.secHdrLen s.sp.shFlag := by
    rw [hflagBits, CfgRegs.secHdrLen_eq, encodedPacketRegs]
  have hn : getBits (packetOctets s) 32 16 + 1 - s.cfg.secHdrLen s.sp.shFlag = s.payloadLen.toNat := by
    rw [hlenBits, hdata, packetDataLength, Nat.add_sub_cancel_left]
  have hdecode := packetDecodeSplitsRegions v hv.locked (by omega)
  simp only [hv.frame, hv.cfg, hsh, hn, hsec, hpay] at hdecode
  obtain ⟨u, hexec, hstatus, hsp, hpayLen, hspsh, hpayload⟩ := hdecode (by omega)
    (by rw [hlenBits, hdata]; exact Nat.le_add_right _ _)
  refine ⟨u, hexec, by rw [hstatus]; rfl, ?_, BitVec.eq_of_toNat_eq hpayLen, hpayload, hspsh⟩
  rw [← unpackSP_of_packetOnWire _ _ hsp, unpackSP_of_packetOnWire _ _ hwire]

/-- Settles O57: any state that carries the packet of SP_ENCODE decodes to what the packet was made from. -/
theorem packetRoundTrip : Obligations.PacketRoundTrip := by
  intro s t v hexec hok hvt hvcfg
  obtain ⟨hfits, hsp, -, ht⟩ := exec_spEncode_ok_inversion hexec hok
  obtain ⟨u, hu, hcode, husp, hpayLen, hpay, hspsh⟩ := (ht.of_holdsFrameOf hvt hvcfg).exec_spDecode hfits
  refine ⟨u, hu, hcode, husp.trans hsp.symm, by rw [husp, hsp]; rfl, hpayLen, hpay, fun hflag => ?_⟩
  rwa [CfgRegs.secHdrLen, if_pos hflag] at hspsh

/-! ## The lengths of a packet (R263) -/

/-- Settles O58: SP_ENCODE counts the data field it assembles, and SP_DECODE takes for the payload what the counted data
field leaves beside the secondary header. -/
theorem packetLengthLaw : Obligations.PacketLengthLaw := by
  rintro i s t (rfl | rfl) hexec hok
  case inl =>
    obtain ⟨hfits, hsp, hpayLen, ht⟩ := exec_spEncode_ok_inversion hexec hok
    have hdata := encodedPacketRegs_dataLen_add_one hfits
    rw [ht.frameLen_eq, hsp, ht.cfg, hpayLen]
    exact ⟨hdata, by omega⟩
  case inr =>
    obtain ⟨c, nz, heff, rfl⟩ := exec_ok_inversion hexec hok
    obtain ⟨-, -, -, hlen, hroom, rfl, -⟩ := commit_under_lock spDecodeEffect_commit heff
    have hdata := unpackSP_dataLen_lt (inputFrame s)
    refine ⟨?_, hlen⟩
    rw [complete_commit_payloadLen, storePacket_payloadLen, toNat_ofNat_of_lt (by omega)]
    exact (Nat.add_sub_cancel' hroom).symm

end Sys2Proof.Machine
end

section
/-! SUPPORT. How a pending command ends: what the engine's turn leaves (R301, R302, R312), what a failure leaves (R303,
R304), which accesses wait for the end (R310, R350), and that the end comes along every schedule without a reset (R355,
R356). -/
namespace Sys2Proof.Machine

/-! ## A command that completes (R301, R302, R312) -/

/-- CMD is no command's output register, so the latched word stays (R42). -/
theorem exec_latched {i : Instr} {s t : State} (h : exec i s = .next t) : t.latched = s.latched := by
  obtain ⟨hreg, -⟩ := exec_keepsAllBut h
  exact hreg .cmd (by cases i <;> simp [writtenRegs, hdrRegs]) (by decide)

theorem exec_done {i : Instr} {s t : State} (h : exec i s = .next t) :
    t.status.busy = false ∧ t.status.done = true := by
  rw [exec_next_iff.mp h]
  exact complete_done s _

/-- A command ends locked when it began locked, or is the LOCK_CONFIG that succeeds (R140, R304). -/
theorem exec_locked_iff {i : Instr} {s t : State} (h : exec i s = .next t) :
    t.status.locked = true ↔ s.status.locked = true ∨ (i = .lockConfig ∧ t.status.code = .ok) := by
  rcases exec_inversion h with ⟨c, nz, he, rfl, hcode⟩ | ⟨e, -, rfl, -⟩
  · have hlocked := commit_locked he
    refine iff_of_true hlocked ?_
    by_cases hi : i = .lockConfig
    · exact .inr ⟨hi, hcode⟩
    · exact .inl (locked_of_commit hi he)
  · simp

/-- The engine's turn on a pending command performs it, or fails it as no command (R301). -/
theorem engineTurn_pending {s : State} (hb : s.status.busy = true) :
    (∃ i t, decode s.latched = .ok i ∧ exec i s = .next t ∧ engineTurn s = .next t)
    ∨ ((¬∃ i, decode s.latched = .ok i) ∧ engineTurn s = .next (s.failed .illegalCommand)) := by
  by_cases hd : ∃ i, decode s.latched = .ok i
  · obtain ⟨i, hi⟩ := hd
    have hexec := exec_eq i s
    exact .inl ⟨i, _, hi, hexec, (engineTurn_ok hb hi).trans hexec⟩
  · exact .inr ⟨hd, engineTurn_error hb hd⟩

theorem step_of_engineMover {s : State} (h : s.mover = .engine) : step s = engineTurn s.advanceSchedule := by
  rw [step, h]

/-- With no command pending the engine has nothing to do (R301). -/
theorem engineTurn_not_busy {s : State} (hb : s.status.busy = false) : engineTurn s = .next s := by
  rw [engineTurn, hb]
  rfl

/-- Settles O5: the engine's turn as `engineTurn_ok` and `engineTurn_not_busy` give it; advancing the schedule changes
neither STATUS nor LATCHED. -/
theorem stepPerformsLatchedCommand : Obligations.StepPerformsLatchedCommand := by
  intro s i hm
  rw [step_of_engineMover hm]
  exact ⟨fun hb hd => engineTurn_ok hb hd, fun hb => engineTurn_not_busy hb⟩

/-- Settles O7: a word that decodes ends as its command does, any other as a failure. -/
theorem engineStepAlwaysCompletes : Obligations.EngineStepAlwaysCompletes := by
  intro s hm hb
  rw [step_of_engineMover hm]
  rcases engineTurn_pending (s := s.advanceSchedule) hb with ⟨i, t, hi, hexec, hturn⟩ | ⟨hno, hturn⟩
  · obtain ⟨hbusy, hdone⟩ := exec_done hexec
    have hlatched := exec_latched hexec
    have hdecode : decode s.latched = .ok i := hi
    obtain ⟨hspare, -⟩ := spareFlagTellsNonzeroSpare i _ t hexec
    refine ⟨t, hturn, hbusy, hdone, hlatched, fun hnz => (hspare.mp hnz).1, ?_⟩
    simpa [hdecode] using exec_locked_iff hexec
  · refine ⟨_, hturn, rfl, rfl, rfl, nofun, ?_⟩
    simp [State.failed]

/-! ## A command that fails (R303, R304) -/

/-- Settles O8: a code other than OK comes from an effect that raised. -/
theorem failureWritesOnlyStatus : Obligations.FailureWritesOnlyStatus := by
  intro i s t h hcode
  rcases exec_inversion h with ⟨-, -, -, -, hok⟩ | ⟨e, -, ht, -⟩
  · exact absurd hok hcode
  · exact ⟨e, ht⟩

theorem underLock_unlocked {s : State} {k : Effect} (h : s.status.locked = false) :
    underLock s k = .raise .configuration := by
  simp [underLock, h]

/-- Every command but LOCK_CONFIG has its own checks under the lock check (R304). -/
theorem effectOf_unlocked {i : Instr} {s : State} (hi : i ≠ .lockConfig) (hl : s.status.locked = false) :
    effectOf i s = .raise .configuration := by
  cases i with
  | lockConfig => exact absurd rfl hi
  | _ => exact underLock_unlocked hl

/-- Settles O9: the lock check raises before the command's own checks are looked at. -/
theorem lockCheckComesFirst : Obligations.LockCheckComesFirst := fun _ _ hi hl =>
  exec_of_raise (effectOf_unlocked hi hl)

/-! ## The hazard window (R310, R350) -/

theorem hazardous_of_pending {s : State} {a : Access} (h : s.status.busy = true ∨ s.hazardWindow = true)
    (ha : a ≠ statusRead) : hazardous s a = true := by
  simp [hazardous, ha, h.symm]

/-- A hazardous access faults before its legality is looked at (R310). -/
theorem hostAccess_of_hazardous {s : State} {a : Access} (h : hazardous s a = true) :
    hostAccess s a = .fault (.hostHazard (accessOffset a) (accessKind a)) := by
  rw [hostAccess.eq_def, if_pos h]

/-- Settles O25: every access but the STATUS read is hazardous, and the STATUS read never is. -/
theorem accessesWhilePendingAreHazards : Obligations.AccessesWhilePendingAreHazards := fun s _ hpending =>
  ⟨fun ha => hostAccess_of_hazardous (hazardous_of_pending hpending ha), hostAccess_statusRead s⟩

/-! ## A pending command under a schedule (R355, R356) -/

/-- What a waiting host's turn leaves: STATUS and the schedule as they were, and a program that only waits. -/
abbrev keepsWaiting (s u : State) : Prop :=
  u.status = s.status ∧ u.schedule = s.schedule ∧ onlyWaiting u.program = true

/-- A host that only waits makes at most a STATUS read a turn, which is never held back (R106, R350). -/
theorem hostTurn_keepsWaiting {s : State} (h : onlyWaiting s.program = true) :
    ∃ u, hostTurn s = .next u ∧ keepsWaiting s u := by
  cases hp : s.program with
  | nil => exact ⟨s, hostTurn_nil hp, rfl, rfl, h⟩
  | cons op rest =>
    rw [hp, onlyWaiting, List.all_cons, Bool.and_eq_true] at h
    obtain ⟨hop, hrest⟩ := h
    cases op with
    | access a =>
      obtain rfl : a = statusRead := by simpa using hop
      exact ⟨_, (hostTurn_access hp).trans (hostAccess_statusRead _), rfl, rfl, hrest⟩
    | wait =>
      by_cases hdone : s.status.busy = false ∧ s.status.done = true
      · exact ⟨_, (hostTurn_wait_done hp hdone).trans (hostAccess_statusRead _), rfl, rfl, hrest⟩
      · refine ⟨_, (hostTurn_wait_again hp hdone).trans (hostAccess_statusRead _), rfl, rfl, ?_⟩
        simpa [hp, onlyWaiting] using hrest

/-- One step of the engine completes a pending command, whatever word it is (R301, R302). -/
theorem run_one_completes {s : State} (hm : s.mover = .engine) (hb : s.status.busy = true) :
    ∃ t, Sys2Proof.core.run 1 s = .next t ∧ t.status.busy = false ∧ t.status.done = true := by
  obtain ⟨t, hstep, hbusy, hdone, -⟩ := engineStepAlwaysCompletes s hm hb
  exact ⟨t, run_succ_of_step hstep, hbusy, hdone⟩

/-- Settles O18, by induction on the schedule: the engine's first turn completes the command, a turn of the waiting host
before it leaves the command pending and the host waiting, and with the schedule run out the turn is the engine's. -/
theorem acceptedCommandCompletes : Obligations.AcceptedCommandCompletes := by
  intro s
  induction hs : s.schedule generalizing s with
  | nil =>
    intro hb _ _
    obtain ⟨t, ht⟩ := run_one_completes (by simp [State.mover, hs, hb]) hb
    exact ⟨1, t, le_rfl, ht⟩
  | cons a rest ih =>
    intro hb hwait hreset
    obtain ⟨hne, hrest⟩ := not_or.mp (mt List.mem_cons.mpr hreset)
    have hmover : s.mover = a := by rw [State.mover, hs]
    cases a with
    | engine =>
      obtain ⟨t, ht⟩ := run_one_completes hmover hb
      exact ⟨1, t, Nat.le_add_left 1 _, ht⟩
    | host =>
      obtain ⟨u, hturn, hstatus, hsched, hprogram⟩ := hostTurn_keepsWaiting (s := s.advanceSchedule) hwait
      have hstep : step s = .next u := (step_of_hostMover hmover).trans hturn
      have hu : u.schedule = rest := by rw [hsched, State.advanceSchedule_schedule, hs, List.tail_cons]
      obtain ⟨k, t, hk, hrun, hdone⟩ := ih u hu (by rw [hstatus]; exact hb) hprogram hrest
      exact ⟨k + 1, t, Nat.succ_le_succ hk, (run_succ_of_step hstep).trans hrun, hdone⟩
    | reset => exact absurd rfl hne

end Sys2Proof.Machine
end
